-- ==== Sys2Proof/Word.lean ====
section
/-! DEFINITION. The word types: a byte (R14), a frame field of two bytes (R15), a 32-bit register (R31). -/

namespace Sys2Proof

/-- A byte, also a symbol of GF(2^8) (R14, R240). -/
abbrev Byte := BitVec 8

/-- A 16-bit quantity: PARITY_MAGIC, CRC_INIT and the frame checksum (R10, R11, R250). -/
abbrev Half := BitVec 16

/-- A 32-bit register or command word (R31, R110). -/
abbrev Word := BitVec 32

end Sys2Proof
end

