-- ==== Sys2Proof/Config.lean ====
section
/-! DEFINITION. The elaboration parameters (R7 to R13, R99) as plain data, and the free values: constants with no body,
so that nothing can be proved about the value they give (R93, R203, R302). -/

namespace Sys2Proof

/-- `RS_CODE` (R12) as data. That it meets R242 and R244 is checked at configuration (`Machine.codeLawful`, log 3). -/
inductive RsCode where
  /-- The reference code of R248, for the configuration's K and M. -/
  | reference
  /-- Any other code, by its field and its parity coefficients: the field polynomial is x^8 + `poly`, `poly` the eight
  lower coefficients (R241), and parity byte `j` is the sum over `i` of message byte `i` times `coef[i][j]`, the form of
  every systematic encoder that is linear over the field (R244). -/
  | matrix (poly : Byte) (coef : List (List Byte))
  deriving DecidableEq, Repr

/-- Which erasure decoders the configuration admits on symbols that fit no codeword (R246, R249, log 4). -/
inductive DecoderChoice where
  /-- Any decoder R246 allows: the outcome there is a draw. -/
  | lawful
  /-- The reference decoder of R249: it always reports failure there. -/
  | reference
  deriving DecidableEq, Repr

/-- The parameters fixed when the block is elaborated (R7 to R12, R99). -/
structure Config where
  /-- K, the number of data slots (R7). -/
  k : Nat
  /-- M, the number of parity slots (R7). -/
  m : Nat
  /-- CAP, the payload capacity of a slot in bytes (R8). -/
  cap : Nat
  /-- MTU, the link's maximum frame length (R9). -/
  mtu : Nat
  /-- PARITY_MAGIC (R10). -/
  parityMagic : Half
  /-- CRC_INIT (R11). -/
  crcInit : Half
  /-- RS_CODE (R12). -/
  code : RsCode
  /-- The admitted decoders on inconsistent input (R246, R249). -/
  decoder : DecoderChoice
  /-- BASE, the platform address of the block (R99). -/
  base : Nat
  deriving DecidableEq, Repr

/-- HDR_LEN (R13). -/
def hdrLen : Nat := 12

/-- CRC_LEN (R13). -/
def crcLen : Nat := 2

/-- OVERHEAD = HDR_LEN + CRC_LEN = 14 (R13). -/
def overhead : Nat := hdrLen + crcLen

/-- FRAME_MAX = CAP + 14 (R13): the longest frame, and the size of each host buffer. -/
def Config.frameMax (c : Config) : Nat := c.cap + overhead

/-- The example configuration of 95_test_vectors.md. DESIGN CHOICE (log 2): the spec leaves K, M, CAP, MTU,
PARITY_MAGIC, RS_CODE and BASE open; `State.reset` needs one configuration, and this is the one the spec's vectors use. -/
def Config.vector : Config where
  k := 3
  m := 2
  cap := 8
  mtu := 64
  parityMagic := 0xFEC0
  crcInit := 0xFFFF
  code := .reference
  decoder := .lawful
  base := 0

/-- The free value of a host read that the spec makes a draw (R93, R302), by draw number. -/
opaque Config.freeWord : Nat → Word

/-- The free choice of DEC_DECODE on inconsistent input (R203): whether it reports ERR_CODEC, by draw number. -/
opaque Config.freeDecodeFails : Nat → Bool

/-- The free data bytes of DEC_DECODE on inconsistent input (R203 (b)), by draw number, data slot and column. -/
opaque Config.freeDataByte : Nat → Nat → Nat → Byte

end Sys2Proof
end

