-- ==== Sys2Proof/Machine/State.lean ====
section
/-! DEFINITION. The state of one instance of the block (10_state.md) as plain data, and its state after reset (R53). -/

namespace Sys2Proof.Machine

/-- Bytes by address, in one canonical form: addresses strictly rising, no entry equal to 0. An unlisted address reads
as 0, the reset contents of both host buffers (R53). -/
abbrev Memory := List Host.Cell

/-- The canonical form of a memory. -/
abbrev Memory.wf (m : Memory) : Prop := m.Pairwise (fun x y => x.1 < y.1) ∧ ∀ c ∈ m, c.2 ≠ 0

/-- A data slot of the encoder: its CAP bytes and its stored length (R40). -/
structure EncSlot where
  bytes : List Byte
  len : Nat
  deriving DecidableEq, Repr

/-- The encoder engine (R40, R41, R42). -/
structure Encoder where
  /-- ENC.D[i] and ENC.DLEN[i]. -/
  data : List EncSlot
  /-- ENC.P[j]. -/
  parity : List (List Byte)
  /-- ENC.MPL. -/
  mpl : Nat
  /-- ENC.TOTAL_LEN. -/
  totalLen : Word
  /-- ENC.READY. -/
  ready : Bool
  deriving DecidableEq, Repr

/-- A data or parity slot of the decoder: its CAP bytes, its stored length and its received flag (R44, R45). -/
structure DecSlot where
  bytes : List Byte
  len : Nat
  received : Bool
  deriving DecidableEq, Repr

/-- The decoder engine (R44, R45, R46). -/
structure Decoder where
  /-- DEC.D[i], DEC.DLEN[i], DEC.DRX[i]. -/
  data : List DecSlot
  /-- DEC.P[j], DEC.PLEN[j], DEC.PRX[j]. -/
  parity : List DecSlot
  /-- DEC.MPL. -/
  mpl : Nat
  /-- DEC.TOTAL_LEN. -/
  totalLen : Word
  /-- DEC.DECODED. -/
  decoded : Bool
  deriving DecidableEq, Repr

/-- The result codes of R120. -/
inductive ResultCode where
  | ok
  | errBounds
  | errNotReady
  | errNotReceived
  | errInsufficient
  | errCodec
  | errMagic
  | errCrc
  | errFrameLen
  | errIllegalCmd
  deriving DecidableEq, Repr

/-- The width of a bus access: 1, 2 or 4 bytes (R81). -/
inductive Width where
  | w1
  | w2
  | w4
  deriving DecidableEq, Repr

/-- A host bus access at a platform address (R81, R99). -/
inductive Access where
  | read (addr : Nat) (width : Width)
  | write (addr : Nat) (width : Width) (data : Word)
  deriving DecidableEq, Repr

/-- One turn of an agent (R18, R276, log 7). -/
inductive Move where
  /-- A bus access of the host. -/
  | host (a : Access)
  /-- The host polls STATUS until BUSY is 0 (`wait`, R117). -/
  | wait
  /-- The reset pin is asserted (R300). -/
  | resetPin
  /-- The engine takes a step (R152, R303). -/
  | engine
  deriving DecidableEq, Repr

/-- What the bus port answers (R51, R85): the error response and the read data. -/
structure BusResponse where
  error : Bool
  data : Word
  deriving DecidableEq, Repr

/-- No step of this block stops with a fault: a command that fails completes with a result code (R270, R273), a bad bus
access is answered by an error response (R85), and no command hangs (R155). So the type has no constructor. -/
inductive Fault
  deriving DecidableEq, Repr

/-- The reasons a step is refused. -/
inductive Refusal where
  /-- Raised by `exec` for an instruction that has no meaning yet; no arm of `exec` raises it. Safe. -/
  | notModelled (mnemonic : String)
  /-- Raised by `step` in a state whose configuration breaks R7, R8, R9 or R12: there is no such hardware (U7).
  Safe. -/
  | badConfiguration
  deriving DecidableEq, Repr

/-- One instance of the block, with the turns its agents are still to take. -/
structure State where
  /-- The elaboration parameters (R7 to R12); the CFG registers are views of them (R35). No step writes this. -/
  cfg : Config
  /-- ARG0 (R31). -/
  arg0 : Word
  /-- ARG1 (R31). -/
  arg1 : Word
  /-- RES0 (R32). -/
  res0 : Word
  /-- RES1 (R32). -/
  res1 : Word
  /-- RES2 (R32). -/
  res2 : Word
  /-- RES3 (R32). -/
  res3 : Word
  /-- CMD: the last accepted word (R39). -/
  cmd : Word
  /-- CTRL.IRQ_EN (R37). -/
  irqEn : Bool
  /-- STATUS.DONE (R38). -/
  done : Bool
  /-- STATUS.ERR_BUSY (R38). -/
  errBusy : Bool
  /-- STATUS.RESULT (R38). -/
  result : ResultCode
  /-- PENDING (R50). -/
  pending : Option Word
  /-- RESETTING (R50). -/
  resetting : Bool
  /-- The encoder engine (R40 to R42). -/
  enc : Encoder
  /-- The decoder engine (R44 to R46). -/
  dec : Decoder
  /-- IN_BUF and OUT_BUF, by bus address (R49, R86). -/
  mem : Memory
  /-- MODEL's own: the bus port's last response (log 8). -/
  resp : Option BusResponse
  /-- MODEL's own: the turns to come, next first (log 7). -/
  agenda : List Move
  /-- MODEL's own: how many free values have been drawn (log 6). -/
  draws : Nat
  deriving DecidableEq, Repr

/-- The encoder after reset (R53). -/
def Encoder.atReset (c : Config) : Encoder where
  data := List.replicate c.k ⟨List.replicate c.cap 0, 0⟩
  parity := List.replicate c.m (List.replicate c.cap 0)
  mpl := 0
  totalLen := 0
  ready := false

/-- The decoder after reset (R53). -/
def Decoder.atReset (c : Config) : Decoder where
  data := List.replicate c.k ⟨List.replicate c.cap 0, 0, false⟩
  parity := List.replicate c.m ⟨List.replicate c.cap 0, 0, false⟩
  mpl := 0
  totalLen := 0
  decoded := false

/-- The machine of configuration `c` once its reset is over (R53, R304). The model's own fields `resp`, `agenda` and
`draws` start empty. DESIGN CHOICE (log 6, log 7, log 8). -/
def State.resetOf (c : Config) : State where
  cfg := c
  arg0 := 0
  arg1 := 0
  res0 := 0
  res1 := 0
  res2 := 0
  res3 := 0
  cmd := 0
  irqEn := false
  done := false
  errBusy := false
  result := .ok
  pending := none
  resetting := false
  enc := Encoder.atReset c
  dec := Decoder.atReset c
  mem := []
  resp := none
  agenda := []
  draws := 0

/-- The machine right after reset, in the configuration of 95_test_vectors.md. DESIGN CHOICE (log 2). -/
def State.reset : State := State.resetOf Config.vector

end Sys2Proof.Machine
end

