-- ==== Sys2Proof/Machine/Bits.lean ====
section
/-! DEFINITION. Byte-order helpers: big-endian frame fields (R15) and little-endian bus lanes (R82); and `tabulate`, the
array whose entry `i` is given by a function (the `[ … for i in [0, n) ]` of the pseudocode). -/

namespace Sys2Proof.Machine

/-- The list `[f 0, …, f (n-1)]`. -/
def tabulate {α : Type} (n : Nat) (f : Nat → α) : List α := (List.range n).map f

/-- Byte `k` of a word: bits [8k+7:8k] (R82). -/
def laneOf (w : Word) (k : Nat) : Byte := (w >>> (8 * k)).setWidth 8

/-- The word whose lane `k` is byte `k` of the list; lanes past the list are 0 (R82). -/
def wordOfLanes : List Byte → Word
  | [] => 0
  | b :: bs => (wordOfLanes bs <<< 8) ||| b.setWidth 32

/-- be16 (R15). -/
def be16 (v : Half) : List Byte := [v.extractLsb' 8 8, v.extractLsb' 0 8]

/-- be32 (R15). -/
def be32 (v : Word) : List Byte := [v.extractLsb' 24 8, v.extractLsb' 16 8, v.extractLsb' 8 8, v.extractLsb' 0 8]

/-- rd_be16, a natural (R15). -/
def rdBe16 (s : List Byte) (o : Nat) : Nat := (s.getD o 0).toNat * 256 + (s.getD (o + 1) 0).toNat

/-- rd_be32, a natural (R15). -/
def rdBe32 (s : List Byte) (o : Nat) : Nat :=
  (s.getD o 0).toNat * 2 ^ 24 + (s.getD (o + 1) 0).toNat * 2 ^ 16 + (s.getD (o + 2) 0).toNat * 2 ^ 8 +
    (s.getD (o + 3) 0).toNat

end Sys2Proof.Machine
end

