-- ==== Sys2Proof/Machine/Galois.lean ====
section
/-! DEFINITION. The field GF(2^8) (R240, R241), for any field polynomial and for that of the reference instantiation.
Addition is XOR of bytes. -/

namespace Sys2Proof.Machine

/-- Multiplication by x modulo x^8 + p (R241). -/
def gfTimesX (p a : Byte) : Byte := if a.msb then (a <<< 1) ^^^ p else a <<< 1

/-- The sum, over the low `n` bits `k` of `b`, of `a·x^k`. -/
def gfMulBits (p : Byte) : Nat → Byte → Byte → Byte
  | 0, _, _ => 0
  | n + 1, a, b => (if b.getLsbD 0 then a else 0) ^^^ gfMulBits p n (gfTimesX p a) (b >>> 1)

/-- The product of two symbols in the field of x^8 + p (R241). -/
def gfMulMod (p a b : Byte) : Byte := gfMulBits p 8 a b

/-- The field polynomial of the reference instantiation without its x^8: x^8 + x^4 + x^3 + x^2 + 1 is 0x11D (R241). -/
def gfPoly : Byte := 0x1D

/-- The product of two symbols in the reference field (R241). -/
def gfMul (a b : Byte) : Byte := gfMulMod gfPoly a b

/-- The power of a symbol. -/
def gfPow (a : Byte) : Nat → Byte
  | 0 => 1
  | n + 1 => gfMul (gfPow a n) a

/-- The inverse of a non-zero symbol: its 254th power (R241). -/
def gfInv (a : Byte) : Byte := gfPow a 254

/-- The primitive element α (R241). -/
def gfAlpha : Byte := 0x02

/-- The remainder of the polynomial x^8 + p modulo the polynomial `d` of degree `k`, coefficients as the bits of a
natural: Horner's rule from the highest coefficient. -/
def polyRem (p : Byte) (k d : Nat) : Nat :=
  (List.range 9).foldl
    (fun r i =>
      let r' := 2 * r + (256 + p.toNat) / 2 ^ (8 - i) % 2
      if r'.testBit k then r' ^^^ d else r') 0

/-- Whether x^8 + p is irreducible, so that the bytes with `gfMulMod p` are the field GF(2^8) (R240): no polynomial of
degree 1 to 4, of which there are the 30 from 2 (x) to 31, divides it. -/
def irreducible (p : Byte) : Bool := (List.range 30).all fun i => polyRem p (i + 2).log2 (i + 2) != 0

end Sys2Proof.Machine
end

