-- ==== Sys2Proof/Machine/Codec.lean ====
section
/-! DEFINITION. The RS codec capability (R242 to R249): RS_ENC for the configured code, RS_DEC, which finds the codeword
that agrees with the known symbols by elimination over the bits of the code (log 20), and the laws a configuration's code
must meet (log 3). -/

namespace Sys2Proof.Machine

/-- Bytewise XOR of two sequences: the sum of two words of the code (R240). -/
def xorBytes (a b : List Byte) : List Byte := List.zipWith (· ^^^ ·) a b

/-- The generator polynomial `(x - α^0) ⋯ (x - α^(M-1))`, coefficients highest power first (R248). -/
def genPoly : Nat → List Byte
  | 0 => [1]
  | n + 1 => xorBytes (genPoly n ++ [0]) (0 :: (genPoly n).map (gfMul (gfPow gfAlpha n)))

/-- One step of the division by g(x): bring in the next coefficient `b` and reduce. `g` is the generator without its
leading 1, `rem` the remainder so far, highest power first. -/
def divStep (g rem : List Byte) (b : Byte) : List Byte :=
  xorBytes (rem.drop 1 ++ [0]) (g.map (gfMul (b ^^^ rem.headD 0)))

/-- The reference parity `(m(x)·x^M) mod g(x)`, highest power first (R248). -/
def referenceParity (m : Nat) (msg : List Byte) : List Byte :=
  msg.foldl (divStep ((genPoly m).drop 1)) (List.replicate m 0)

/-- Coefficient `t[i][j]` of a code matrix, 0 where the matrix has none. -/
def coefAt (t : List (List Byte)) (i j : Nat) : Byte := (t.getD i []).getD j 0

/-- The XOR of `f 0, …, f (n-1)`. -/
def xorSum : Nat → (Nat → Byte) → Byte
  | 0, _ => 0
  | n + 1, f => xorSum n f ^^^ f n

/-- Parity byte `j` of a message under a code matrix, over the field of x^8 + p (R244). -/
def matrixParityByte (p : Byte) (t : List (List Byte)) (k : Nat) (msg : List Byte) (j : Nat) : Byte :=
  xorSum k fun i => gfMulMod p (msg.getD i 0) (coefAt t i j)

/-- The field polynomial of the configured code, without its x^8 (R241). -/
def fieldPoly (c : Config) : Byte :=
  match c.code with
  | .reference => gfPoly
  | .matrix p _ => p

/-- The M parity bytes of a message under the configured code. -/
def parityOf (c : Config) (msg : List Byte) : List Byte :=
  match c.code with
  | .reference => referenceParity c.m msg
  | .matrix p t => tabulate c.m (matrixParityByte p t c.k msg)

/-- The codeword of a message: the message, then its parity (R244, R248). -/
def codewordOf (c : Config) (msg : List Byte) : List Byte := msg ++ parityOf c msg

/-- RS_ENC (R244): defined on every K-byte column. `none` is the codec's failure; no command gives it a column of another
length, so it is unreachable (R174, log 17). -/
def rsEnc (c : Config) (msg : List Byte) : Option (List Byte) :=
  if msg.length = c.k then some (codewordOf c msg) else none

/-- All the results of a sequence of encoder calls, or none if one of them failed (R174). -/
def allSome {α : Type} : List (Option α) → Option (List α)
  | [] => some []
  | r :: rs =>
    match r, allSome rs with
    | some a, some as => some (a :: as)
    | _, _ => none

/-- Bit `q` of a byte sequence: bit `q mod 8` of byte `q / 8`. -/
def bitOf (w : List Byte) (q : Nat) : Bool := (w.getD (q / 8) 0).getLsbD (q % 8)

/-- The message whose one set bit is bit `q`. -/
def unitMessage (k q : Nat) : List Byte :=
  tabulate k fun i => if i = q / 8 then BitVec.ofNat 8 (2 ^ (q % 8)) else 0

/-- The codewords still possible: `base` XORed with any of the sums of `dirs`. -/
structure Solutions where
  base : List Byte
  dirs : List (List Byte)
  deriving DecidableEq, Repr

/-- The first direction that has bit `q` set, and the others in order. -/
def takePivot (q : Nat) : List (List Byte) → Option (List Byte × List (List Byte))
  | [] => none
  | v :: vs =>
    if bitOf v q then some (v, vs)
    else
      match takePivot q vs with
      | some (u, us) => some (u, v :: us)
      | none => none

/-- Keep the codewords whose bit `q` equals that of `r`; `none` when there is none. -/
def narrow (r : List Byte) (sol : Option Solutions) (q : Nat) : Option Solutions :=
  match sol with
  | none => none
  | some s =>
    match takePivot q s.dirs with
    | some (v, vs) =>
      some { base := if bitOf s.base q = bitOf r q then s.base else xorBytes s.base v,
             dirs := vs.map fun u => if bitOf u q then xorBytes u v else u }
    | none => if bitOf s.base q = bitOf r q then some s else none

/-- Every codeword: sums of the codewords of the one-bit messages (R244, linearity). -/
def allCodewords (c : Config) : Solutions where
  base := List.replicate (c.k + c.m) 0
  dirs := tabulate (8 * c.k) fun q => codewordOf c (unitMessage c.k q)

/-- The bits of the symbols at the positions not in `E`. -/
def knownBits (n : Nat) (E : List Nat) : List Nat :=
  (List.range (8 * n)).filter fun q => !E.contains (q / 8)

/-- The codewords that agree with `r` at every position not in `E`, narrowed bit by bit. -/
def solve (c : Config) (r : List Byte) (E : List Nat) : Option Solutions :=
  (knownBits (c.k + c.m) E).foldl (narrow r) (some (allCodewords c))

/-- The sublists of `n` entries of a list. -/
def choose {α : Type} : Nat → List α → List (List α)
  | 0, _ => [[]]
  | _ + 1, [] => []
  | n + 1, x :: xs => (choose n xs).map (x :: ·) ++ choose (n + 1) xs

/-- Whether the zero codeword is the only one that is 0 at every position not in `E`: the elimination leaves no direction
to another. -/
def onlyZeroOutside (c : Config) (E : List Nat) : Bool :=
  match solve c (List.replicate (c.k + c.m) 0) E with
  | some s => s.dirs.all fun v => v == List.replicate (c.k + c.m) 0
  | none => false

/-- Whether the minimum distance of the code is M + 1 (R242): no codeword but zero lives on M positions. -/
def distanceHolds (c : Config) : Bool := (choose c.m (List.range (c.k + c.m))).all (onlyZeroOutside c)

/-- Whether RS_CODE meets its laws (R12, R242, R244, and R247 which follows). The reference code does for every K and M of
R7; a code matrix is checked: its field is one and its distance is M + 1. -/
def codeLawful (c : Config) : Bool :=
  match c.code with
  | .reference => true
  | .matrix p _ => irreducible p && distanceHolds c

/-- What a codec call gives (R246). -/
inductive CodecResult (α : Type) where
  /-- The codec reports failure. -/
  | failure
  /-- The codec's result. -/
  | ok (a : α)
  /-- The known symbols fit no codeword: the outcome is a draw (R203, R246). -/
  | inconsistent
  deriving DecidableEq, Repr

/-- RS_DEC (R246): failure for more than M erasures, else the codeword that agrees with the known symbols, if there is
one. -/
def rsDec (c : Config) (r : List Byte) (E : List Nat) : CodecResult (List Byte) :=
  if c.m < E.length then .failure
  else
    match solve c r E with
    | some s => .ok s.base
    | none => .inconsistent

/-- The results of a sequence of codec calls, ended by the first that is not a codeword. -/
def collect {α : Type} : List (CodecResult α) → CodecResult (List α)
  | [] => .ok []
  | r :: rs =>
    match r with
    | .failure => .failure
    | .inconsistent => .inconsistent
    | .ok a =>
      match collect rs with
      | .failure => .failure
      | .inconsistent => .inconsistent
      | .ok as => .ok (a :: as)

end Sys2Proof.Machine
end

