-- ==== Sys2Proof/Syntax.lean ====
section
/-! DEFINITION. The commands: one constructor per row of spec/opcode_table.json (R114). Every constructor carries the
slot index IDX as a natural (R112), also where the command ignores it (R113), so that no bit of a word is dropped. -/

namespace Sys2Proof

/-- A legal command. An illegal word (R115) is no `Instr`: the decoder rejects it by name. -/
inductive Instr where
  /-- NOP, R157: IDX, ARG0 and ARG1 ignored. -/
  | nop (idx : Nat)
  /-- ENC_BEGIN, R170: ARG0 = total_len. -/
  | encBegin (idx : Nat)
  /-- ENC_ADD_DATA, R172: IDX = seq, ARG0 = len, ARG1 = IN_BUF offset. -/
  | encAddData (idx : Nat)
  /-- ENC_COMPUTE_PARITY, R174: no operands. -/
  | encComputeParity (idx : Nat)
  /-- ENC_GET_PARITY, R176: IDX = parity slot. -/
  | encGetParity (idx : Nat)
  /-- DEC_BEGIN, R190: ARG0 = total_len, ARG1 = max_payload_len estimate. -/
  | decBegin (idx : Nat)
  /-- DEC_ADD_DATA, R192: IDX = seq, ARG0 = len, ARG1 = IN_BUF offset. -/
  | decAddData (idx : Nat)
  /-- DEC_ADD_PARITY, R194: IDX = parity slot, ARG0 = len, ARG1 = IN_BUF offset. -/
  | decAddParity (idx : Nat)
  /-- DEC_COUNT_MISSING, R196: no operands. -/
  | decCountMissing (idx : Nat)
  /-- DEC_COUNT_PARITY, R197: no operands. -/
  | decCountParity (idx : Nat)
  /-- DEC_CAN_DECODE, R198: no operands. -/
  | decCanDecode (idx : Nat)
  /-- DEC_DECODE, R200: no operands. -/
  | decDecode (idx : Nat)
  /-- DEC_GET_DATA, R206: IDX = seq. -/
  | decGetData (idx : Nat)
  /-- FRAME_PARSE, R224: ARG0 = frame length, ARG1 = IN_BUF offset. -/
  | frameParse (idx : Nat)
  deriving DecidableEq, Repr

/-- The IDX field of a command (R110). -/
def Instr.idx : Instr → Nat
  | .nop i => i
  | .encBegin i => i
  | .encAddData i => i
  | .encComputeParity i => i
  | .encGetParity i => i
  | .decBegin i => i
  | .decAddData i => i
  | .decAddParity i => i
  | .decCountMissing i => i
  | .decCountParity i => i
  | .decCanDecode i => i
  | .decDecode i => i
  | .decGetData i => i
  | .frameParse i => i

end Sys2Proof
end

