-- ==== Sys2Proof/WellFormed.lean ====
section
/-! DEFINITION. What a command must satisfy to be a word's meaning (R110, R112) and what a configuration must satisfy to
have hardware at all (R7 to R9, R12, U7). -/

namespace Sys2Proof

/-- IDX is a 16-bit field: a natural in [0, 65535] (R112). -/
def Instr.wf (i : Instr) : Bool := decide (i.idx < 65536)

/-- The constraints on K, M, CAP and MTU (R7, R8, R9). -/
def Config.sized (c : Config) : Bool :=
  decide (1 ≤ c.k) && decide (1 ≤ c.m) && decide (c.k + c.m ≤ 255) &&
  decide (1 ≤ c.cap) && decide (c.frameMax ≤ c.mtu) && decide (c.mtu ≤ 65535)

/-- The constraints on all parameters: the sizes, and the laws of RS_CODE (R12). A configuration that breaks one has no
hardware. -/
def Config.wf (c : Config) : Bool := c.sized && Machine.codeLawful c

end Sys2Proof
end

