-- ==== Sys2Proof/Decode.lean ====
section
/-! DEFINITION. The command decoder, total on every word and every byte list, rejecting by name (R110 to R115), and the
encoder written from the same opcode map. -/

namespace Sys2Proof

/-- OPC, bits [7:0] (R110). -/
def opcOf (w : Word) : Nat := w.toNat % 256

/-- RSV, bits [15:8] (R110). -/
def rsvOf (w : Word) : Nat := w.toNat / 256 % 256

/-- IDX, bits [31:16], zero-extended (R110, R112). -/
def idxOf (w : Word) : Nat := w.toNat / 65536

/-- Why bytes are no command. -/
inductive DecodeError where
  /-- RSV is not 0 (R115). -/
  | reservedBits
  /-- OPC is not in the opcode map (R115). -/
  | unassignedOpcode
  /-- Fewer than the four bytes of a command word (R111). -/
  | truncated
  deriving DecidableEq, Repr

/-- The opcode map, from OPC to the command (R114). -/
def instrOf (opc idx : Nat) : Option Instr :=
  match opc with
  | 0x00 => some (.nop idx)
  | 0x01 => some (.encBegin idx)
  | 0x02 => some (.encAddData idx)
  | 0x03 => some (.encComputeParity idx)
  | 0x04 => some (.encGetParity idx)
  | 0x10 => some (.decBegin idx)
  | 0x11 => some (.decAddData idx)
  | 0x12 => some (.decAddParity idx)
  | 0x13 => some (.decCountMissing idx)
  | 0x14 => some (.decCountParity idx)
  | 0x15 => some (.decCanDecode idx)
  | 0x16 => some (.decDecode idx)
  | 0x17 => some (.decGetData idx)
  | 0x20 => some (.frameParse idx)
  | _ => none

/-- The opcode map, from the command to OPC (R114). -/
def opcodeOf : Instr → Nat
  | .nop _ => 0x00
  | .encBegin _ => 0x01
  | .encAddData _ => 0x02
  | .encComputeParity _ => 0x03
  | .encGetParity _ => 0x04
  | .decBegin _ => 0x10
  | .decAddData _ => 0x11
  | .decAddParity _ => 0x12
  | .decCountMissing _ => 0x13
  | .decCountParity _ => 0x14
  | .decCanDecode _ => 0x15
  | .decDecode _ => 0x16
  | .decGetData _ => 0x17
  | .frameParse _ => 0x20

/-- Decode a command word: legal exactly when RSV = 0 and OPC is in the map (R111, R115). -/
def decodeWord (w : Word) : Except DecodeError Instr :=
  if rsvOf w ≠ 0 then .error .reservedBits
  else
    match instrOf (opcOf w) (idxOf w) with
    | some i => .ok i
    | none => .error .unassignedOpcode

/-- The command word of four bytes in bus order, byte `k` in bits [8k+7:8k] (R82). -/
def wordOfBytes (b0 b1 b2 b3 : Byte) : Word := b3 ++ b2 ++ b1 ++ b0

/-- Decode the command word at the front of a byte list, and give the rest of the list. -/
def decodeBytes : List Byte → Except DecodeError (Instr × List Byte)
  | b0 :: b1 :: b2 :: b3 :: rest =>
    match decodeWord (wordOfBytes b0 b1 b2 b3) with
    | .ok i => .ok (i, rest)
    | .error e => .error e
  | _ => .error .truncated

/-- The word of a command (R110, R114): IDX in [31:16], RSV = 0, OPC in [7:0]. -/
def encode (i : Instr) : Word := BitVec.ofNat 32 (i.idx * 65536 + opcodeOf i)

/-- The four bytes of a word in bus order (R82). -/
def bytesOfWord (w : Word) : List Byte :=
  [w.extractLsb' 0 8, w.extractLsb' 8 8, w.extractLsb' 16 8, w.extractLsb' 24 8]

/-- The bytes of a command in bus order. -/
def encodeBytes (i : Instr) : List Byte := bytesOfWord (encode i)

/-- The command the decoder reads from an instruction whose bits are `w`, numbered as the opcode table numbers them. A
command is one 32-bit word (R111): a longer number is no command. -/
def decodeTableWord (nbits w : Nat) : Option Instr :=
  if w % 2 ^ nbits < 2 ^ 32 then
    match decodeBytes (bytesOfWord (BitVec.ofNat 32 (w % 2 ^ nbits))) with
    | .ok (i, _) => some i
    | .error _ => none
  else none

end Sys2Proof
end

