-- ==== Sys2Proof/Machine/Ops.lean ====
section
/-! DEFINITION. The shared operations: memory, the slots' reads, and the life of a command: acceptance, completion,
failure, the host's acknowledgement, reset (R150, R154, R16, R282, R302, R303). -/

namespace Sys2Proof.Machine

/-- The outcome of a step or of a meaning. -/
abbrev Result := Host.Outcome State Fault Refusal

/-- The byte at an address; 0 where none is listed. -/
def Memory.read : Memory → Nat → Byte
  | [], _ => 0
  | (b, v) :: t, a => if b = a then v else Memory.read t a

/-- Write one byte, keeping the canonical form: writing 0 removes the entry. -/
def Memory.write : Memory → Nat → Byte → Memory
  | [], a, v => if v = 0 then [] else [(a, v)]
  | (b, w) :: t, a, v =>
    if a < b then (if v = 0 then (b, w) :: t else (a, v) :: (b, w) :: t)
    else if a = b then (if v = 0 then t else (a, v) :: t)
    else (b, w) :: Memory.write t a v

/-- Write a byte sequence from address `a` on. -/
def Memory.writeBytes : Memory → Nat → List Byte → Memory
  | m, _, [] => m
  | m, a, b :: bs => Memory.writeBytes (m.write a b) (a + 1) bs

/-- The bus offset of IN_BUF (R80). -/
def inBase : Nat := 0x10000

/-- The bus offset of OUT_BUF (R80). -/
def outBase : Nat := 0x20000

/-- IN[o] (R16). -/
def State.inByte (s : State) (o : Nat) : Byte := s.mem.read (inBase + o)

/-- OUT[o] (R16). -/
def State.outByte (s : State) (o : Nat) : Byte := s.mem.read (outBase + o)

/-- IN[off .. off+n). -/
def State.inBytes (s : State) (off n : Nat) : List Byte := tabulate n fun p => s.inByte (off + p)

/-- `OUT[o] <- f[o]` for every `o` in [0, len(f)) (R176, R206). -/
def State.writeOut (f : List Byte) (s : State) : State := { s with mem := s.mem.writeBytes outBase f }

/-- ENC.D[i][p] (R40). -/
def Encoder.dataByte (e : Encoder) (i p : Nat) : Byte := (e.data.getD i ⟨[], 0⟩).bytes.getD p 0

/-- ENC.DLEN[i] (R40). -/
def Encoder.dataLen (e : Encoder) (i : Nat) : Nat := (e.data.getD i ⟨[], 0⟩).len

/-- ENC.P[j][p] (R41). -/
def Encoder.parityByte (e : Encoder) (j p : Nat) : Byte := (e.parity.getD j []).getD p 0

/-- DEC.D[i][p] (R44). -/
def Decoder.dataByte (d : Decoder) (i p : Nat) : Byte := (d.data.getD i ⟨[], 0, false⟩).bytes.getD p 0

/-- DEC.DLEN[i] (R44). -/
def Decoder.dataLen (d : Decoder) (i : Nat) : Nat := (d.data.getD i ⟨[], 0, false⟩).len

/-- DEC.DRX[i] (R44). -/
def Decoder.dataRx (d : Decoder) (i : Nat) : Bool := (d.data.getD i ⟨[], 0, false⟩).received

/-- DEC.P[j][p] (R45). -/
def Decoder.parityByte (d : Decoder) (j p : Nat) : Byte := (d.parity.getD j ⟨[], 0, false⟩).bytes.getD p 0

/-- DEC.PLEN[j] (R45). -/
def Decoder.parityLen (d : Decoder) (j : Nat) : Nat := (d.parity.getD j ⟨[], 0, false⟩).len

/-- DEC.PRX[j] (R45). -/
def Decoder.parityRx (d : Decoder) (j : Nat) : Bool := (d.parity.getD j ⟨[], 0, false⟩).received

/-- Write RES0 (R32). -/
def State.withRes0 (v : Word) (s : State) : State := { s with res0 := v }

/-- Write all four result registers (R224). -/
def State.withRes (v0 v1 v2 v3 : Word) (s : State) : State := { s with res0 := v0, res1 := v1, res2 := v2, res3 := v3 }

/-- Replace the encoder engine's state. -/
def State.withEnc (e : Encoder) (s : State) : State := { s with enc := e }

/-- Replace the decoder engine's state. -/
def State.withDec (d : Decoder) (s : State) : State := { s with dec := d }

/-- Count one free value as drawn (log 6). -/
def State.countDraw (s : State) : State := { s with draws := s.draws + 1 }

/-- Set the turns to come. -/
def State.withAgenda (a : List Move) (s : State) : State := { s with agenda := a }

/-- Answer on the bus. -/
def State.respond (r : BusResponse) (s : State) : State := { s with resp := some r }

/-- STATUS.BUSY = (PENDING != none) or RESETTING (R50). -/
def State.busy (s : State) : Bool := s.pending.isSome || s.resetting

/-- Acceptance of a command word (R150). -/
def State.accept (w : Word) (s : State) : State := { s with cmd := w, pending := some w, done := false }

/-- Completion of a command (R154). -/
def State.complete (c : ResultCode) (s : State) : State := { s with result := c, done := true, pending := none }

/-- The command reaches its end: it completes with OK (R16). -/
def succeed (s : State) : Result := .next (s.complete .ok)

/-- `fail(code)` (R16, R272): the block's exception (R270). Nothing is saved and nothing redirected (R281): the command
completes with the code and makes no other change. -/
def fail (c : ResultCode) (s : State) : Result := .next (s.complete c)

/-- The host's acknowledgement, the return from a completion (R282): DONE is cleared. -/
def State.acknowledge (s : State) : State := { s with done := false }

/-- A reset starts, by the pin or by CTRL.SOFT_RESET (R300, R302): a running command is abandoned (R160). -/
def State.startReset (s : State) : State := { s with pending := none, resetting := true }

/-- The end of the reset clear (R303): every piece of state takes its value of R53. The parameters, the turns to come, the
last bus response and the draw counter are not the block's state and stay (log 14). -/
def State.finishReset (s : State) : State :=
  { State.resetOf s.cfg with resp := s.resp, agenda := s.agenda, draws := s.draws }

end Sys2Proof.Machine
end

