-- ==== Sys2Proof/Machine/Flags.lean ====
section
/-! DEFINITION. The flags and their register views: the result codes (R120), the STATUS word (R33, R38), the
write-one-to-clear bits (R34), CTRL (R37) and the interrupt line (R280). -/

namespace Sys2Proof.Machine

/-- The 8-bit code of a result (R120). -/
def ResultCode.code : ResultCode → Byte
  | .ok => 0x00
  | .errBounds => 0x01
  | .errNotReady => 0x02
  | .errNotReceived => 0x03
  | .errInsufficient => 0x04
  | .errCodec => 0x05
  | .errMagic => 0x06
  | .errCrc => 0x07
  | .errFrameLen => 0x08
  | .errIllegalCmd => 0x09

/-- A word with bit `n` set to `b`, every other bit 0. -/
def bitAt (n : Nat) (b : Bool) : Word := if b then BitVec.ofNat 32 (2 ^ n) else 0

/-- The STATUS word of its fields (R33); reserved bits are 0 (R34). -/
def statusWord (busy done errBusy encReady decDecoded : Bool) (result : Byte) : Word :=
  bitAt 0 busy ||| bitAt 1 done ||| bitAt 2 errBusy ||| bitAt 3 encReady ||| bitAt 4 decDecoded |||
    (result.setWidth 32 <<< 8)

/-- STATUS as it reads while no command and no reset clear runs (R38). -/
def State.status (s : State) : Word :=
  statusWord s.busy s.done s.errBusy s.enc.ready s.dec.decoded s.result.code

/-- STATUS as it reads while a command runs (R93): BUSY, DONE and ERR_BUSY are exact, RESULT, ENC_READY and DEC_DECODED
are the bits of the free value `free`, reserved bits are 0. -/
def State.statusRunning (s : State) (free : Word) : Word :=
  statusWord true s.done s.errBusy (free.getLsbD 3) (free.getLsbD 4) (laneOf free 1)

/-- A write to STATUS (R34): DONE and ERR_BUSY are cleared where the word has a 1; nothing else changes. -/
def State.writeStatus (w : Word) (s : State) : State :=
  { (if w.getLsbD 1 then s.acknowledge else s) with errBusy := s.errBusy && !w.getLsbD 2 }

/-- CTRL as it reads: IRQ_EN; SOFT_RESET reads 0 (R33, R37). -/
def State.ctrl (s : State) : Word := bitAt 0 s.irqEn

/-- A write to CTRL (R301): with bit 1 set it starts a reset and nothing else; otherwise it sets IRQ_EN. -/
def State.writeCtrl (w : Word) (s : State) : State :=
  if w.getLsbD 1 then s.startReset else { s with irqEn := w.getLsbD 0 }

/-- Record a write that BUSY ignored (R92). -/
def State.recordErrBusy (s : State) : State := { s with errBusy := true }

/-- The interrupt line: DONE and IRQ_EN (R280); it reads 0 during a reset clear (R302). -/
def State.irq (s : State) : Bool := s.done && s.irqEn && !s.resetting

end Sys2Proof.Machine
end

