-- ==== Sys2Proof/Machine/Bus.lean ====
section
/-! DEFINITION. The bus port (20_memory.md): the register map (R33), alignment and width checks (R84, R85, R88), the buffer
windows (R86, R87), the rules while a command runs (R92, R93) and during a reset clear (R302). -/

namespace Sys2Proof.Machine

/-- The host-visible registers (R33). -/
inductive Reg where
  | cfgKm
  | cfgCap
  | cfgMagic
  | ctrl
  | status
  | cmd
  | arg0
  | arg1
  | res0
  | res1
  | res2
  | res3
  | encMpl
  | encTotalLen
  | decMpl
  | decTotalLen
  deriving DecidableEq, Repr

/-- The byte offset of a register (R33). -/
def Reg.offset : Reg → Nat
  | .cfgKm => 0x000
  | .cfgCap => 0x004
  | .cfgMagic => 0x008
  | .ctrl => 0x00C
  | .status => 0x010
  | .cmd => 0x014
  | .arg0 => 0x018
  | .arg1 => 0x01C
  | .res0 => 0x020
  | .res1 => 0x024
  | .res2 => 0x028
  | .res3 => 0x02C
  | .encMpl => 0x030
  | .encTotalLen => 0x034
  | .decMpl => 0x038
  | .decTotalLen => 0x03C

/-- The register at a byte offset, if one is mapped there (R33, R84). -/
def regAt (off : Nat) : Option Reg :=
  match off with
  | 0x000 => some .cfgKm
  | 0x004 => some .cfgCap
  | 0x008 => some .cfgMagic
  | 0x00C => some .ctrl
  | 0x010 => some .status
  | 0x014 => some .cmd
  | 0x018 => some .arg0
  | 0x01C => some .arg1
  | 0x020 => some .res0
  | 0x024 => some .res1
  | 0x028 => some .res2
  | 0x02C => some .res3
  | 0x030 => some .encMpl
  | 0x034 => some .encTotalLen
  | 0x038 => some .decMpl
  | 0x03C => some .decTotalLen
  | _ => none

/-- The number of bytes of an access (R81). -/
def Width.bytes : Width → Nat
  | .w1 => 1
  | .w2 => 2
  | .w4 => 4

/-- Two halves as one register value, `lo` in [15:0] and `hi` in [31:16] (R33). -/
def pairWord (lo hi : Nat) : Word := BitVec.ofNat 32 (hi % 65536 * 65536 + lo % 65536)

/-- CFG_KM: K in [7:0], M in [15:8] (R33). -/
def cfgKmWord (c : Config) : Word := BitVec.ofNat 32 (c.m % 256 * 256 + c.k % 256)

/-- What a register holds (R33, R38): the value it reads as while neither a command nor a reset clear runs. -/
def State.regValue (s : State) : Reg → Word
  | .cfgKm => cfgKmWord s.cfg
  | .cfgCap => pairWord s.cfg.cap s.cfg.mtu
  | .cfgMagic => pairWord s.cfg.parityMagic.toNat s.cfg.crcInit.toNat
  | .ctrl => s.ctrl
  | .status => s.status
  | .cmd => s.cmd
  | .arg0 => s.arg0
  | .arg1 => s.arg1
  | .res0 => s.res0
  | .res1 => s.res1
  | .res2 => s.res2
  | .res3 => s.res3
  | .encMpl => pairWord s.enc.mpl 0
  | .encTotalLen => s.enc.totalLen
  | .decMpl => pairWord s.dec.mpl 0
  | .decTotalLen => s.dec.totalLen

/-- A register read while a command runs (R93): exact, or the free value. -/
def State.regRunning (s : State) (free : Word) : Reg → Word
  | .cfgKm => s.regValue .cfgKm
  | .cfgCap => s.regValue .cfgCap
  | .cfgMagic => s.regValue .cfgMagic
  | .ctrl => s.regValue .ctrl
  | .status => s.statusRunning free
  | .cmd => s.regValue .cmd
  | .arg0 => s.regValue .arg0
  | .arg1 => s.regValue .arg1
  | .res0 => free
  | .res1 => free
  | .res2 => free
  | .res3 => free
  | .encMpl => free
  | .encTotalLen => free
  | .decMpl => free
  | .decTotalLen => free

/-- A register read during a reset clear (R302): the parameters are exact, STATUS has BUSY set and is free otherwise, every
other register is free. -/
def State.regResetting (s : State) (free : Word) : Reg → Word
  | .cfgKm => s.regValue .cfgKm
  | .cfgCap => s.regValue .cfgCap
  | .cfgMagic => s.regValue .cfgMagic
  | .ctrl => free
  | .status => free ||| 1
  | .cmd => free
  | .arg0 => free
  | .arg1 => free
  | .res0 => free
  | .res1 => free
  | .res2 => free
  | .res3 => free
  | .encMpl => free
  | .encTotalLen => free
  | .decMpl => free
  | .decTotalLen => free

/-- A register read (R33, R93, R302). -/
def State.readReg (s : State) (free : Word) (r : Reg) : Word :=
  if s.resetting then s.regResetting free r
  else if s.pending.isSome then s.regRunning free r
  else s.regValue r

/-- The byte a read of a buffer window or of the unmapped region returns at bus offset `a`, in lane `k` (R86, R87, R93,
R302). -/
def State.readLane (s : State) (free : Word) (a k : Nat) : Byte :=
  if s.resetting then laneOf free k
  else if a < inBase then 0
  else if a < outBase then (if a - inBase < s.cfg.frameMax then s.mem.read a else 0)
  else if a - outBase < s.cfg.frameMax then (if s.pending.isSome then laneOf free k else s.mem.read a)
  else 0

/-- The data of a read that is no bus error, at bus offset `a` (R33, R84, R86). -/
def State.readData (s : State) (free : Word) (a : Nat) (w : Width) : Word :=
  if a < inBase then
    match regAt a with
    | some r => s.readReg free r
    | none => if s.resetting then free else 0
  else wordOfLanes (tabulate w.bytes fun k => s.readLane free (a + k) k)

/-- Whether an access at bus offset `a` is a bus error: misaligned, or narrow in the register region (R84, R88). -/
def busError (a : Nat) (w : Width) : Bool :=
  decide (a % w.bytes ≠ 0) || (decide (a < inBase) && decide (w ≠ .w4))

/-- A host read at bus offset `a` (R84, R85, R91): it changes nothing but the response, and counts a free value as drawn
while BUSY is 1. -/
def busRead (a : Nat) (w : Width) (s : State) : State :=
  if busError a w then s.respond ⟨true, 0⟩
  else
    let s' := s.respond ⟨false, s.readData (Config.freeWord s.draws) a w⟩
    if s.busy then s'.countDraw else s'

/-- A register write outside a reset clear (R34, R36, R37, R92, R150). -/
def State.writeReg (w : Word) (s : State) : Reg → State
  | .cfgKm => s
  | .cfgCap => s
  | .cfgMagic => s
  | .ctrl => s.writeCtrl w
  | .status => s.writeStatus w
  | .cmd => if s.busy then s.recordErrBusy else s.accept w
  | .arg0 => if s.busy then s.recordErrBusy else { s with arg0 := w }
  | .arg1 => if s.busy then s.recordErrBusy else { s with arg1 := w }
  | .res0 => s
  | .res1 => s
  | .res2 => s
  | .res3 => s
  | .encMpl => s
  | .encTotalLen => s
  | .decMpl => s
  | .decTotalLen => s

/-- Store `n` bytes of a word at bus offset `a`, little-endian (R82); a byte outside IN_BUF is not stored (R86). -/
def State.storeIn (w : Word) (a n : Nat) (s : State) : State :=
  { s with mem := s.mem.writeBytes a (tabulate (min n (inBase + s.cfg.frameMax - a)) fun k => laneOf w k) }

/-- A host write that is no bus error, at bus offset `a`, outside a reset clear (R84, R86, R87, R92). -/
def State.writeData (w : Word) (a n : Nat) (s : State) : State :=
  if a < inBase then
    match regAt a with
    | some r => s.writeReg w r
    | none => s
  else if a < outBase then (if s.busy then s.recordErrBusy else s.storeIn w a n)
  else s

/-- A host write at bus offset `a` (R84, R85); during a reset clear every write is ignored (R302). -/
def busWrite (a : Nat) (wd : Width) (w : Word) (s : State) : State :=
  if busError a wd then s.respond ⟨true, 0⟩
  else (if s.resetting then s else s.writeData w a wd.bytes).respond ⟨false, 0⟩

/-- The bus offset of a platform address, if it lies in the block (R80, R99). -/
def busOffset (c : Config) (addr : Nat) : Option Nat :=
  if c.base ≤ addr ∧ addr < c.base + 0x40000 then some (addr - c.base) else none

/-- A host access. One outside the block's 256 KiB does not reach it (log 9). -/
def hostAccess (a : Access) (s : State) : State :=
  match a with
  | .read addr w =>
    match busOffset s.cfg addr with
    | some off => busRead off w s
    | none => s
  | .write addr w data =>
    match busOffset s.cfg addr with
    | some off => busWrite off w data s
    | none => s

/-- One round of the host's polling loop (`wait`, R117): read STATUS; while BUSY is 1 the engine takes a turn and the host
polls again (log 12). -/
def pollStatus (rest : List Move) (s : State) : State :=
  (busRead Reg.status.offset .w4 s).withAgenda (if s.busy then .engine :: .wait :: rest else rest)

/-- The turn of the host or of the reset pin (R18, R300), with the turns after it. -/
def takeTurn (t : Move) (rest : List Move) (s : State) : State :=
  match t with
  | .host a => hostAccess a (s.withAgenda rest)
  | .wait => pollStatus rest s
  | .resetPin => (s.withAgenda rest).startReset
  | .engine => s.withAgenda rest

end Sys2Proof.Machine
end

