-- ==== Sys2Proof/Machine/Operands.lean ====
section
/-! DEFINITION. The operands of a command (R112, R113): IDX comes with the instruction; ARG0 and ARG1 are read as
naturals when the command executes (R152); and the payload form shared by the three ADD commands (R172, R192, R194). -/

namespace Sys2Proof.Machine

/-- `a0 = zext(ARG0)` (R112). -/
def State.a0 (s : State) : Nat := s.arg0.toNat

/-- `a1 = zext(ARG1)` (R112). -/
def State.a1 (s : State) : Nat := s.arg1.toNat

/-- The CAP bytes of a slot that takes the payload IN[off .. off+len): the payload, then zeros (R172, R192, R194). -/
def State.slotImage (s : State) (len off : Nat) : List Byte :=
  tabulate s.cfg.cap fun p => if p < len then s.inByte (off + p) else 0

/-- The payload form of the ADD commands: slot index, length and IN_BUF range are checked in that order (R271, R274), and
`store` makes the state that takes the slot image and the length. Naturals do not wrap (R14). -/
def addPayload (slots idx : Nat) (store : List Byte → Nat → State) (s : State) : Result :=
  if slots ≤ idx then fail .errBounds s
  else if s.cfg.cap < s.a0 then fail .errBounds s
  else if s.cfg.frameMax < s.a1 + s.a0 then fail .errBounds s
  else succeed (store (s.slotImage s.a0 s.a1) s.a0)

/-- Whether a command reads ARG0 (R113). -/
def readsArg0 : Instr → Bool
  | .nop _ => false
  | .encBegin _ => true
  | .encAddData _ => true
  | .encComputeParity _ => false
  | .encGetParity _ => false
  | .decBegin _ => true
  | .decAddData _ => true
  | .decAddParity _ => true
  | .decCountMissing _ => false
  | .decCountParity _ => false
  | .decCanDecode _ => false
  | .decDecode _ => false
  | .decGetData _ => false
  | .frameParse _ => true

/-- Whether a command reads ARG1 (R113). -/
def readsArg1 : Instr → Bool
  | .nop _ => false
  | .encBegin _ => false
  | .encAddData _ => true
  | .encComputeParity _ => false
  | .encGetParity _ => false
  | .decBegin _ => true
  | .decAddData _ => true
  | .decAddParity _ => true
  | .decCountMissing _ => false
  | .decCountParity _ => false
  | .decCanDecode _ => false
  | .decDecode _ => false
  | .decGetData _ => false
  | .frameParse _ => true

end Sys2Proof.Machine
end

