-- ==== Sys2Proof/Machine/Decoder.lean ====
section
/-! DEFINITION. The decoder commands (42_decoder.md): DEC_BEGIN, DEC_ADD_DATA, DEC_ADD_PARITY, DEC_COUNT_MISSING,
DEC_COUNT_PARITY, DEC_CAN_DECODE, DEC_DECODE, DEC_GET_DATA. -/

namespace Sys2Proof.Machine

/-- A slot of the decoder that holds nothing and is not received (R190). -/
def emptyDecSlot (c : Config) : DecSlot := ⟨tabulate c.cap fun _ => 0, 0, false⟩

/-- The decoder as DEC_BEGIN leaves it (R190). -/
def beginDecoder (c : Config) (totalLen : Word) (mpl : Nat) : Decoder where
  data := tabulate c.k fun _ => emptyDecSlot c
  parity := tabulate c.m fun _ => emptyDecSlot c
  mpl := mpl
  totalLen := totalLen
  decoded := false

/-- DEC_BEGIN (R190): an estimate over CAP fails. -/
def execDecBegin (_idx : Nat) (s : State) : Result :=
  if s.cfg.cap < s.a1 then fail .errBounds s
  else succeed (s.withDec (beginDecoder s.cfg s.arg0 s.a1))

/-- Store a payload in data slot `seq`, mark it received and raise MPL (R192). -/
def Decoder.addData (d : Decoder) (seq : Nat) (bytes : List Byte) (len : Nat) : Decoder :=
  { d with data := d.data.set seq ⟨bytes, len, true⟩, mpl := max d.mpl len }

/-- Store a payload in parity slot `j`, mark it received and raise MPL (R194). -/
def Decoder.addParity (d : Decoder) (j : Nat) (bytes : List Byte) (len : Nat) : Decoder :=
  { d with parity := d.parity.set j ⟨bytes, len, true⟩, mpl := max d.mpl len }

/-- DEC_ADD_DATA (R192). -/
def execDecAddData (idx : Nat) (s : State) : Result :=
  addPayload s.cfg.k idx (fun bytes len => s.withDec (s.dec.addData idx bytes len)) s

/-- DEC_ADD_PARITY (R194). -/
def execDecAddParity (idx : Nat) (s : State) : Result :=
  addPayload s.cfg.m idx (fun bytes len => s.withDec (s.dec.addParity idx bytes len)) s

/-- The number of data slots not received (R196). -/
def Decoder.missing (c : Config) (d : Decoder) : Nat := (List.range c.k).countP fun i => !d.dataRx i

/-- The number of parity slots received (R197). -/
def Decoder.parityCount (c : Config) (d : Decoder) : Nat := (List.range c.m).countP fun j => d.parityRx j

/-- `canDecode`: (K - missing) + par >= K (R198). -/
def Decoder.canDecode (c : Config) (d : Decoder) : Bool := decide (c.k ≤ (c.k - d.missing c) + d.parityCount c)

/-- DEC_COUNT_MISSING (R196). -/
def execDecCountMissing (_idx : Nat) (s : State) : Result :=
  succeed (s.withRes0 (BitVec.ofNat 32 (s.dec.missing s.cfg)))

/-- DEC_COUNT_PARITY (R197). -/
def execDecCountParity (_idx : Nat) (s : State) : Result :=
  succeed (s.withRes0 (BitVec.ofNat 32 (s.dec.parityCount s.cfg)))

/-- DEC_CAN_DECODE (R198). -/
def execDecCanDecode (_idx : Nat) (s : State) : Result :=
  succeed (s.withRes0 (if s.dec.canDecode s.cfg then 1 else 0))

/-- The erasure set E: the positions of the slots not received, data slot `i` at `i` and parity slot `j` at `K + j`
(R200, R201). -/
def Decoder.erasures (c : Config) (d : Decoder) : List Nat :=
  ((List.range c.k).filter fun i => !d.dataRx i) ++
    ((List.range c.m).filter fun j => !d.parityRx j).map fun j => c.k + j

/-- Column `p` as received: 0 at every erased position (R200). -/
def Decoder.column (c : Config) (d : Decoder) (p : Nat) : List Byte :=
  (tabulate c.k fun i => if d.dataRx i then d.dataByte i p else 0) ++
    tabulate c.m fun j => if d.parityRx j then d.parityByte j p else 0

/-- RS_DEC of columns 0 to MPL - 1, with the same erasure set for each (R200, R201). -/
def Decoder.decodeColumns (c : Config) (d : Decoder) : CodecResult (List (List Byte)) :=
  collect (tabulate d.mpl fun p => rsDec c (d.column c p) (d.erasures c))

/-- Commit the staged data: byte `p < MPL` of slot `i` becomes `new i p`; every slot is received, a recovered one with
length MPL, and DECODED is set (R200). -/
def Decoder.commitData (c : Config) (d : Decoder) (new : Nat → Nat → Byte) : Decoder :=
  { d with
    data := tabulate c.k fun i =>
      ⟨tabulate c.cap fun p => if p < d.mpl then new i p else d.dataByte i p,
       if d.dataRx i then d.dataLen i else d.mpl, true⟩
    decoded := true }

/-- The effect of a DEC_DECODE that completes with OK (R200): RES0 is the number of slots recovered. -/
def State.decodeTo (new : Nat → Nat → Byte) (s : State) : State :=
  (s.withDec (s.dec.commitData s.cfg new)).withRes0 (BitVec.ofNat 32 (s.dec.missing s.cfg))

/-- DEC_DECODE when the known symbols of some column fit no codeword (R203): the reference decoder fails (R249); in
general it is free whether the command fails with no change or succeeds with any data bytes (log 5). -/
def decodeInconsistent (s : State) : Result :=
  match s.cfg.decoder with
  | .reference => fail .errCodec s
  | .lawful =>
    if Config.freeDecodeFails s.draws then fail .errCodec s.countDraw
    else succeed (s.countDraw.decodeTo (Config.freeDataByte s.draws))

/-- DEC_DECODE (R200). -/
def execDecDecode (_idx : Nat) (s : State) : Result :=
  if s.dec.canDecode s.cfg = false then fail .errInsufficient s
  else
    match s.dec.decodeColumns s.cfg with
    | .failure => fail .errCodec s
    | .inconsistent => decodeInconsistent s
    | .ok cws => succeed (s.decodeTo fun i p => (cws.getD p []).getD i 0)

/-- The bytes DEC_GET_DATA returns: the first MPL bytes of the slot (R206). -/
def Decoder.dataPayload (d : Decoder) (i : Nat) : List Byte := tabulate d.mpl fun p => d.dataByte i p

/-- DEC_GET_DATA (R206): the index is checked before the flag. -/
def execDecGetData (idx : Nat) (s : State) : Result :=
  if s.cfg.k ≤ idx then fail .errBounds s
  else if s.dec.dataRx idx = false then fail .errNotReceived s
  else succeed ((s.writeOut (s.dec.dataPayload idx)).withRes0 (BitVec.ofNat 32 s.dec.mpl))

end Sys2Proof.Machine
end

