-- ==== Sys2Proof/Machine/Checksum.lean ====
section
/-! DEFINITION. The frame checksum CRC16 (R250): polynomial 0x1021, most significant bit first, no reflection, no final
XOR. -/

namespace Sys2Proof.Machine

/-- One shift of the checksum register (R250). -/
def crcShift (c : Half) : Half := if c.msb then (c <<< 1) ^^^ 0x1021 else c <<< 1

/-- `n` shifts of the checksum register. -/
def crcShifts : Nat → Half → Half
  | 0, c => c
  | n + 1, c => crcShifts n (crcShift c)

/-- Take in one byte (R250). -/
def crcByte (c : Half) (b : Byte) : Half := crcShifts 8 (c ^^^ (b.setWidth 16 <<< 8))

/-- CRC16 of a byte sequence from the initial value `init` (R250). -/
def crc16 (init : Half) (s : List Byte) : Half := s.foldl crcByte init

end Sys2Proof.Machine
end

