-- ==== Sys2Proof/Machine/Frame.lean ====
section
/-! DEFINITION. The parity-frame codec: the builder (R130, R220) and FRAME_PARSE (R224, R225). -/

namespace Sys2Proof.Machine

/-- The frame without its checksum: header and payload (R130, R220). -/
def frameBody (c : Config) (totalLen : Word) (idx : Nat) (payload : List Byte) : List Byte :=
  be16 c.parityMagic ++ be32 totalLen ++ be16 (BitVec.ofNat 16 idx) ++ be16 (BitVec.ofNat 16 c.m) ++
    be16 (BitVec.ofNat 16 c.k) ++ payload

/-- Append the checksum of everything before it, high byte first (R221). -/
def sealFrame (c : Config) (body : List Byte) : List Byte := body ++ be16 (crc16 c.crcInit body)

/-- BuildFrame (R220). -/
def buildFrame (c : Config) (totalLen : Word) (idx : Nat) (payload : List Byte) : List Byte :=
  sealFrame c (frameBody c totalLen idx payload)

/-- Whether the last two bytes of a candidate are the checksum of the rest (R224). -/
def checksumOk (c : Config) (f : List Byte) : Bool :=
  decide (rdBe16 f (f.length - 2) = (crc16 c.crcInit (f.take (f.length - 2))).toNat)

/-- FRAME_PARSE (R224): bounds, length, checksum and magic are checked in that order (R225). -/
def execFrameParse (_idx : Nat) (s : State) : Result :=
  let n := s.a0
  let off := s.a1
  if s.cfg.frameMax < off + n then fail .errBounds s
  else if n < overhead then fail .errFrameLen s
  else
    let f := s.inBytes off n
    if checksumOk s.cfg f = false then fail .errCrc s
    else if rdBe16 f 0 ≠ s.cfg.parityMagic.toNat then fail .errMagic s
    else
      succeed (s.withRes (BitVec.ofNat 32 (rdBe32 f 2))
        (BitVec.ofNat 32 (rdBe16 f 8 * 65536 + rdBe16 f 6))
        (BitVec.ofNat 32 (rdBe16 f 10))
        (BitVec.ofNat 32 (n - overhead)))

end Sys2Proof.Machine
end

