-- ==== Sys2Proof/Machine/Encoder.lean ====
section
/-! DEFINITION. The encoder commands (41_encoder.md): ENC_BEGIN, ENC_ADD_DATA, ENC_COMPUTE_PARITY, ENC_GET_PARITY. -/

namespace Sys2Proof.Machine

/-- A data slot of the encoder that holds nothing (R170, R173). -/
def emptyEncSlot (c : Config) : EncSlot := ⟨tabulate c.cap fun _ => 0, 0⟩

/-- The encoder as ENC_BEGIN leaves it (R170). -/
def beginEncoder (c : Config) (totalLen : Word) : Encoder where
  data := tabulate c.k fun _ => emptyEncSlot c
  parity := tabulate c.m fun _ => tabulate c.cap fun _ => 0
  mpl := 0
  totalLen := totalLen
  ready := false

/-- ENC_BEGIN (R170). -/
def execEncBegin (_idx : Nat) (s : State) : Result := succeed (s.withEnc (beginEncoder s.cfg s.arg0))

/-- Store a payload in data slot `seq`, raise MPL and clear READY (R172). -/
def Encoder.addData (e : Encoder) (seq : Nat) (bytes : List Byte) (len : Nat) : Encoder :=
  { e with data := e.data.set seq ⟨bytes, len⟩, mpl := max e.mpl len, ready := false }

/-- ENC_ADD_DATA (R172). -/
def execEncAddData (idx : Nat) (s : State) : Result :=
  addPayload s.cfg.k idx (fun bytes len => s.withEnc (s.enc.addData idx bytes len)) s

/-- Column `p` of the data slots: byte `p` of each slot, 0 beyond the slot's own length (R174). -/
def Encoder.column (c : Config) (e : Encoder) (p : Nat) : List Byte :=
  tabulate c.k fun i => if p < e.dataLen i then e.dataByte i p else 0

/-- RS_ENC of columns 0 to MPL - 1, all or none (R174). -/
def Encoder.codewords (c : Config) (e : Encoder) : Option (List (List Byte)) :=
  allSome (tabulate e.mpl fun p => rsEnc c (e.column c p))

/-- Commit the staged parity: byte `p < MPL` of slot `j` becomes symbol `K + j` of codeword `p` (R174). -/
def Encoder.commitParity (c : Config) (e : Encoder) (cws : List (List Byte)) : Encoder :=
  { e with
    parity := tabulate c.m fun j => tabulate c.cap fun p =>
      if p < e.mpl then (cws.getD p []).getD (c.k + j) 0 else e.parityByte j p
    ready := true }

/-- ENC_COMPUTE_PARITY (R174): ERR_CODEC if the codec fails on any column, with nothing changed. -/
def execEncComputeParity (_idx : Nat) (s : State) : Result :=
  match s.enc.codewords s.cfg with
  | none => fail .errCodec s
  | some cws => succeed (s.withEnc (s.enc.commitParity s.cfg cws))

/-- The payload of parity slot `j`: its first MPL bytes (R176). -/
def Encoder.parityPayload (e : Encoder) (j : Nat) : List Byte := tabulate e.mpl fun p => e.parityByte j p

/-- ENC_GET_PARITY (R176): READY is checked before the index. -/
def execEncGetParity (idx : Nat) (s : State) : Result :=
  if s.enc.ready = false then fail .errNotReady s
  else if s.cfg.m ≤ idx then fail .errBounds s
  else
    succeed ((s.writeOut (buildFrame s.cfg s.enc.totalLen idx (s.enc.parityPayload idx))).withRes0
      (BitVec.ofNat 32 (overhead + s.enc.mpl)))

end Sys2Proof.Machine
end

