-- ==== Sys2Proof/Machine/Protocol.lean ====
section
/-! DEFINITION. The two commands of no family: NOP (R157) and an illegal word (R158). -/

namespace Sys2Proof.Machine

/-- NOP (R157): it completes with OK and changes nothing else. -/
def execNop (_idx : Nat) (s : State) : Result := succeed s

/-- An illegal word (R158): it completes with ERR_ILLEGAL_CMD and changes nothing else. -/
def execIllegal (s : State) : Result := fail .errIllegalCmd s

end Sys2Proof.Machine
end

