-- ==== Sys2Proof/Machine/Dispatch.lean ====
section
/-! DEFINITION. The meaning of every command: one arm per constructor (R152). -/

namespace Sys2Proof.Machine

def exec (i : Instr) (s : State) : Host.Outcome State Fault Refusal :=
  match i with
  | .nop idx => Sys2Proof.Machine.execNop idx s
  | .encBegin idx => Sys2Proof.Machine.execEncBegin idx s
  | .encAddData idx => Sys2Proof.Machine.execEncAddData idx s
  | .encComputeParity idx => Sys2Proof.Machine.execEncComputeParity idx s
  | .encGetParity idx => Sys2Proof.Machine.execEncGetParity idx s
  | .decBegin idx => Sys2Proof.Machine.execDecBegin idx s
  | .decAddData idx => Sys2Proof.Machine.execDecAddData idx s
  | .decAddParity idx => Sys2Proof.Machine.execDecAddParity idx s
  | .decCountMissing idx => Sys2Proof.Machine.execDecCountMissing idx s
  | .decCountParity idx => Sys2Proof.Machine.execDecCountParity idx s
  | .decCanDecode idx => Sys2Proof.Machine.execDecCanDecode idx s
  | .decDecode idx => Sys2Proof.Machine.execDecDecode idx s
  | .decGetData idx => Sys2Proof.Machine.execDecGetData idx s
  | .frameParse idx => Sys2Proof.Machine.execFrameParse idx s

end Sys2Proof.Machine
end

