-- ==== Sys2Proof/Machine/Step.lean ====
section
/-! DEFINITION. One step of the machine: the next agent takes its turn (R18). -/

namespace Sys2Proof.Machine

/-- The engine's step (R152, R303): end a reset clear, or execute and complete the pending command; with neither, nothing
happens (R30). -/
def engineStep (s : State) : Host.Outcome State Fault Refusal :=
  if s.resetting then .next s.finishReset
  else
    match s.pending with
    | none => .next s
    | some w =>
      match decodeWord w with
      | .ok i => exec i s
      | .error _ => execIllegal s

/-- One step. A configuration that breaks R7, R8, R9 or R12 has no hardware and is refused. With no turn listed the engine
takes one, so that it is never starved (R156, R303). -/
def step (s : State) : Host.Outcome State Fault Refusal :=
  if s.cfg.wf then
    match s.agenda with
    | [] => engineStep s
    | .engine :: rest => engineStep (s.withAgenda rest)
    | t :: rest => .next (takeTurn t rest s)
  else .refused .badConfiguration

/-- `s` with the command word `w` accepted (R150) and the engine next to take a turn, so that the very next step executes
it. This stands for the host's write to CMD (log 13). -/
def State.withFetchWord (s : State) (nbits w : Nat) : State :=
  { s.accept (BitVec.ofNat 32 (w % 2 ^ nbits)) with resetting := false, agenda := .engine :: s.agenda }

end Sys2Proof.Machine
end

