-- ==== Sys2Proof/Machine/HostProgram.lean ====
section
/-! DEFINITION. The host notation of R116 and R117 as functions that make turns: `write`, `read`, `wrbuf`, `rdbuf`, a
command line, `wait`, `do` and `ack`. (`expect` is a test's assertion and no bus operation.) -/

namespace Sys2Proof.Machine

/-- `write REG, v` (R116). -/
def hostWrite (c : Config) (r : Reg) (v : Word) : Move := .host (.write (c.base + r.offset) .w4 v)

/-- `read REG` (R116). -/
def hostRead (c : Config) (r : Reg) : Move := .host (.read (c.base + r.offset) .w4)

/-- `wrbuf o, bytes` (R116): 4-byte writes, the last group padded with 0. -/
def hostWriteBuf (c : Config) (o : Nat) (bytes : List Byte) : List Move :=
  tabulate ((bytes.length + 3) / 4) fun t =>
    .host (.write (c.base + inBase + o + 4 * t) .w4 (wordOfLanes (tabulate 4 fun k => bytes.getD (4 * t + k) 0)))

/-- `rdbuf o, n` (R116): 4-byte reads. -/
def hostReadBuf (c : Config) (o n : Nat) : List Move :=
  tabulate ((n + 3) / 4) fun t => .host (.read (c.base + outBase + o + 4 * t) .w4)

/-- A command line (R116). -/
def hostCommand (c : Config) (i : Instr) : Move := hostWrite c .cmd (encode i)

/-- `ack` (R117): clear DONE. -/
def hostAck (c : Config) : Move := hostWrite c .status 2

/-- `do MNEMONIC idx, a0, a1` (R117): the operands the command reads, the command, and the poll. -/
def hostDo (c : Config) (i : Instr) (v0 v1 : Word) : List Move :=
  (if readsArg0 i then [hostWrite c .arg0 v0] else []) ++ (if readsArg1 i then [hostWrite c .arg1 v1] else []) ++
    [hostCommand c i, .wait]

end Sys2Proof.Machine
end

