-- ==== Sys2Proof/Safety.lean ====
section
/-! DEFINITION. The terms claims are stated in: the invariants of R43 and R47, the laws of the code (R242), what it means
that received symbols fit a codeword (R202, R203), and the result codes of each command (R271). -/

namespace Sys2Proof.Machine

/-- The words with opcode `opc`, RSV = 0 and any IDX decode to this command (R110, R114): its rule's 'Encoding' line. -/
def EncodedBy (opc : Nat) (command : Nat → Instr) : Prop :=
  ∀ n < 65536, decodeWord (BitVec.ofNat 32 (n * 65536 + opc)) = .ok (command n)

/-- The arrays of the encoder have the sizes of R40 and R41. -/
def Encoder.shaped (c : Config) (e : Encoder) : Bool :=
  decide (e.data.length = c.k) && e.data.all (fun x => decide (x.bytes.length = c.cap)) &&
  decide (e.parity.length = c.m) && e.parity.all (fun x => decide (x.length = c.cap))

/-- The arrays of the decoder have the sizes of R44 and R45. -/
def Decoder.shaped (c : Config) (d : Decoder) : Bool :=
  decide (d.data.length = c.k) && d.data.all (fun x => decide (x.bytes.length = c.cap)) &&
  decide (d.parity.length = c.m) && d.parity.all (fun x => decide (x.bytes.length = c.cap))

/-- The encoder's invariants (R43). -/
structure Encoder.Inv (c : Config) (e : Encoder) : Prop where
  shape : e.shaped c = true
  lenLeMpl : ∀ i, e.dataLen i ≤ e.mpl
  mplLeCap : e.mpl ≤ c.cap
  dataPad : ∀ i p, e.dataLen i ≤ p → e.dataByte i p = 0
  parityPad : ∀ j p, e.mpl ≤ p → e.parityByte j p = 0
  parityCoded : e.ready = true → ∀ j < c.m, ∀ p < e.mpl,
    e.parityByte j p = (codewordOf c (e.column c p)).getD (c.k + j) 0

/-- The decoder's invariants (R47), but for the pad of a data slot beyond its own length (`Decoder.Padded`), which a
DEC_DECODE on inconsistent input need not keep (R203, log 5). -/
structure Decoder.Inv (c : Config) (d : Decoder) : Prop where
  shape : d.shaped c = true
  dataLenLeMpl : ∀ i, d.dataLen i ≤ d.mpl
  parityLenLeMpl : ∀ j, d.parityLen j ≤ d.mpl
  mplLeCap : d.mpl ≤ c.cap
  dataPad : ∀ i p, d.mpl ≤ p → d.dataByte i p = 0
  parityPad : ∀ j p, d.parityLen j ≤ p → d.parityByte j p = 0
  dataFresh : ∀ i, d.dataRx i = false → d.dataLen i = 0 ∧ ∀ p, d.dataByte i p = 0
  parityFresh : ∀ j, d.parityRx j = false → d.parityLen j = 0 ∧ ∀ p, d.parityByte j p = 0

/-- A data slot is 0 beyond its stored length (R47). -/
def Decoder.Padded (d : Decoder) : Prop := ∀ i p, d.dataLen i ≤ p → d.dataByte i p = 0

/-- The bus offset lies in IN_BUF or in OUT_BUF (R86). -/
def buffered (c : Config) (a : Nat) : Bool :=
  (decide (inBase ≤ a) && decide (a < inBase + c.frameMax)) || (decide (outBase ≤ a) && decide (a < outBase + c.frameMax))

/-- The machine's invariant: the configuration exists (R7 to R9, R12), memory keeps its canonical form and lists buffer bytes
only (R86), the engines keep R43 and R47, DONE is 0 while a command runs (R93, R150), and no command runs during a reset
clear (R302). -/
structure State.Inv (s : State) : Prop where
  cfgOk : s.cfg.wf = true
  memWf : s.mem.wf
  memMapped : ∀ x ∈ s.mem, buffered s.cfg x.1 = true
  encOk : s.enc.Inv s.cfg
  decOk : s.dec.Inv s.cfg
  runningNotDone : s.pending ≠ none → s.done = false
  resettingNotRunning : s.resetting = true → s.pending = none

/-- The number of positions below `n` at which two sequences differ. -/
def distance (n : Nat) (a b : List Byte) : Nat := (List.range n).countP fun t => decide (a.getD t 0 ≠ b.getD t 0)

/-- The minimum distance of the code is M + 1 (R242). -/
def codeDistance (c : Config) : Prop :=
  ∀ a b : List Byte, a.length = c.k → b.length = c.k → a ≠ b →
    c.m + 1 ≤ distance (c.k + c.m) (codewordOf c a) (codewordOf c b)

/-- The symbols of `r` at the positions not in `E` are those of the codeword of `msg`. -/
def FitsMessage (c : Config) (r : List Byte) (E : List Nat) (msg : List Byte) : Prop :=
  msg.length = c.k ∧ ∀ t < c.k + c.m, t ∉ E → (codewordOf c msg).getD t 0 = r.getD t 0

/-- Every column of the decoder fits some codeword: the received symbols are consistent (R202). -/
def Decoder.Consistent (c : Config) (d : Decoder) : Prop :=
  ∀ p < d.mpl, ∃ msg, FitsMessage c (d.column c p) (d.erasures c) msg

/-- The value at `x` of the polynomial with these coefficients, highest power first (R248). -/
def evalPoly (x : Byte) (w : List Byte) : Byte := w.foldl (fun acc b => gfMul acc x ^^^ b) 0

/-- The result codes a command can produce (R271), ENC_COMPUTE_PARITY's unreachable ERR_CODEC left out. -/
def resultsOf : Instr → List ResultCode
  | .nop _ => [.ok]
  | .encBegin _ => [.ok]
  | .encAddData _ => [.errBounds, .ok]
  | .encComputeParity _ => [.ok]
  | .encGetParity _ => [.errNotReady, .errBounds, .ok]
  | .decBegin _ => [.errBounds, .ok]
  | .decAddData _ => [.errBounds, .ok]
  | .decAddParity _ => [.errBounds, .ok]
  | .decCountMissing _ => [.ok]
  | .decCountParity _ => [.ok]
  | .decCanDecode _ => [.ok]
  | .decDecode _ => [.errInsufficient, .errCodec, .ok]
  | .decGetData _ => [.errBounds, .errNotReceived, .ok]
  | .frameParse _ => [.errBounds, .errFrameLen, .errCrc, .errMagic, .ok]

end Sys2Proof.Machine
end

