-- ==== Sys2Proof/Certificates/Slice0/Obligations.lean ====
section
/-! DEFINITION. The statements for the provers, from the numbered rules of spec/, in the terms of Sys2Proof/Safety.lean.
A completion is written `{ s with …, result := c, done := true, pending := none }` (R154): the record equation says that
every field not named keeps its value. -/

open Sys2Proof Sys2Proof.Machine

/-! ### Encodings -/

/-- R110, R114: decoding an encoded well-formed command gives it back, from the word and from the bytes. -/
def Obligations.DecodeOfEncodeIsTheCommand : Prop :=
  ∀ i : Instr, i.wf = true →
    decodeWord (encode i) = .ok i ∧ ∀ rest : List Byte, decodeBytes (encodeBytes i ++ rest) = .ok (i, rest)

/-- R110, R114: a word that decodes is the encoding of a well-formed command, so no bit of a word is dropped. -/
def Obligations.EncodeOfDecodeIsTheWord : Prop :=
  ∀ (w : Word) (i : Instr), decodeWord w = .ok i → i.wf = true ∧ encode i = w

/-- R114: words written out from the opcode map, one or two of each family. -/
def Obligations.SampleWordsDecode : Prop :=
  decodeWord 0x00000000 = .ok (.nop 0) ∧ decodeWord 0x00010002 = .ok (.encAddData 1) ∧
  decodeWord 0xFFFF0004 = .ok (.encGetParity 65535) ∧ decodeWord 0x00000010 = .ok (.decBegin 0) ∧
  decodeWord 0x00020017 = .ok (.decGetData 2) ∧ decodeWord 0x00000020 = .ok (.frameParse 0)

/-! ### The life of a command -/

/-- R150: a word written to CMD while no command and no reset clear runs is accepted, and nothing else changes; while a
command runs the write is ignored and recorded in ERR_BUSY. -/
def Obligations.CommandWriteIsAcceptedOrRecorded : Prop :=
  ∀ (s : State) (w : Word) (rest : List Move), s.cfg.wf = true → s.resetting = false →
    s.agenda = hostWrite s.cfg .cmd w :: rest →
    (s.pending = none → step s = .next { s with agenda := rest, cmd := w, pending := some w, done := false,
                                                resp := some ⟨false, 0⟩ }) ∧
    (s.pending ≠ none → step s = .next { s with agenda := rest, errBusy := true, resp := some ⟨false, 0⟩ })

/-- R152: when the engine takes a turn and the pending word decodes to `i`, the step is `exec i`, with that turn taken off
the agenda (an empty agenda gives the turn to the engine). -/
def Obligations.StepExecutesTheDecodedCommand : Prop :=
  ∀ (s : State) (w : Word) (i : Instr) (rest : List Move), s.cfg.wf = true → s.resetting = false →
    s.pending = some w → decodeWord w = .ok i →
    (s.agenda = [] → step s = exec i s) ∧ (s.agenda = .engine :: rest → step s = exec i { s with agenda := rest })

/-- R115, R158: an illegal word is accepted like any other (BUSY set, DONE cleared, CMD written) and then completes with
ERR_ILLEGAL_CMD, and nothing else changes. -/
def Obligations.IllegalWordCompletesWithErrIllegalCmd : Prop :=
  ∀ (s : State) (w : Word) (rest : List Move), s.cfg.wf = true → s.pending = none → s.resetting = false →
    (w.toNat / 256 % 256 ≠ 0 ∨
      w.toNat % 256 ∉ [0x00, 0x01, 0x02, 0x03, 0x04, 0x10, 0x11, 0x12, 0x13, 0x14, 0x15, 0x16, 0x17, 0x20]) →
    s.agenda = hostWrite s.cfg .cmd w :: .engine :: rest →
    ∃ t, step s = .next t ∧ t.busy = true ∧ t.done = false ∧ t.cmd = w ∧
      step t = .next { s with agenda := rest, cmd := w, result := .errIllegalCmd, done := true,
                              resp := some ⟨false, 0⟩ }

/-- R157: NOP completes with OK and changes nothing else, whatever IDX is. A word whose low half is 0 is a NOP: written to
CMD it sets BUSY and clears DONE, and the engine's turn then sets DONE. -/
def Obligations.NopCompletesAndChangesNothingElse : Prop :=
  EncodedBy 0x00 .nop ∧
  (∀ (idx : Nat) (s : State), exec (.nop idx) s = .next { s with result := .ok, done := true, pending := none }) ∧
  ∀ (s : State) (w : Word) (rest : List Move), s.cfg.wf = true → s.pending = none → s.resetting = false →
    w.toNat % 65536 = 0 → s.agenda = hostWrite s.cfg .cmd w :: .engine :: rest →
    ∃ t, step s = .next t ∧ t.busy = true ∧ t.done = false ∧ t.cmd = w ∧
      step t = .next { s with agenda := rest, cmd := w, result := .ok, done := true, resp := some ⟨false, 0⟩ }

/-- R155, R156: every command runs to completion from every state, and the step that executes an accepted word, legal or
not, leaves the block not busy. -/
def Obligations.EveryAcceptedCommandCompletes : Prop :=
  (∀ (i : Instr) (s : State), ∃ t, exec i s = .next t ∧ t.done = true ∧ t.pending = none) ∧
  ∀ (s : State) (w : Word) (rest : List Move), s.cfg.wf = true → s.resetting = false → s.pending = some w →
    s.agenda = .engine :: rest →
    ∃ t, step s = .next t ∧ t.done = true ∧ t.pending = none ∧ t.busy = false ∧ t.agenda = rest

/-- R156, R303: a host that polls STATUS until BUSY is 0 ends its poll: after one round where nothing runs, after three
steps where a command or a reset clear runs. The engine turn between two polls is the model's schedule (log 12). -/
def Obligations.PollingLoopEnds : Prop :=
  ∀ (s : State) (rest : List Move), s.cfg.wf = true → s.agenda = .wait :: rest →
    (s.busy = false → ∃ t d, step s = .next t ∧ t = { s with agenda := rest, resp := some ⟨false, d⟩ } ∧
      d.getLsbD 0 = false) ∧
    (s.busy = true → ∃ u v t d, step s = .next u ∧ step u = .next v ∧ step v = .next t ∧
      v.busy = false ∧ t = { v with agenda := rest, resp := some ⟨false, d⟩ } ∧ d.getLsbD 0 = false)

/-- R121, R272: a command that completes with a code other than OK, or an illegal word, leaves the block's state as it
was, but for the completion fields. (`draws` is the model's own counter, log 6.) -/
def Obligations.FailedCommandChangesNothing : Prop :=
  (∀ (i : Instr) (s t : State), exec i s = .next t → t.result ≠ .ok →
    t = { s with result := t.result, done := true, pending := none, draws := t.draws }) ∧
  ∀ (s : State) (w : Word) (rest : List Move), s.cfg.wf = true → s.resetting = false → s.pending = some w →
    (∃ e, decodeWord w = .error e) → s.agenda = .engine :: rest →
    step s = .next { s with agenda := rest, result := .errIllegalCmd, done := true, pending := none }

/-- R271: no command produces a code that its row does not list. -/
def Obligations.CommandsGiveOnlyTheirResults : Prop :=
  ∀ (i : Instr) (s t : State), exec i s = .next t → t.result ∈ resultsOf i

/-- R31, R87, R154: what no command writes: the parameters, ARG0, ARG1, CMD, IRQ_EN, ERR_BUSY, RESETTING, the bus
response, the agenda, and every byte of IN_BUF. -/
def Obligations.CommandsKeepTheHostsSide : Prop :=
  ∀ (i : Instr) (s t : State), exec i s = .next t →
    t = { s with result := t.result, res0 := t.res0, res1 := t.res1, res2 := t.res2, res3 := t.res3, enc := t.enc,
                 dec := t.dec, mem := t.mem, draws := t.draws, done := true, pending := none } ∧
    ∀ a < 0x20000, t.mem.read a = s.mem.read a

/-- R52, R113: which commands may change the encoder, the decoder, the buffers and the result registers. -/
def Obligations.OnlyNamedCommandsChangeState : Prop :=
  ∀ (i : Instr) (s t : State), exec i s = .next t →
    ((∀ n, i ≠ .encBegin n ∧ i ≠ .encAddData n ∧ i ≠ .encComputeParity n) → t.enc = s.enc) ∧
    ((∀ n, i ≠ .decBegin n ∧ i ≠ .decAddData n ∧ i ≠ .decAddParity n ∧ i ≠ .decDecode n) → t.dec = s.dec) ∧
    ((∀ n, i ≠ .encGetParity n ∧ i ≠ .decGetData n) → t.mem = s.mem) ∧
    ((∀ n, i ≠ .frameParse n) → t.res1 = s.res1 ∧ t.res2 = s.res2 ∧ t.res3 = s.res3) ∧
    ((∀ n, i ≠ .encGetParity n ∧ i ≠ .decCountMissing n ∧ i ≠ .decCountParity n ∧ i ≠ .decCanDecode n ∧
        i ≠ .decDecode n ∧ i ≠ .decGetData n ∧ i ≠ .frameParse n) → t.res0 = s.res0)

/-- R32, R34, R40, R80, R87, R153, R302: a turn of the host or of the reset pin reaches no slot, no result register, no
RESULT and no byte of OUT_BUF: only commands (and the end of a reset clear) do. That a reset over a running command leaves
the slots as they were inside the clear is the model's reading (log 15): R160 lets hardware have made part of the command's
effects by then. -/
def Obligations.HostTurnsNeverReachTheEngines : Prop :=
  ∀ (s t : State) (m : Move) (rest : List Move), s.agenda = m :: rest → m ≠ .engine → step s = .next t →
    t.enc = s.enc ∧ t.dec = s.dec ∧ t.result = s.result ∧ t.res0 = s.res0 ∧ t.res1 = s.res1 ∧ t.res2 = s.res2 ∧
    t.res3 = s.res3 ∧ ∀ a, 0x20000 ≤ a → t.mem.read a = s.mem.read a

/-! ### Encoder commands -/

/-- R170: ENC_BEGIN zeroes every slot, MPL and READY, records total_len, and changes nothing else; a second one changes
nothing. -/
def Obligations.EncBeginClearsTheEncoder : Prop :=
  EncodedBy 0x01 .encBegin ∧
  ∀ (idx : Nat) (s : State), ∃ t, exec (.encBegin idx) s = .next t ∧
    t = { s with enc := t.enc, result := .ok, done := true, pending := none } ∧
    t.enc.mpl = 0 ∧ t.enc.ready = false ∧ t.enc.totalLen = s.arg0 ∧ t.enc.shaped s.cfg = true ∧
    (∀ i, t.enc.dataLen i = 0) ∧ (∀ i p, t.enc.dataByte i p = 0) ∧ (∀ j p, t.enc.parityByte j p = 0) ∧
    ∀ idx', exec (.encBegin idx') t = .next t

/-- R172: ENC_ADD_DATA with an index, length or range out of bounds completes with ERR_BOUNDS and changes nothing;
otherwise it stores the payload and zeros, raises MPL, clears READY, and changes nothing else. -/
def Obligations.EncAddDataStoresOrRejects : Prop :=
  EncodedBy 0x02 .encAddData ∧
  ∀ (idx : Nat) (s : State), s.enc.shaped s.cfg = true →
    ((s.cfg.k ≤ idx ∨ s.cfg.cap < s.arg0.toNat ∨ s.cfg.cap + 14 < s.arg1.toNat + s.arg0.toNat) →
      exec (.encAddData idx) s = .next { s with result := .errBounds, done := true, pending := none }) ∧
    (idx < s.cfg.k → s.arg0.toNat ≤ s.cfg.cap → s.arg1.toNat + s.arg0.toNat ≤ s.cfg.cap + 14 →
      ∃ t, exec (.encAddData idx) s = .next t ∧
        t = { s with enc := t.enc, result := .ok, done := true, pending := none } ∧
        t.enc = { s.enc with data := t.enc.data, mpl := max s.enc.mpl s.arg0.toNat, ready := false } ∧
        t.enc.dataLen idx = s.arg0.toNat ∧
        (∀ p < s.cfg.cap, t.enc.dataByte idx p =
          if p < s.arg0.toNat then s.mem.read (0x10000 + (s.arg1.toNat + p)) else 0) ∧
        (∀ i, i ≠ idx → t.enc.dataLen i = s.enc.dataLen i ∧ ∀ p, t.enc.dataByte i p = s.enc.dataByte i p))

/-- R174: ENC_COMPUTE_PARITY always completes with OK and sets READY; in each column below MPL the parity bytes are the
last M symbols of RS_ENC of the data column, zero-padded beyond each slot's length; other parity bytes, the data slots,
MPL and everything else keep their values. -/
def Obligations.EncComputeParityEncodesEveryColumn : Prop :=
  EncodedBy 0x03 .encComputeParity ∧
  ∀ (idx : Nat) (s : State), ∃ t, exec (.encComputeParity idx) s = .next t ∧
    t = { s with enc := t.enc, result := .ok, done := true, pending := none } ∧
    t.enc = { s.enc with parity := t.enc.parity, ready := true } ∧
    (∀ j < s.cfg.m, ∀ p < s.cfg.cap, s.enc.mpl ≤ p → t.enc.parityByte j p = s.enc.parityByte j p) ∧
    ∀ p < s.cfg.cap, p < s.enc.mpl → ∀ col : List Byte, col.length = s.cfg.k →
      (∀ i < s.cfg.k, col.getD i 0 = if p < s.enc.dataLen i then s.enc.dataByte i p else 0) →
      ∃ cw, rsEnc s.cfg col = some cw ∧ ∀ j < s.cfg.m, t.enc.parityByte j p = cw.getD (s.cfg.k + j) 0

/-- R176: ENC_GET_PARITY checks READY, then the index; otherwise it writes the frame of the parity payload to OUT_BUF from
offset 0, sets RES0 to the frame length, and changes nothing else: no encoder state and no OUT_BUF byte past the frame. -/
def Obligations.EncGetParityWritesTheFrame : Prop :=
  EncodedBy 0x04 .encGetParity ∧
  ∀ (idx : Nat) (s : State), s.mem.wf →
    (s.enc.ready = false →
      exec (.encGetParity idx) s = .next { s with result := .errNotReady, done := true, pending := none }) ∧
    (s.enc.ready = true → s.cfg.m ≤ idx →
      exec (.encGetParity idx) s = .next { s with result := .errBounds, done := true, pending := none }) ∧
    (s.enc.ready = true → idx < s.cfg.m → ∀ payload : List Byte, payload.length = s.enc.mpl →
      (∀ p < s.enc.mpl, payload.getD p 0 = s.enc.parityByte idx p) →
      ∃ t, exec (.encGetParity idx) s = .next t ∧
        t = { s with mem := t.mem, res0 := BitVec.ofNat 32 (14 + s.enc.mpl), result := .ok, done := true,
                     pending := none } ∧
        (∀ o < 14 + s.enc.mpl, t.mem.read (0x20000 + o) =
          (buildFrame s.cfg s.enc.totalLen idx payload).getD o 0) ∧
        ∀ a, a < 0x20000 ∨ 0x20000 + (14 + s.enc.mpl) ≤ a → t.mem.read a = s.mem.read a)

/-- R175: lanes are independent: two encoders whose (zero-padded) data columns `p` agree compute the same parity bytes at
`p`, whatever their other columns hold. -/
def Obligations.ParityLanesAreIndependent : Prop :=
  ∀ (idx p : Nat) (s s' t t' : State), s'.cfg = s.cfg → p < s.cfg.cap → p < s.enc.mpl → p < s'.enc.mpl →
    (∀ i < s.cfg.k, (if p < s.enc.dataLen i then s.enc.dataByte i p else 0) =
      (if p < s'.enc.dataLen i then s'.enc.dataByte i p else 0)) →
    exec (.encComputeParity idx) s = .next t → exec (.encComputeParity idx) s' = .next t' →
    ∀ j < s.cfg.m, t'.enc.parityByte j p = t.enc.parityByte j p

/-- R177: ENC_GET_PARITY is repeatable: a second one with the same index leaves the same bytes in OUT_BUF and the same
RES0. -/
def Obligations.EncGetParityIsRepeatable : Prop :=
  ∀ (idx : Nat) (s t : State), s.mem.wf → exec (.encGetParity idx) s = .next t → t.result = .ok →
    ∃ u, exec (.encGetParity idx) t = .next u ∧ u.result = .ok ∧ u.res0 = t.res0 ∧
      ∀ a, u.mem.read a = t.mem.read a

/-- R311 (hazard H2): after a successful ENC_ADD_DATA, parity cannot be read until it is computed again. -/
def Obligations.StaleParityCannotBeRead : Prop :=
  ∀ (idx j : Nat) (s t : State), exec (.encAddData idx) s = .next t → t.result = .ok →
    exec (.encGetParity j) t = .next { t with result := .errNotReady } ∧
    ∃ u v, exec (.encComputeParity j) t = .next u ∧ u.enc.ready = true ∧ exec (.encGetParity j) u = .next v ∧
      v.result ≠ .errNotReady

/-! ### Decoder commands -/

/-- R190: DEC_BEGIN with an estimate over CAP completes with ERR_BOUNDS and changes nothing; otherwise it clears every
slot and flag, sets MPL to the estimate, records total_len, and changes nothing else. -/
def Obligations.DecBeginClearsOrRejects : Prop :=
  EncodedBy 0x10 .decBegin ∧
  ∀ (idx : Nat) (s : State),
    (s.cfg.cap < s.arg1.toNat →
      exec (.decBegin idx) s = .next { s with result := .errBounds, done := true, pending := none }) ∧
    (s.arg1.toNat ≤ s.cfg.cap →
      ∃ t, exec (.decBegin idx) s = .next t ∧
        t = { s with dec := t.dec, result := .ok, done := true, pending := none } ∧
        t.dec.mpl = s.arg1.toNat ∧ t.dec.totalLen = s.arg0 ∧ t.dec.decoded = false ∧ t.dec.shaped s.cfg = true ∧
        (∀ i, t.dec.dataLen i = 0 ∧ t.dec.dataRx i = false ∧ ∀ p, t.dec.dataByte i p = 0) ∧
        (∀ j, t.dec.parityLen j = 0 ∧ t.dec.parityRx j = false ∧ ∀ p, t.dec.parityByte j p = 0))

/-- R192: DEC_ADD_DATA rejects as ENC_ADD_DATA does; otherwise it stores the payload and zeros, marks the slot received,
raises MPL, and changes nothing else, DECODED included. -/
def Obligations.DecAddDataStoresOrRejects : Prop :=
  EncodedBy 0x11 .decAddData ∧
  ∀ (idx : Nat) (s : State), s.dec.shaped s.cfg = true →
    ((s.cfg.k ≤ idx ∨ s.cfg.cap < s.arg0.toNat ∨ s.cfg.cap + 14 < s.arg1.toNat + s.arg0.toNat) →
      exec (.decAddData idx) s = .next { s with result := .errBounds, done := true, pending := none }) ∧
    (idx < s.cfg.k → s.arg0.toNat ≤ s.cfg.cap → s.arg1.toNat + s.arg0.toNat ≤ s.cfg.cap + 14 →
      ∃ t, exec (.decAddData idx) s = .next t ∧
        t = { s with dec := t.dec, result := .ok, done := true, pending := none } ∧
        t.dec = { s.dec with data := t.dec.data, mpl := max s.dec.mpl s.arg0.toNat } ∧
        t.dec.dataLen idx = s.arg0.toNat ∧ t.dec.dataRx idx = true ∧
        (∀ p < s.cfg.cap, t.dec.dataByte idx p =
          if p < s.arg0.toNat then s.mem.read (0x10000 + (s.arg1.toNat + p)) else 0) ∧
        (∀ i, i ≠ idx → t.dec.dataLen i = s.dec.dataLen i ∧ t.dec.dataRx i = s.dec.dataRx i ∧
          ∀ p, t.dec.dataByte i p = s.dec.dataByte i p))

/-- R194: DEC_ADD_PARITY, the same for a parity slot, whose index is bounded by M. -/
def Obligations.DecAddParityStoresOrRejects : Prop :=
  EncodedBy 0x12 .decAddParity ∧
  ∀ (idx : Nat) (s : State), s.dec.shaped s.cfg = true →
    ((s.cfg.m ≤ idx ∨ s.cfg.cap < s.arg0.toNat ∨ s.cfg.cap + 14 < s.arg1.toNat + s.arg0.toNat) →
      exec (.decAddParity idx) s = .next { s with result := .errBounds, done := true, pending := none }) ∧
    (idx < s.cfg.m → s.arg0.toNat ≤ s.cfg.cap → s.arg1.toNat + s.arg0.toNat ≤ s.cfg.cap + 14 →
      ∃ t, exec (.decAddParity idx) s = .next t ∧
        t = { s with dec := t.dec, result := .ok, done := true, pending := none } ∧
        t.dec = { s.dec with parity := t.dec.parity, mpl := max s.dec.mpl s.arg0.toNat } ∧
        t.dec.parityLen idx = s.arg0.toNat ∧ t.dec.parityRx idx = true ∧
        (∀ p < s.cfg.cap, t.dec.parityByte idx p =
          if p < s.arg0.toNat then s.mem.read (0x10000 + (s.arg1.toNat + p)) else 0) ∧
        (∀ j, j ≠ idx → t.dec.parityLen j = s.dec.parityLen j ∧ t.dec.parityRx j = s.dec.parityRx j ∧
          ∀ p, t.dec.parityByte j p = s.dec.parityByte j p))

/-- R196, R197, R198: the counts and the decodability test go to RES0, and nothing else changes. -/
def Obligations.DecCountsAreExact : Prop :=
  EncodedBy 0x13 .decCountMissing ∧ EncodedBy 0x14 .decCountParity ∧ EncodedBy 0x15 .decCanDecode ∧
  ∀ (idx : Nat) (s : State),
    let missing := ((List.range s.cfg.k).filter fun i => s.dec.dataRx i = false).length
    let par := ((List.range s.cfg.m).filter fun j => s.dec.parityRx j = true).length
    exec (.decCountMissing idx) s =
      .next { s with res0 := BitVec.ofNat 32 missing, result := .ok, done := true, pending := none } ∧
    exec (.decCountParity idx) s =
      .next { s with res0 := BitVec.ofNat 32 par, result := .ok, done := true, pending := none } ∧
    exec (.decCanDecode idx) s =
      .next { s with res0 := if s.cfg.k ≤ (s.cfg.k - missing) + par then 1 else 0, result := .ok, done := true,
                     pending := none }

/-- R199: canDecode, par >= missing and |E| <= M are equivalent, and |E| = missing + (M - par). -/
def Obligations.CanDecodeIsTheErasureLimit : Prop :=
  ∀ (c : Config) (d : Decoder),
    (d.canDecode c = true ↔ d.missing c ≤ d.parityCount c) ∧
    (d.canDecode c = true ↔ (d.erasures c).length ≤ c.m) ∧
    (d.erasures c).length = d.missing c + (c.m - d.parityCount c) ∧ (d.erasures c).Nodup ∧
    ∀ x, x ∈ d.erasures c ↔ (x < c.k ∧ d.dataRx x = false) ∨ (∃ j < c.m, x = c.k + j ∧ d.parityRx j = false)

/-- R200, R209: when more than M of the K + M slots are not received, DEC_CAN_DECODE gives 0 and DEC_DECODE completes with
ERR_INSUFFICIENT, with nothing else changed. -/
def Obligations.TooFewFramesAreRefused : Prop :=
  ∀ (idx : Nat) (s : State),
    s.cfg.m < ((List.range s.cfg.k).filter fun i => s.dec.dataRx i = false).length +
        ((List.range s.cfg.m).filter fun j => s.dec.parityRx j = false).length →
    exec (.decCanDecode idx) s = .next { s with res0 := 0, result := .ok, done := true, pending := none } ∧
    exec (.decDecode idx) s = .next { s with result := .errInsufficient, done := true, pending := none }

/-- R114, R200, R202: DEC_DECODE is opcode 0x16. When enough slots are received and every column fits a codeword, it completes with OK: every
column below MPL becomes the first K symbols of a codeword that agrees with the received symbols, so received slots keep
their bytes; every slot is received, a recovered one with length MPL; DECODED is set, RES0 is the number recovered; parity
slots and everything else keep their values. -/
def Obligations.DecodeOfConsistentColumnsSucceeds : Prop :=
  EncodedBy 0x16 .decDecode ∧
  ∀ (idx : Nat) (s : State), s.dec.mpl ≤ s.cfg.cap → s.dec.canDecode s.cfg = true → s.dec.Consistent s.cfg →
    ∃ t, exec (.decDecode idx) s = .next t ∧
      t = { s with dec := t.dec, result := .ok, done := true, pending := none,
                   res0 := BitVec.ofNat 32 ((List.range s.cfg.k).filter fun i => s.dec.dataRx i = false).length } ∧
      t.dec = { s.dec with data := t.dec.data, decoded := true } ∧
      (∀ p < s.dec.mpl, ∃ msg, FitsMessage s.cfg (s.dec.column s.cfg p) (s.dec.erasures s.cfg) msg ∧
        ∀ i < s.cfg.k, t.dec.dataByte i p = msg.getD i 0) ∧
      ∀ i < s.cfg.k, t.dec.dataRx i = true ∧
        t.dec.dataLen i = (if s.dec.dataRx i then s.dec.dataLen i else s.dec.mpl) ∧
        (∀ p < s.cfg.cap, s.dec.mpl ≤ p ∨ s.dec.dataRx i = true → t.dec.dataByte i p = s.dec.dataByte i p)

/-- R203: when some column fits no codeword, DEC_DECODE either completes with ERR_CODEC and changes nothing, or completes
with OK and the effects of R200 with any data bytes below MPL; with the reference decoder (R249) it is always the first.
Which one, and the bytes, are free values. -/
def Obligations.DecodeOfInconsistentColumnsIsADraw : Prop :=
  ∀ (idx : Nat) (s : State), s.dec.canDecode s.cfg = true → ¬ s.dec.Consistent s.cfg →
    ∃ t, exec (.decDecode idx) s = .next t ∧
      (t = { s with result := .errCodec, done := true, pending := none, draws := t.draws } ∨
        s.cfg.decoder = .lawful ∧
        t = { s with dec := t.dec, result := .ok, done := true, pending := none, draws := t.draws,
                     res0 := BitVec.ofNat 32 ((List.range s.cfg.k).filter fun i => s.dec.dataRx i = false).length } ∧
        t.dec = { s.dec with data := t.dec.data, decoded := true } ∧
        ∀ i < s.cfg.k, t.dec.dataRx i = true ∧
          t.dec.dataLen i = (if s.dec.dataRx i then s.dec.dataLen i else s.dec.mpl) ∧
          ∀ p < s.cfg.cap, s.dec.mpl ≤ p → t.dec.dataByte i p = s.dec.dataByte i p)

/-- R206: DEC_GET_DATA checks the index, then the flag; otherwise it writes the first MPL bytes of the slot to OUT_BUF from
offset 0, sets RES0 to MPL, and changes nothing else. -/
def Obligations.DecGetDataWritesThePayload : Prop :=
  EncodedBy 0x17 .decGetData ∧
  ∀ (idx : Nat) (s : State), s.mem.wf →
    (s.cfg.k ≤ idx →
      exec (.decGetData idx) s = .next { s with result := .errBounds, done := true, pending := none }) ∧
    (idx < s.cfg.k → s.dec.dataRx idx = false →
      exec (.decGetData idx) s = .next { s with result := .errNotReceived, done := true, pending := none }) ∧
    (idx < s.cfg.k → s.dec.dataRx idx = true →
      ∃ t, exec (.decGetData idx) s = .next t ∧
        t = { s with mem := t.mem, res0 := BitVec.ofNat 32 s.dec.mpl, result := .ok, done := true, pending := none } ∧
        (∀ p < s.dec.mpl, t.mem.read (0x20000 + p) = s.dec.dataByte idx p) ∧
        ∀ a, a < 0x20000 ∨ 0x20000 + s.dec.mpl ≤ a → t.mem.read a = s.mem.read a)

/-- R208: after a successful DEC_DECODE of consistent columns, a second one completes with OK and RES0 = 0 and changes
nothing else. -/
def Obligations.RepeatedDecodeChangesNothing : Prop :=
  ∀ (idx idx' : Nat) (s t : State), s.dec.mpl ≤ s.cfg.cap → s.dec.canDecode s.cfg = true → s.dec.Consistent s.cfg →
    exec (.decDecode idx) s = .next t → exec (.decDecode idx') t = .next { t with res0 := 0 }

/-- R178, R202, R205, R207, R209: the block's promise. Take an encoder whose parity is computed and a decoder that holds,
in each slot it has received, the encoder's bytes of that slot (zero-padded), over columns at least as many as the
encoder's. If at most M of the K + M slots are not received, then DEC_DECODE succeeds and every data slot of the decoder
holds the encoder's payload, zeros beyond its true length included. (The code's distance, R242, is part of the
configuration that the invariant has.) -/
def Obligations.AnyMLossesAreRecovered : Prop :=
  ∀ (idx : Nat) (s : State), s.Inv → s.enc.ready = true → s.enc.mpl ≤ s.dec.mpl →
    (∀ i < s.cfg.k, s.dec.dataRx i = true → ∀ p < s.dec.mpl, s.dec.dataByte i p = s.enc.dataByte i p) →
    (∀ j < s.cfg.m, s.dec.parityRx j = true → ∀ p < s.dec.mpl, s.dec.parityByte j p = s.enc.parityByte j p) →
    ((List.range s.cfg.k).filter fun i => s.dec.dataRx i = false).length +
        ((List.range s.cfg.m).filter fun j => s.dec.parityRx j = false).length ≤ s.cfg.m →
    ∃ t, exec (.decDecode idx) s = .next t ∧ t.result = .ok ∧ t.dec.decoded = true ∧
      ∀ i < s.cfg.k, t.dec.dataRx i = true ∧ ∀ p < s.cfg.cap, t.dec.dataByte i p = s.enc.dataByte i p

/-! ### Frames and the checksum -/

/-- R130, R220: the layout of a built frame. -/
def Obligations.BuiltFrameHasTheWireLayout : Prop :=
  ∀ (c : Config) (totalLen : Word) (idx : Nat) (payload : List Byte), c.wf = true → idx < c.m →
    let f := buildFrame c totalLen idx payload
    let L := payload.length
    f.length = 14 + L ∧ rdBe16 f 0 = c.parityMagic.toNat ∧ rdBe32 f 2 = totalLen.toNat ∧ rdBe16 f 6 = idx ∧
    rdBe16 f 8 = c.m ∧ rdBe16 f 10 = c.k ∧ (∀ p < L, f.getD (12 + p) 0 = payload.getD p 0) ∧
    rdBe16 f (12 + L) = (crc16 c.crcInit (f.take (12 + L))).toNat

/-- R224, R225: FRAME_PARSE tests range, length, checksum and magic in that order, and on success returns the header
fields and the payload length in RES0 to RES3; nothing else changes. -/
def Obligations.FrameParseChecksInOrder : Prop :=
  EncodedBy 0x20 .frameParse ∧
  ∀ (idx : Nat) (s : State) (f : List Byte), f.length = s.arg0.toNat →
    (∀ p < s.arg0.toNat, f.getD p 0 = s.mem.read (0x10000 + (s.arg1.toNat + p))) →
    let n := s.arg0.toNat
    let good := rdBe16 f (n - 2) = (crc16 s.cfg.crcInit (f.take (n - 2))).toNat
    (s.cfg.cap + 14 < s.arg1.toNat + n →
      exec (.frameParse idx) s = .next { s with result := .errBounds, done := true, pending := none }) ∧
    (s.arg1.toNat + n ≤ s.cfg.cap + 14 → n < 14 →
      exec (.frameParse idx) s = .next { s with result := .errFrameLen, done := true, pending := none }) ∧
    (s.arg1.toNat + n ≤ s.cfg.cap + 14 → 14 ≤ n → ¬ good →
      exec (.frameParse idx) s = .next { s with result := .errCrc, done := true, pending := none }) ∧
    (s.arg1.toNat + n ≤ s.cfg.cap + 14 → 14 ≤ n → good → rdBe16 f 0 ≠ s.cfg.parityMagic.toNat →
      exec (.frameParse idx) s = .next { s with result := .errMagic, done := true, pending := none }) ∧
    (s.arg1.toNat + n ≤ s.cfg.cap + 14 → 14 ≤ n → good → rdBe16 f 0 = s.cfg.parityMagic.toNat →
      exec (.frameParse idx) s =
        .next { s with res0 := BitVec.ofNat 32 (rdBe32 f 2),
                       res1 := (BitVec.ofNat 32 (rdBe16 f 8) <<< 16) ||| BitVec.ofNat 32 (rdBe16 f 6),
                       res2 := BitVec.ofNat 32 (rdBe16 f 10), res3 := BitVec.ofNat 32 (n - 14),
                       result := .ok, done := true, pending := none })

/-- R228: a frame that ENC_GET_PARITY wrote, placed anywhere in IN_BUF where it fits and parsed with its length, is
accepted, and RES0 to RES3 give back total_len, M and the index, K, and MPL. -/
def Obligations.ParseOfBuiltFrameGivesItsFields : Prop :=
  ∀ (idx idx' : Nat) (s t u : State), s.Inv → exec (.encGetParity idx) s = .next t → t.result = .ok →
    u.cfg = s.cfg → u.arg0 = t.res0 → u.arg1.toNat + t.res0.toNat ≤ s.cfg.cap + 14 →
    (∀ o < t.res0.toNat, u.mem.read (0x10000 + (u.arg1.toNat + o)) = t.mem.read (0x20000 + o)) →
    exec (.frameParse idx') u =
      .next { u with res0 := s.enc.totalLen, res1 := BitVec.ofNat 32 (s.cfg.m * 65536 + idx),
                     res2 := BitVec.ofNat 32 s.cfg.k, res3 := BitVec.ofNat 32 s.enc.mpl,
                     result := .ok, done := true, pending := none }

/-- R226: flip any one bit of a frame that FRAME_PARSE accepts: FRAME_PARSE of the same range then completes with
ERR_CRC. -/
def Obligations.EverySingleBitFlipIsDetected : Prop :=
  ∀ (idx q b : Nat) (s t s' : State), exec (.frameParse idx) s = .next t → t.result = .ok →
    s'.cfg = s.cfg → s'.arg0 = s.arg0 → s'.arg1 = s.arg1 → q < s.arg0.toNat → b < 8 →
    s'.mem.read (0x10000 + (s.arg1.toNat + q)) =
      s.mem.read (0x10000 + (s.arg1.toNat + q)) ^^^ BitVec.ofNat 8 (2 ^ b) →
    (∀ o < s.arg0.toNat, o ≠ q →
      s'.mem.read (0x10000 + (s.arg1.toNat + o)) = s.mem.read (0x10000 + (s.arg1.toNat + o))) →
    exec (.frameParse idx) s' = .next { s' with result := .errCrc, done := true, pending := none }

/-! ### The codec -/

/-- R244: RS_ENC is defined on every K-byte column, systematic, gives K + M symbols, maps the zero column to the zero
codeword, and is linear over the code's field: it commutes with XOR and with multiplication by a symbol, whatever the
configured code. On a column of another length, which no command makes, the model's RS_ENC fails (log 17). -/
def Obligations.EncoderIsSystematicAndLinear : Prop :=
  (∀ (c : Config) (a b : List Byte), a.length = c.k → b.length = c.k →
    ∃ x y, rsEnc c a = some x ∧ rsEnc c b = some y ∧ x.length = c.k + c.m ∧ x.take c.k = a ∧
      rsEnc c (xorBytes a b) = some (xorBytes x y) ∧
      (∀ z, rsEnc c (a.map (gfMulMod (fieldPoly c) z)) = some (x.map (gfMulMod (fieldPoly c) z))) ∧
      rsEnc c (List.replicate c.k 0) = some (List.replicate (c.k + c.m) 0)) ∧
  ∀ (c : Config) (a : List Byte), a.length ≠ c.k → rsEnc c a = none

/-- R246: for more than M erasures RS_DEC fails; otherwise it gives a codeword that agrees with the known symbols if there
is one, and is a draw if there is none; and the symbols at erased positions never matter. -/
def Obligations.DecoderFindsTheAgreeingCodeword : Prop :=
  ∀ (c : Config) (r : List Byte) (E : List Nat),
    (c.m < E.length → rsDec c r E = .failure) ∧
    (E.length ≤ c.m → (∃ msg, FitsMessage c r E msg) →
      ∃ msg, FitsMessage c r E msg ∧ rsDec c r E = .ok (codewordOf c msg)) ∧
    (E.length ≤ c.m → (¬ ∃ msg, FitsMessage c r E msg) → rsDec c r E = .inconsistent) ∧
    ∀ r' : List Byte, (∀ t < c.k + c.m, t ∉ E → r'.getD t 0 = r.getD t 0) → rsDec c r' E = rsDec c r E

/-- R7, R12, R242, R247: the configurations that exist are exactly those of R7 to R9 whose field polynomial is irreducible
and whose code has minimum distance M + 1, and no other takes a step. In their codes any K positions with any values
determine exactly one codeword; so with at most M erasures at most one codeword fits, and with exactly M one always does.
(The refusal's name is the model's, log 1.) -/
def Obligations.AnyKPositionsDetermineTheCodeword : Prop :=
  (∀ c : Config, c.wf = true ↔ c.sized = true ∧ irreducible (fieldPoly c) = true ∧ codeDistance c) ∧
  (∀ s : State, s.cfg.wf = false → step s = .refused .badConfiguration) ∧
  ∀ c : Config, c.wf = true →
    (∀ (S : List Nat) (r : List Byte), S.Nodup → S.length = c.k → (∀ t ∈ S, t < c.k + c.m) →
      ∃! msg : List Byte, msg.length = c.k ∧ ∀ t ∈ S, (codewordOf c msg).getD t 0 = r.getD t 0) ∧
    (∀ (E : List Nat) (r : List Byte), E.Nodup → (∀ t ∈ E, t < c.k + c.m) → E.length ≤ c.m →
      (∀ a b, FitsMessage c r E a → FitsMessage c r E b → a = b) ∧
      (E.length = c.m → ∃ msg, FitsMessage c r E msg))

/-- R248: a codeword of the reference code, as a polynomial with position 0 the highest power, vanishes at α^i for every
i in [0, M). -/
def Obligations.ReferenceCodewordsVanishAtTheRoots : Prop :=
  ∀ (c : Config) (msg : List Byte) (i : Nat), c.code = .reference → msg.length = c.k → i < c.m →
    evalPoly (gfPow gfAlpha i) (codewordOf c msg) = 0

/-- R240, R241: the non-zero symbols of the reference field form a group under multiplication generated by α = 0x02, with
unit 0x01 and inverse the 254th power; multiplication is commutative, associative and distributes over XOR. With any
irreducible field polynomial every non-zero symbol has an inverse. -/
def Obligations.FieldIsGeneratedByAlpha : Prop :=
  (∀ a : Byte, a ≠ 0 → gfMul a (gfInv a) = 1 ∧ ∃! e : Nat, e ≤ 254 ∧ gfPow gfAlpha e = a) ∧
  gfPow gfAlpha 255 = 1 ∧
  (∀ a b c : Byte, gfMul a 1 = a ∧ gfMul a b = gfMul b a ∧ gfMul (gfMul a b) c = gfMul a (gfMul b c) ∧
    gfMul a (b ^^^ c) = gfMul a b ^^^ gfMul a c) ∧
  ∀ p a : Byte, irreducible p = true → a ≠ 0 → gfMulMod p a 1 = a ∧ ∃ b, gfMulMod p a b = 1

/-! ### The bus -/

/-- R84, R85, R88: a misaligned access, or a narrow one in the register region, is answered by an error response with data
0, and changes no state of the block. -/
def Obligations.BadAccessIsABusError : Prop :=
  ∀ (s : State) (rest : List Move) (off : Nat) (wd : Width) (w : Word), s.cfg.wf = true → s.resetting = false →
    off < 0x40000 →
    (off % wd.bytes ≠ 0 ∨ off < 0x10000 ∧ wd ≠ .w4) →
    (s.agenda = .host (.read (s.cfg.base + off) wd) :: rest →
      step s = .next { s with agenda := rest, resp := some ⟨true, 0⟩ }) ∧
    (s.agenda = .host (.write (s.cfg.base + off) wd w) :: rest →
      step s = .next { s with agenda := rest, resp := some ⟨true, 0⟩ })

/-- R84: an aligned access to an unmapped register offset or to the unmapped region reads 0 and ignores a write, with no
error. -/
def Obligations.UnmappedAccessReadsZero : Prop :=
  ∀ (s : State) (rest : List Move) (off : Nat) (wd : Width) (w : Word), s.cfg.wf = true → s.resetting = false →
    off % wd.bytes = 0 → (0x40 ≤ off ∧ off < 0x10000 ∧ wd = .w4 ∨ 0x30000 ≤ off ∧ off < 0x40000) →
    (s.agenda = .host (.read (s.cfg.base + off) wd) :: rest →
      ∃ d, step s = .next { s with agenda := rest, resp := some ⟨false, 0⟩, draws := d }) ∧
    (s.agenda = .host (.write (s.cfg.base + off) wd w) :: rest →
      step s = .next { s with agenda := rest, resp := some ⟨false, 0⟩ })

/-- R82, R86, R87: with nothing running, an aligned write to the IN_BUF window stores the bytes that lie below FRAME_MAX,
little-endian, and changes nothing else. -/
def Obligations.InBufWriteStoresLittleEndian : Prop :=
  ∀ (s : State) (rest : List Move) (o : Nat) (wd : Width) (w : Word), s.cfg.wf = true → s.mem.wf →
    s.busy = false → o < 0x10000 → o % wd.bytes = 0 →
    s.agenda = .host (.write (s.cfg.base + (0x10000 + o)) wd w) :: rest →
    ∃ t, step s = .next t ∧ t = { s with agenda := rest, mem := t.mem, resp := some ⟨false, 0⟩ } ∧ t.mem.wf ∧
      (∀ k < wd.bytes, o + k < s.cfg.cap + 14 →
        t.mem.read (0x10000 + (o + k)) = (w >>> (8 * k)).setWidth 8) ∧
      ∀ a, (∀ k < wd.bytes, o + k < s.cfg.cap + 14 → a ≠ 0x10000 + (o + k)) → t.mem.read a = s.mem.read a

/-- R82, R86, R87: with nothing running, an aligned read of a buffer window returns its bytes little-endian, 0 for a byte
at or past FRAME_MAX; the block's state does not change. That the lanes above a narrow access are 0 is the model's choice
(log 8). -/
def Obligations.BufferReadIsLittleEndian : Prop :=
  ∀ (s : State) (rest : List Move) (base o : Nat) (wd : Width), s.cfg.wf = true → s.busy = false →
    (base = 0x10000 ∨ base = 0x20000) → o < 0x10000 → o % wd.bytes = 0 →
    s.agenda = .host (.read (s.cfg.base + (base + o)) wd) :: rest →
    ∃ d : Word, step s = .next { s with agenda := rest, resp := some ⟨false, d⟩ } ∧
      (∀ k < wd.bytes, (d >>> (8 * k)).setWidth 8 =
        if o + k < s.cfg.cap + 14 then s.mem.read (base + (o + k)) else (0 : Byte)) ∧
      d.toNat < 2 ^ (8 * wd.bytes)

/-- R92: while a command runs, writes to CMD, ARG0, ARG1 and IN_BUF are ignored and set ERR_BUSY, those whose bytes all lie
at or past FRAME_MAX included; writes to CTRL and STATUS still take effect. (A reset over a running command leaves the
slots as they were until the clear ends: log 15.) -/
def Obligations.WritesWhileRunning : Prop :=
  ∀ (s : State) (rest : List Move) (o : Nat) (wd : Width) (w : Word) (r : Reg), s.cfg.wf = true →
    s.pending ≠ none → s.resetting = false →
    (r = .cmd ∨ r = .arg0 ∨ r = .arg1 → s.agenda = hostWrite s.cfg r w :: rest →
      step s = .next { s with agenda := rest, errBusy := true, resp := some ⟨false, 0⟩ }) ∧
    (o < 0x10000 → o % wd.bytes = 0 → s.agenda = .host (.write (s.cfg.base + (0x10000 + o)) wd w) :: rest →
      step s = .next { s with agenda := rest, errBusy := true, resp := some ⟨false, 0⟩ }) ∧
    (s.agenda = hostWrite s.cfg .ctrl w :: rest → w.getLsbD 1 = false →
      step s = .next { s with agenda := rest, irqEn := w.getLsbD 0, resp := some ⟨false, 0⟩ }) ∧
    (s.agenda = hostWrite s.cfg .ctrl w :: rest → w.getLsbD 1 = true →
      step s = .next { s with agenda := rest, pending := none, resetting := true, resp := some ⟨false, 0⟩ }) ∧
    (s.agenda = hostWrite s.cfg .status w :: rest →
      step s = .next { s with agenda := rest, done := s.done && !w.getLsbD 1, errBusy := s.errBusy && !w.getLsbD 2,
                              resp := some ⟨false, 0⟩ })

/-- R32, R34, R87: a write to a read-only register or to OUT_BUF is ignored without error, whatever runs. -/
def Obligations.ReadOnlyWritesAreIgnored : Prop :=
  ∀ (s : State) (rest : List Move) (o : Nat) (wd : Width) (w : Word) (r : Reg), s.cfg.wf = true →
    (r ∈ [Reg.cfgKm, .cfgCap, .cfgMagic, .res0, .res1, .res2, .res3, .encMpl, .encTotalLen, .decMpl, .decTotalLen] →
      s.agenda = hostWrite s.cfg r w :: rest →
      step s = .next { s with agenda := rest, resp := some ⟨false, 0⟩ }) ∧
    (o < 0x10000 → o % wd.bytes = 0 → s.agenda = .host (.write (s.cfg.base + (0x20000 + o)) wd w) :: rest →
      step s = .next { s with agenda := rest, resp := some ⟨false, 0⟩ })

/-- R34, R36: with nothing running, a write to ARG0 or ARG1 replaces the whole register; outside a reset clear, a write to
STATUS clears DONE and ERR_BUSY where the word has a 1 and changes nothing else. -/
def Obligations.OperandAndStatusWrites : Prop :=
  ∀ (s : State) (rest : List Move) (w : Word), s.cfg.wf = true → s.resetting = false →
    (s.pending = none → s.agenda = hostWrite s.cfg .arg0 w :: rest →
      step s = .next { s with agenda := rest, arg0 := w, resp := some ⟨false, 0⟩ }) ∧
    (s.pending = none → s.agenda = hostWrite s.cfg .arg1 w :: rest →
      step s = .next { s with agenda := rest, arg1 := w, resp := some ⟨false, 0⟩ }) ∧
    (s.agenda = hostWrite s.cfg .status w :: rest →
      step s = .next { s with agenda := rest, done := s.done && !w.getLsbD 1, errBusy := s.errBusy && !w.getLsbD 2,
                              resp := some ⟨false, 0⟩ })

/-- R31, R32, R33, R37, R39, R42, R46, R38, R120: with nothing running, STATUS reads with each field at its place, RESULT as
the 8-bit code of the last result, and 0 in every other bit, and every other register that is no parameter reads as what it holds. -/
def Obligations.RegisterReadsWhenIdle : Prop :=
  (∀ (s : State) (rest : List Move), s.Inv → s.busy = false → s.agenda = hostRead s.cfg .status :: rest →
    ∃ d : Word, step s = .next { s with agenda := rest, resp := some ⟨false, d⟩ } ∧
      d.getLsbD 0 = false ∧ d.getLsbD 1 = s.done ∧ d.getLsbD 2 = s.errBusy ∧ d.getLsbD 3 = s.enc.ready ∧
      d.getLsbD 4 = s.dec.decoded ∧ d.toNat / 256 = s.result.code.toNat ∧ d.toNat / 32 % 8 = 0 ∧
      (s.result, d.toNat / 256) ∈ [(ResultCode.ok, 0x00), (.errBounds, 0x01), (.errNotReady, 0x02),
        (.errNotReceived, 0x03), (.errInsufficient, 0x04), (.errCodec, 0x05), (.errMagic, 0x06), (.errCrc, 0x07),
        (.errFrameLen, 0x08), (.errIllegalCmd, 0x09)]) ∧
  ∀ (s : State) (rest : List Move) (r : Reg) (v : Word), s.Inv → s.busy = false →
    s.agenda = hostRead s.cfg r :: rest →
    (r, v) ∈ [(Reg.cmd, s.cmd), (.arg0, s.arg0), (.arg1, s.arg1), (.res0, s.res0), (.res1, s.res1), (.res2, s.res2),
      (.res3, s.res3), (.encTotalLen, s.enc.totalLen), (.decTotalLen, s.dec.totalLen),
      (.encMpl, BitVec.ofNat 32 s.enc.mpl), (.decMpl, BitVec.ofNat 32 s.dec.mpl),
      (.ctrl, if s.irqEn then 1 else 0)] →
    step s = .next { s with agenda := rest, resp := some ⟨false, v⟩ }

/-- R33, R35: CFG_KM, CFG_CAP and CFG_MAGIC read as the parameters at all times, and no step changes the parameters. -/
def Obligations.ParametersAreHardwired : Prop :=
  (∀ (s : State) (rest : List Move) (r : Reg) (v : Nat), s.cfg.wf = true → s.agenda = hostRead s.cfg r :: rest →
    (r, v) ∈ [(Reg.cfgKm, s.cfg.m * 256 + s.cfg.k), (.cfgCap, s.cfg.mtu * 65536 + s.cfg.cap),
      (.cfgMagic, s.cfg.crcInit.toNat * 65536 + s.cfg.parityMagic.toNat)] →
    ∃ n, step s = .next { s with agenda := rest, resp := some ⟨false, BitVec.ofNat 32 v⟩, draws := n }) ∧
  ∀ s t : State, step s = .next t → t.cfg = s.cfg

/-- R91: no read has a side effect: whatever the address, the width and what runs, only the response (and the model's own
draw counter and agenda) change. -/
def Obligations.ReadsHaveNoSideEffect : Prop :=
  ∀ (s : State) (rest : List Move) (addr : Nat) (wd : Width), s.cfg.wf = true →
    s.agenda = .host (.read addr wd) :: rest →
    ∃ r n, step s = .next { s with agenda := rest, resp := r, draws := n }

/-- R93: while a command runs, of STATUS the bits BUSY (1), DONE (0) and ERR_BUSY are exact and the rest is the read's
fresh free value; CTRL, CMD, ARG0, ARG1 and the IN_BUF bytes of an access of any width are exact; RES0 to RES3, the MPL
and TOTAL_LEN registers and the OUT_BUF bytes are the free value (log 6; over the whole MPL register, log 10). A byte of
either window at or past FRAME_MAX reads 0 (R86, log 10). -/
def Obligations.ReadsWhileRunning : Prop :=
  ∀ (s : State) (rest : List Move) (r : Reg) (v : Word) (o : Nat) (wd : Width), s.Inv → s.pending ≠ none →
    (s.agenda = hostRead s.cfg .status :: rest →
      ∃ d, step s = .next { s with agenda := rest, resp := some ⟨false, d⟩, draws := s.draws + 1 } ∧
        d.getLsbD 0 = true ∧ d.getLsbD 1 = false ∧ d.getLsbD 2 = s.errBusy ∧
        d.getLsbD 3 = (Config.freeWord s.draws).getLsbD 3 ∧ d.getLsbD 4 = (Config.freeWord s.draws).getLsbD 4 ∧
        d.toNat / 256 = (Config.freeWord s.draws).toNat / 256 % 256) ∧
    (s.agenda = hostRead s.cfg r :: rest →
      (r, v) ∈ [(Reg.ctrl, if s.irqEn then 1 else 0), (.cmd, s.cmd), (.arg0, s.arg0), (.arg1, s.arg1),
        (.res0, Config.freeWord s.draws), (.res1, Config.freeWord s.draws), (.res2, Config.freeWord s.draws),
        (.res3, Config.freeWord s.draws), (.encMpl, Config.freeWord s.draws), (.encTotalLen, Config.freeWord s.draws),
        (.decMpl, Config.freeWord s.draws), (.decTotalLen, Config.freeWord s.draws)] →
      step s = .next { s with agenda := rest, resp := some ⟨false, v⟩, draws := s.draws + 1 }) ∧
    (o < 0x10000 → o % wd.bytes = 0 → s.agenda = .host (.read (s.cfg.base + (0x10000 + o)) wd) :: rest →
      ∃ d : Word, step s = .next { s with agenda := rest, resp := some ⟨false, d⟩, draws := s.draws + 1 } ∧
        ∀ k < wd.bytes, (d >>> (8 * k)).setWidth 8 =
          if o + k < s.cfg.cap + 14 then s.mem.read (0x10000 + (o + k)) else (0 : Byte)) ∧
    (o < 0x10000 → o % wd.bytes = 0 → s.agenda = .host (.read (s.cfg.base + (0x20000 + o)) wd) :: rest →
      ∃ d : Word, step s = .next { s with agenda := rest, resp := some ⟨false, d⟩, draws := s.draws + 1 } ∧
        ∀ k < wd.bytes, (d >>> (8 * k)).setWidth 8 =
          if o + k < s.cfg.cap + 14 then (Config.freeWord s.draws >>> (8 * k)).setWidth 8 else (0 : Byte))

/-! ### The interrupt line and reset -/

/-- R280: outside a reset clear irq is DONE and IRQ_EN: a completion raises it exactly when enabled, the acknowledgement
and the acceptance of the next command drop it, and it reads 0 during a reset clear (R302). -/
def Obligations.InterruptFollowsCompletion : Prop :=
  (∀ s : State, s.resetting = false → s.irq = (s.done && s.irqEn)) ∧
  (∀ (i : Instr) (s t : State), exec i s = .next t → s.resetting = false → t.irq = s.irqEn) ∧
  (∀ (s t : State) (w : Word) (rest : List Move), s.resetting = false →
    (s.agenda = hostAck s.cfg :: rest ∨ s.pending = none ∧ s.agenda = hostWrite s.cfg .cmd w :: rest) →
    step s = .next t → t.irq = false) ∧
  ∀ s : State, s.resetting = true → s.irq = false

/-- R301: a write to CTRL with bit 1 set starts a reset and nothing else, and after the clear IRQ_EN reads 0; with bit 1
clear it sets IRQ_EN and starts no reset. (A reset over a running command leaves the slots as they were until the clear
ends: log 15.) -/
def Obligations.ControlWriteStartsAReset : Prop :=
  ∀ (s : State) (rest : List Move) (w : Word), s.cfg.wf = true → s.resetting = false →
    s.agenda = hostWrite s.cfg .ctrl w :: .engine :: rest →
    (w.getLsbD 1 = true → ∃ t, step s = .next t ∧
      t = { s with agenda := .engine :: rest, pending := none, resetting := true, resp := some ⟨false, 0⟩ } ∧
      ∃ u, step t = .next u ∧ u.irqEn = false ∧ u.resetting = false) ∧
    (w.getLsbD 1 = false →
      step s = .next { s with agenda := .engine :: rest, irqEn := w.getLsbD 0, resp := some ⟨false, 0⟩ })

/-- R160, R300, R302: the reset pin starts a reset from every state, abandons a running command and writes neither RESULT
nor DONE; during the clear every write is ignored with nothing set, BUSY reads 1, and irq is 0. (The slots stay as they
were until the clear ends: log 15.) -/
def Obligations.ResetClearIgnoresWrites : Prop :=
  (∀ (s : State) (rest : List Move), s.cfg.wf = true → s.agenda = .resetPin :: rest →
    step s = .next { s with agenda := rest, pending := none, resetting := true }) ∧
  ∀ (s : State) (rest : List Move) (off : Nat) (wd : Width) (w : Word), s.cfg.wf = true → s.resetting = true →
    s.irq = false ∧
    (off < 0x40000 → s.agenda = .host (.write (s.cfg.base + off) wd w) :: rest →
      ∃ r, step s = .next { s with agenda := rest, resp := some r }) ∧
    (s.agenda = hostRead s.cfg .status :: rest →
      ∃ d n, step s = .next { s with agenda := rest, resp := some ⟨false, d⟩, draws := n } ∧ d.getLsbD 0 = true)

/-- R303: the engine's turn in a reset clear sets every piece of state to its reset value and ends the clear. The
parameters, the agenda, the last bus response and the draw counter are not the block's state (log 14). -/
def Obligations.ResetClearEndsInTheResetState : Prop :=
  ∀ (s : State) (rest : List Move), s.cfg.wf = true → s.resetting = true → s.agenda = .engine :: rest →
    step s = .next { State.resetOf s.cfg with agenda := rest, resp := s.resp, draws := s.draws }

/-- R53, R304: the reset state of every configuration holds R53's values; its encoder is the one ENC_BEGIN with total_len
0 leaves, its decoder the one DEC_BEGIN with both operands 0 leaves. -/
def Obligations.ResetStateHoldsItsValues : Prop :=
  ∀ c : Config,
    let s := State.resetOf c
    s.cfg = c ∧ s.arg0 = 0 ∧ s.arg1 = 0 ∧ s.res0 = 0 ∧ s.res1 = 0 ∧ s.res2 = 0 ∧ s.res3 = 0 ∧ s.cmd = 0 ∧
    s.irqEn = false ∧ s.busy = false ∧ s.done = false ∧ s.errBusy = false ∧ s.result.code = 0 ∧ s.pending = none ∧
    s.resetting = false ∧ s.irq = false ∧ (∀ a, s.mem.read a = 0) ∧
    (∀ idx, ∃ t, exec (.encBegin idx) s = .next t ∧ t.enc = s.enc) ∧
    (∀ idx, ∃ t, exec (.decBegin idx) s = .next t ∧ t.dec = s.dec)

/-! ### Invariants -/

/-- The invariant holds at the reset state of every configuration that exists (R43, R47, R53). -/
def Obligations.InvariantHoldsAtReset : Prop :=
  ∀ c : Config, c.wf = true → (State.resetOf c).Inv ∧ (State.resetOf c).dec.Padded

/-- R43, R47, R86, R93, R302: every step keeps the invariant, whoever takes the turn. In particular, while READY is 1 the
stored parity is RS_ENC of the data as it stands. -/
def Obligations.StepKeepsTheInvariant : Prop :=
  ∀ s t : State, s.Inv → step s = .next t → t.Inv

/-- R47: every step keeps the zero pad of the decoder's data slots beyond their stored lengths, whoever takes the turn; of
a step that executes a DEC_DECODE this is said where the decoder is the reference one or the columns are consistent,
because otherwise its bytes are free (R203, log 5). -/
def Obligations.StepKeepsTheDecoderPad : Prop :=
  ∀ s t : State, s.Inv → s.dec.Padded → step s = .next t →
    ((∃ w n, s.pending = some w ∧ decodeWord w = .ok (.decDecode n) ∧ (s.agenda = [] ∨ s.agenda.head? = some .engine)) →
      s.cfg.decoder = .reference ∨ s.dec.Consistent s.cfg) →
    t.dec.Padded
end

