-- ==== Sys2Proof/Laws/Bits.lean ====
section
/-! SUPPORT. Laws of the array constructor, of the bus lanes (R82) and of the big-endian helpers (R15). -/

namespace Sys2Proof.Machine

@[simp] theorem length_tabulate {α : Type} (n : Nat) (f : Nat → α) : (tabulate n f).length = n := by
  simp [tabulate]

theorem getElem?_tabulate {α : Type} (n : Nat) (f : Nat → α) (i : Nat) :
    (tabulate n f)[i]? = if i < n then some (f i) else none := by
  by_cases h : i < n <;> simp [tabulate, h]

theorem getD_tabulate {α : Type} (n : Nat) (f : Nat → α) (i : Nat) (d : α) :
    (tabulate n f).getD i d = if i < n then f i else d := by
  rw [List.getD_eq_getElem?_getD, getElem?_tabulate]
  split <;> rfl

theorem getD_tabulate_of_lt {α : Type} {n : Nat} (f : Nat → α) {i : Nat} (d : α) (h : i < n) :
    (tabulate n f).getD i d = f i := by rw [getD_tabulate, if_pos h]

theorem mem_tabulate {α : Type} {n : Nat} {f : Nat → α} {x : α} : x ∈ tabulate n f ↔ ∃ i < n, f i = x := by
  simp [tabulate]

theorem tabulate_congr {α : Type} {n : Nat} {f g : Nat → α} (h : ∀ i < n, f i = g i) :
    tabulate n f = tabulate n g := by
  simp only [tabulate]
  exact List.map_congr_left fun i hi => h i (List.mem_range.mp hi)

theorem tabulate_const {α : Type} (n : Nat) (a : α) : (tabulate n fun _ => a) = List.replicate n a := by
  simp [tabulate]

/-- A list is the table of its entries. -/
theorem tabulate_getD {α : Type} (l : List α) (d : α) : (tabulate l.length fun i => l.getD i d) = l := by
  apply List.ext_getElem?
  intro i
  rw [getElem?_tabulate]
  by_cases h : i < l.length
  · simp [h]
  · simp [h]

theorem ext_getD {α : Type} {a b : List α} (d : α) (hl : a.length = b.length)
    (h : ∀ i < a.length, a.getD i d = b.getD i d) : a = b := by
  rw [← tabulate_getD a d, ← tabulate_getD b d, ← hl]
  exact tabulate_congr h

theorem getD_append_left {α : Type} (a b : List α) (d : α) {i : Nat} (h : i < a.length) :
    (a ++ b).getD i d = a.getD i d := by
  simp [List.getD_eq_getElem?_getD, List.getElem?_append_left h]

theorem getD_append_right {α : Type} (a b : List α) (d : α) (i : Nat) :
    (a ++ b).getD (a.length + i) d = b.getD i d := by
  simp [List.getD_eq_getElem?_getD, List.getElem?_append_right]

theorem getLsbD_laneOf (w : Word) (k i : Nat) : (laneOf w k).getLsbD i = (decide (i < 8) && w.getLsbD (8 * k + i)) := by
  simp [laneOf, BitVec.getLsbD_setWidth]

theorem laneOf_wordOfLanes_zero (b : Byte) (bs : List Byte) : laneOf (wordOfLanes (b :: bs)) 0 = b := by
  ext i hi
  simp [laneOf, wordOfLanes]

theorem laneOf_wordOfLanes_succ (b : Byte) (bs : List Byte) (k : Nat) (hk : k + 1 < 4) :
    laneOf (wordOfLanes (b :: bs)) (k + 1) = laneOf (wordOfLanes bs) k := by
  apply BitVec.eq_of_getLsbD_eq
  intro i hi
  have h1 : 8 * (k + 1) + i < 32 := by omega
  have h2 : ¬ 8 * (k + 1) + i < 8 := by omega
  have h3 : 8 * (k + 1) + i - 8 = 8 * k + i := by omega
  rw [getLsbD_laneOf, getLsbD_laneOf]
  have h4 : b.getLsbD (8 * (k + 1) + i) = false := BitVec.getLsbD_of_ge _ _ (by omega)
  simp [wordOfLanes, h1, h2, h3, hi, h4, BitVec.getLsbD_eq_getElem (show 8 * k + i < 32 by omega)]

/-- Lane `k` of a word of lanes is the listed byte, 0 past the list (R82). -/
theorem laneOf_wordOfLanes (bs : List Byte) (k : Nat) (hk : k < 4) :
    laneOf (wordOfLanes bs) k = bs.getD k 0 := by
  induction bs generalizing k with
  | nil => simp [laneOf, wordOfLanes]
  | cons b bs ih =>
    cases k with
    | zero => rw [laneOf_wordOfLanes_zero]; rfl
    | succ k => rw [laneOf_wordOfLanes_succ b bs k hk, ih k (by omega)]; rfl

/-- A word is the word of its four lanes. -/
theorem wordOfLanes_laneOf (w : Word) : wordOfLanes (tabulate 4 fun k => laneOf w k) = w := by
  apply BitVec.eq_of_getLsbD_eq
  intro i hi
  have h := congrArg (fun b => b.getLsbD (i % 8)) (laneOf_wordOfLanes (tabulate 4 fun k => laneOf w k) (i / 8) (by omega))
  have h8 : i % 8 < 8 := by omega
  have hi8 : 8 * (i / 8) + i % 8 = i := by omega
  rw [getD_tabulate_of_lt _ _ (by omega)] at h
  simpa only [getLsbD_laneOf, h8, hi8, decide_true, Bool.true_and] using h

theorem rdBe16_be16 (v : Half) (rest : List Byte) : rdBe16 (be16 v ++ rest) 0 = v.toNat := by
  simp [rdBe16, be16]
  omega

theorem length_be16 (v : Half) : (be16 v).length = 2 := rfl

theorem length_be32 (v : Word) : (be32 v).length = 4 := rfl

theorem rdBe32_be32 (v : Word) (rest : List Byte) : rdBe32 (be32 v ++ rest) 0 = v.toNat := by
  simp [rdBe32, be32]
  omega

end Sys2Proof.Machine
end

