-- ==== Sys2Proof/Laws/Bus.lean ====
section
/-! SUPPORT. The bus port: the STATUS word, alignment, mapping and lanes. -/

namespace Sys2Proof.Machine

/-- The flag bits of a STATUS word (R33). -/
theorem statusBits (a b c d e : Bool) (r : Byte) :
    let w := statusWord a b c d e r
    w.getLsbD 0 = a ∧ w.getLsbD 1 = b ∧ w.getLsbD 2 = c ∧ w.getLsbD 3 = d ∧ w.getLsbD 4 = e := by
  cases a <;> cases b <;> cases c <;> cases d <;> cases e <;> simp [statusWord, bitAt]

/-- RESULT and the reserved bits of a STATUS word (R33). -/
theorem statusByte (a b c d e : Bool) (r : Byte) :
    (statusWord a b c d e r).toNat / 256 = r.toNat ∧ (statusWord a b c d e r).toNat / 32 % 8 = 0 := by
  have hflags : (bitAt 0 a ||| bitAt 1 b ||| bitAt 2 c ||| bitAt 3 d ||| bitAt 4 e).toNat < 32 := by
    revert a b c d e; decide
  have hr := r.isLt
  have h : (statusWord a b c d e r).toNat =
      r.toNat * 256 + (bitAt 0 a ||| bitAt 1 b ||| bitAt 2 c ||| bitAt 3 d ||| bitAt 4 e).toNat := by
    generalize hf : bitAt 0 a ||| bitAt 1 b ||| bitAt 2 c ||| bitAt 3 d ||| bitAt 4 e = f at *
    rw [statusWord, hf, BitVec.toNat_or, BitVec.toNat_shiftLeft, BitVec.toNat_setWidth, Nat.lor_comm,
      Nat.mod_eq_of_lt (a := r.toNat) (by omega), Nat.mod_eq_of_lt (by rw [Nat.shiftLeft_eq]; omega),
      ← Nat.shiftLeft_add_eq_or_of_lt (by omega), Nat.shiftLeft_eq]
  omega

/-- An aligned access outside the register region, or a 32-bit one, is no bus error (R84). -/
theorem busError_ok {a : Nat} {wd : Width} (h1 : a % wd.bytes = 0) (h2 : inBase ≤ a ∨ wd = .w4) : busError a wd = false := by
  simp only [busError, h1, ne_eq, not_true, decide_false, Bool.false_or, Bool.and_eq_false_iff, decide_eq_false_iff_not]
  rcases h2 with h | h
  · left; omega
  · right; simp [h]

/-- No register is mapped from 0x40 on (R33). -/
theorem regAt_none {a : Nat} (h : 0x40 ≤ a) : regAt a = none := by
  unfold regAt
  split <;> first | rfl | (rename_i hh; omega)

theorem wordOfLanes_zero (n : Nat) : wordOfLanes (tabulate n fun _ => 0) = 0 := by
  rw [tabulate_const]
  induction n with
  | zero => rfl
  | succ n ih => rw [List.replicate_succ, wordOfLanes, ih]; rfl

/-- A word of lanes has no bit above its lanes (R82). -/
theorem toNat_wordOfLanes (bs : List Byte) (h : bs.length ≤ 4) : (wordOfLanes bs).toNat < 2 ^ (8 * bs.length) := by
  induction bs with
  | nil => simp [wordOfLanes]
  | cons b bs ih =>
    have ih := ih (by simp at h; omega)
    rw [wordOfLanes, BitVec.toNat_or, BitVec.toNat_shiftLeft]
    apply Nat.or_lt_two_pow
    · have : 2 ^ (8 * (b :: bs).length) = 2 ^ (8 * bs.length) * 2 ^ 8 := by rw [← pow_add]; simp [Nat.mul_add]
      rw [this, Nat.shiftLeft_eq]
      refine lt_of_le_of_lt (Nat.mod_le _ _) ?_
      exact Nat.mul_lt_mul_of_pos_right ih (by decide)
    · have h8 : (b.setWidth 32 : Word).toNat < 2^8 := by
        rw [BitVec.toNat_setWidth]; exact lt_of_le_of_lt (Nat.mod_le _ _) b.isLt
      exact lt_of_lt_of_le h8 (Nat.pow_le_pow_right (by decide) (by simp))

/-- The widths, and that both buffer windows are aligned for each (R81, R86). -/
theorem width_bytes (wd : Width) :
    wd.bytes ≤ 4 ∧ 1 ≤ wd.bytes ∧ 0x10000 % wd.bytes = 0 ∧ 0x20000 % wd.bytes = 0 := by cases wd <;> decide

end Sys2Proof.Machine
end

