-- ==== Sys2Proof/Laws/Checksum.lean ====
section
/-! SUPPORT. Laws of the checksum register: a shift commutes with XOR and loses nothing (R250, R252). -/

namespace Sys2Proof.Machine

theorem crcShift_xor (a b : Half) : crcShift (a ^^^ b) = crcShift a ^^^ crcShift b := by
  have swap : ∀ x y z : Half, (x ^^^ y) ^^^ z = (x ^^^ z) ^^^ y := fun x y z => by
    rw [BitVec.xor_assoc, BitVec.xor_comm y, BitVec.xor_assoc]
  simp only [crcShift, BitVec.msb_xor, BitVec.shiftLeft_xor_distrib]
  cases a.msb <;> cases b.msb
  · rfl
  · exact BitVec.xor_assoc _ _ _
  · simp only [Bool.xor_false, if_true]
    exact swap _ _ _
  · simp only [Bool.xor_self, if_true]
    have four : ∀ x y z : Half, x ^^^ y = (x ^^^ z) ^^^ (y ^^^ z) := fun x y z => by
      rw [BitVec.xor_comm y z, ← BitVec.xor_assoc, BitVec.xor_assoc x, BitVec.xor_self, BitVec.xor_zero]
    exact four _ _ _

/-- The register is 0 after a shift only if it was 0 before. -/
theorem crcShift_eq_zero {a : Half} (h : crcShift a = 0) : a = 0 := by
  unfold crcShift at h
  split at h
  · have := congrArg (fun x : Half => x.getLsbD 0) h
    simp at this
  · rename_i hm
    ext i hi
    by_cases h15 : i = 15
    · subst h15
      simpa [BitVec.msb_eq_getLsbD_last, BitVec.getLsbD_eq_getElem] using hm
    · have := congrArg (fun x : Half => x.getLsbD (i + 1)) h
      simpa [show i + 1 < 16 by omega] using this

theorem crcShifts_xor (n : Nat) (a b : Half) : crcShifts n (a ^^^ b) = crcShifts n a ^^^ crcShifts n b := by
  induction n generalizing a b with
  | zero => rfl
  | succ n ih => rw [crcShifts, crcShift_xor, ih]; rfl

theorem crcShifts_eq_zero {n : Nat} {a : Half} (h : crcShifts n a = 0) : a = 0 := by
  induction n generalizing a with
  | zero => exact h
  | succ n ih => exact crcShift_eq_zero (ih h)

theorem crc16_append (init : Half) (a b : List Byte) : crc16 init (a ++ b) = crc16 (crc16 init a) b :=
  List.foldl_append ..

end Sys2Proof.Machine
end

