-- ==== Sys2Proof/Laws/Field.lean ====
section
/-! SUPPORT. Laws of symbol arithmetic (R240, R241): for every field polynomial, multiplication is commutative,
associative, distributes over XOR and has the unit 0x01; in the reference field no product of non-zero symbols is 0. -/

namespace Sys2Proof.Machine

theorem xor_swap (a b c d : Byte) : (a ^^^ b) ^^^ (c ^^^ d) = (a ^^^ c) ^^^ (b ^^^ d) := by
  rw [BitVec.xor_assoc, BitVec.xor_assoc, ← BitVec.xor_assoc b, BitVec.xor_comm b c, BitVec.xor_assoc c]

theorem byte_zero_xor (a : Byte) : 0 ^^^ a = a := BitVec.zero_xor

theorem byte_xor_zero (a : Byte) : a ^^^ 0 = a := BitVec.xor_zero

theorem xor_eq_zero {a b : Byte} : a ^^^ b = 0 ↔ a = b := by
  constructor
  · intro h
    have := congrArg (· ^^^ b) h
    simpa [BitVec.xor_assoc] using this
  · rintro rfl
    exact BitVec.xor_self

/-! ### Sums -/

theorem xorSum_xor (n : Nat) (f g : Nat → Byte) :
    xorSum n (fun i => f i ^^^ g i) = xorSum n f ^^^ xorSum n g := by
  induction n with
  | zero => simp [xorSum]
  | succ n ih => simp only [xorSum, ih, xor_swap]

theorem xorSum_congr {n : Nat} {f g : Nat → Byte} (h : ∀ i < n, f i = g i) : xorSum n f = xorSum n g := by
  induction n with
  | zero => rfl
  | succ n ih => rw [xorSum, xorSum, ih fun i hi => h i (by omega), h n (by omega)]

theorem xorSum_zero (n : Nat) : xorSum n (fun _ => 0) = 0 := by
  induction n with
  | zero => rfl
  | succ n ih => rw [xorSum, ih]; rfl

/-- The first summand apart. -/
theorem xorSum_head (n : Nat) (f : Nat → Byte) : xorSum (n + 1) f = f 0 ^^^ xorSum n fun i => f (i + 1) := by
  induction n with
  | zero => simp [xorSum]
  | succ n ih => rw [xorSum, ih, xorSum, BitVec.xor_assoc]

/-- A map of bytes that commutes with XOR. -/
def Additive (f : Byte → Byte) : Prop := ∀ a b, f (a ^^^ b) = f a ^^^ f b

theorem Additive.zero {f : Byte → Byte} (hf : Additive f) : f 0 = 0 := by
  have h := hf 0 0
  rw [show (0 : Byte) ^^^ 0 = 0 from rfl] at h
  have h := congrArg (· ^^^ f 0) h
  simpa [BitVec.xor_assoc] using h.symm

theorem Additive.comp {f g : Byte → Byte} (hf : Additive f) (hg : Additive g) : Additive fun a => f (g a) := fun a b => by
  show f (g (a ^^^ b)) = _
  rw [hg, hf]

theorem Additive.xorSum {f : Byte → Byte} (hf : Additive f) (n : Nat) (u : Nat → Byte) :
    f (xorSum n u) = Machine.xorSum n fun i => f (u i) := by
  induction n with
  | zero => exact hf.zero
  | succ n ih => rw [Machine.xorSum, hf, ih]; rfl

/-- A byte is the sum of its bits. -/
theorem byte_bits (a : Byte) :
    a = xorSum 8 fun j => if a.getLsbD j then BitVec.ofNat 8 (2 ^ j) else 0 := by
  revert a; decide +kernel

/-- Additive maps that agree on the eight single bits are equal. -/
theorem Additive.ext {f g : Byte → Byte} (hf : Additive f) (hg : Additive g)
    (h : ∀ j < 8, f (BitVec.ofNat 8 (2 ^ j)) = g (BitVec.ofNat 8 (2 ^ j))) (a : Byte) : f a = g a := by
  rw [byte_bits a, hf.xorSum, hg.xorSum]
  refine xorSum_congr fun j hj => ?_
  split
  · exact h j hj
  · rw [hf.zero, hg.zero]

/-! ### Multiplication by powers of x -/

theorem gfTimesX_additive (p : Byte) : Additive (gfTimesX p) := by
  intro a b
  simp only [gfTimesX, BitVec.msb_xor, BitVec.shiftLeft_xor_distrib]
  cases a.msb <;> cases b.msb
  · rfl
  · exact BitVec.xor_assoc _ _ _
  · simp only [Bool.xor_false, if_true]
    rw [BitVec.xor_assoc, BitVec.xor_comm (b <<< 1), ← BitVec.xor_assoc]
    rfl
  · simp only [Bool.xor_self, if_true]
    rw [xor_swap, BitVec.xor_self, BitVec.xor_zero]
    rfl

/-- `a·x^k`. -/
def gfShift (p : Byte) : Nat → Byte → Byte
  | 0, a => a
  | k + 1, a => gfTimesX p (gfShift p k a)

theorem gfShift_additive (p : Byte) (k : Nat) : Additive (gfShift p k) := by
  induction k with
  | zero => exact fun _ _ => rfl
  | succ k ih => exact (gfTimesX_additive p).comp ih

theorem gfShift_add (p : Byte) (j k : Nat) (a : Byte) : gfShift p (j + k) a = gfShift p j (gfShift p k a) := by
  induction j with
  | zero => rw [Nat.zero_add]; rfl
  | succ j ih => rw [Nat.succ_add, gfShift, ih]; rfl

theorem gfShift_timesX (p : Byte) (k : Nat) (a : Byte) : gfShift p k (gfTimesX p a) = gfTimesX p (gfShift p k a) :=
  (gfShift_add p k 1 a).symm.trans ((congrArg (gfShift p · a) (Nat.add_comm k 1)).trans (gfShift_add p 1 k a))

theorem gfTimesX_low (p : Byte) {a : Byte} (h : a.msb = false) : gfTimesX p a = a <<< 1 := by rw [gfTimesX, h]; rfl

/-- Below x^8 the powers of x are the single bits. -/
theorem gfShift_one (p : Byte) {j : Nat} (hj : j < 8) : gfShift p j 1 = BitVec.ofNat 8 (2 ^ j) := by
  induction j with
  | zero => rfl
  | succ j ih =>
    have h : ∀ j < 7, (BitVec.ofNat 8 (2 ^ j)).msb = false ∧ BitVec.ofNat 8 (2 ^ j) <<< 1 = BitVec.ofNat 8 (2 ^ (j + 1)) := by
      decide
    obtain ⟨h1, h2⟩ := h j (by omega)
    rw [gfShift, ih (by omega), gfTimesX_low p h1, h2]

/-- x^8 is p (R241). -/
theorem gfShift_eight (p : Byte) : gfShift p 8 1 = p := by
  rw [gfShift, gfShift_one p (by decide), gfTimesX, if_pos (by decide)]
  simp

/-! ### Multiplication -/

theorem gfMulBits_eq (p : Byte) (n : Nat) (a b : Byte) :
    gfMulBits p n a b = xorSum n fun k => if b.getLsbD k then gfShift p k a else 0 := by
  induction n generalizing a b with
  | zero => rfl
  | succ n ih =>
    rw [gfMulBits, xorSum_head, ih]
    refine congrArg _ (xorSum_congr fun k _ => ?_)
    rw [BitVec.getLsbD_ushiftRight, Nat.add_comm 1 k, gfShift_timesX]
    rfl

/-- The product as a sum over the bits of the second factor. -/
theorem gfMulMod_eq (p a b : Byte) : gfMulMod p a b = xorSum 8 fun k => if b.getLsbD k then gfShift p k a else 0 :=
  gfMulBits_eq p 8 a b

theorem gfMulMod_additive_left (p b : Byte) : Additive fun a => gfMulMod p a b := fun a a' => by
  simp only [gfMulMod_eq]
  rw [← xorSum_xor]
  refine xorSum_congr fun k _ => ?_
  split
  · exact gfShift_additive p k a a'
  · rfl

theorem gfMulMod_additive_right (p a : Byte) : Additive fun b => gfMulMod p a b := fun b b' => by
  simp only [gfMulMod_eq]
  rw [← xorSum_xor]
  refine xorSum_congr fun k _ => ?_
  rw [BitVec.getLsbD_xor]
  cases b.getLsbD k <;> cases b'.getLsbD k <;> simp

/-- Multiplying by a single bit is multiplying by that power of x. -/
theorem gfMulMod_bit (p a : Byte) {j : Nat} (hj : j < 8) : gfMulMod p a (BitVec.ofNat 8 (2 ^ j)) = gfShift p j a := by
  rw [gfMulMod_eq]
  match j, hj with
  | 0, _ => simp [xorSum]
  | 1, _ => simp [xorSum]
  | 2, _ => simp [xorSum]
  | 3, _ => simp [xorSum]
  | 4, _ => simp [xorSum]
  | 5, _ => simp [xorSum]
  | 6, _ => simp [xorSum]
  | 7, _ => simp [xorSum]

theorem gfMulMod_comm (p a b : Byte) : gfMulMod p a b = gfMulMod p b a := by
  refine (gfMulMod_additive_right p a).ext (gfMulMod_additive_left p a) (fun j hj => ?_) b
  refine (gfMulMod_additive_left p _).ext (gfMulMod_additive_right p _) (fun i hi => ?_) a
  rw [gfMulMod_bit p _ hj, gfMulMod_bit p _ hi, ← gfShift_one p hj, ← gfShift_one p hi, ← gfShift_add, ← gfShift_add,
    Nat.add_comm]

theorem gfMulMod_one (p a : Byte) : gfMulMod p a 1 = a := gfMulMod_bit p a (j := 0) (by decide)

/-- A product with a multiple of x. -/
theorem gfMulMod_timesX (p a b : Byte) : gfMulMod p a (gfTimesX p b) = gfTimesX p (gfMulMod p a b) := by
  refine ((gfMulMod_additive_right p a).comp (gfTimesX_additive p)).ext
    ((gfTimesX_additive p).comp (gfMulMod_additive_right p a)) (fun j hj => ?_) b
  show gfMulMod p a (gfTimesX p (BitVec.ofNat 8 (2 ^ j))) = gfTimesX p (gfMulMod p a (BitVec.ofNat 8 (2 ^ j)))
  rw [gfMulMod_bit p a hj, ← gfShift_one p hj]
  show gfMulMod p a (gfShift p (j + 1) 1) = gfShift p (j + 1) a
  by_cases h7 : j + 1 < 8
  · rw [gfShift_one p h7, gfMulMod_bit p a h7]
  · rw [show j + 1 = 8 by omega, gfShift_eight]
    refine (gfMulMod_additive_left p p).ext (gfShift_additive p 8) (fun i hi => ?_) a
    rw [gfMulMod_comm, gfMulMod_bit p p hi, ← gfShift_one p hi, ← gfShift_add, Nat.add_comm, gfShift_add, gfShift_eight]

theorem gfMulMod_shift (p a b : Byte) (k : Nat) : gfMulMod p a (gfShift p k b) = gfShift p k (gfMulMod p a b) := by
  induction k with
  | zero => rfl
  | succ k ih => rw [gfShift, gfMulMod_timesX, ih]; rfl

theorem gfMulMod_assoc (p a b c : Byte) : gfMulMod p (gfMulMod p a b) c = gfMulMod p a (gfMulMod p b c) := by
  refine (gfMulMod_additive_right p (gfMulMod p a b)).ext
    ((gfMulMod_additive_right p a).comp (gfMulMod_additive_right p b)) (fun j hj => ?_) c
  show gfMulMod p (gfMulMod p a b) _ = gfMulMod p a (gfMulMod p b _)
  rw [gfMulMod_bit p _ hj, gfMulMod_bit p b hj, gfMulMod_shift]

theorem gfMulMod_zero_left (p b : Byte) : gfMulMod p 0 b = 0 := (gfMulMod_additive_left p b).zero

theorem gfMulMod_zero_right (p a : Byte) : gfMulMod p a 0 = 0 := (gfMulMod_additive_right p a).zero

/-! ### The reference field -/

/-- Multiplication distributes over XOR in the multiplicand. -/
theorem gfMul_xor (a a' b : Byte) : gfMul (a ^^^ a') b = gfMul a b ^^^ gfMul a' b := gfMulMod_additive_left gfPoly b a a'

theorem gfMul_xor_right (a b b' : Byte) : gfMul a (b ^^^ b') = gfMul a b ^^^ gfMul a b' :=
  gfMulMod_additive_right gfPoly a b b'

theorem gfMul_zero (b : Byte) : gfMul 0 b = 0 := gfMulMod_zero_left gfPoly b

theorem gfMul_zero_right (a : Byte) : gfMul a 0 = 0 := gfMulMod_zero_right gfPoly a

theorem gfPow_add (a : Byte) (m n : Nat) : gfPow a (m + n) = gfMul (gfPow a m) (gfPow a n) := by
  induction n with
  | zero => exact (gfMulMod_one gfPoly _).symm
  | succ n ih =>
    rw [← Nat.add_assoc, gfPow, ih, gfPow]
    exact gfMulMod_assoc gfPoly _ _ _

theorem gfPow_mul (a : Byte) (m n : Nat) : gfPow a (m * n) = gfPow (gfPow a m) n := by
  induction n with
  | zero => rfl
  | succ n ih => rw [Nat.mul_succ, gfPow_add, ih, gfPow]

/-- The powers of α are the multiples of 1 by powers of x. -/
theorem gfPow_alpha (e : Nat) : gfPow gfAlpha e = gfShift gfPoly e 1 := by
  induction e with
  | zero => rfl
  | succ e ih =>
    rw [gfPow, ih]
    exact gfMulMod_bit gfPoly _ (j := 1) (by decide)

/-- The order of α is 255 (R241). -/
theorem gfShift_order : gfShift gfPoly 255 1 = 1 ∧ ∀ d < 255, d ≠ 0 → gfShift gfPoly d 1 ≠ 1 := by decide +kernel

theorem mem_iterate_gfShift {n : Nat} {a b : Byte} (h : b ∈ List.iterate (gfTimesX gfPoly) a n) :
    ∃ e < n, gfShift gfPoly e a = b := by
  induction n generalizing a with
  | zero => cases h
  | succ n ih =>
    rcases List.mem_cons.mp h with rfl | h
    · exact ⟨0, by omega, rfl⟩
    · obtain ⟨e, he, rfl⟩ := ih h
      exact ⟨e + 1, by omega, (gfShift_timesX gfPoly e a).symm⟩

/-- Every non-zero symbol is a power of α (R241). -/
theorem exists_gfPow_alpha {a : Byte} (ha : a ≠ 0) : ∃ e < 255, gfPow gfAlpha e = a := by
  have h : ∀ a : Byte, a ≠ 0 → a ∈ List.iterate (gfTimesX gfPoly) 1 255 := by decide +kernel
  obtain ⟨e, he, hea⟩ := mem_iterate_gfShift (h a ha)
  exact ⟨e, he, (gfPow_alpha e).trans hea⟩

/-- A non-zero symbol has a multiple that is 1, so multiplying by it loses nothing. -/
theorem gfMul_eq_zero {a b : Byte} (ha : a ≠ 0) (h : gfMul a b = 0) : b = 0 := by
  obtain ⟨e, he, rfl⟩ := exists_gfPow_alpha ha
  have h1 : gfMul (gfPow gfAlpha (255 - e)) (gfPow gfAlpha e) = 1 := by
    rw [← gfPow_add, Nat.sub_add_cancel (by omega), gfPow_alpha]
    exact gfShift_order.1
  have h2 : gfMul (gfMul (gfPow gfAlpha (255 - e)) (gfPow gfAlpha e)) b = 0 :=
    (gfMulMod_assoc gfPoly _ _ _).trans ((congrArg (gfMul _) h).trans (gfMul_zero_right _))
  rw [h1] at h2
  exact ((gfMulMod_one gfPoly b).symm.trans (gfMulMod_comm gfPoly b 1)).trans h2

theorem gfPow_alpha_ne_zero (e : Nat) : gfPow gfAlpha e ≠ 0 := by
  intro h
  have h1 : gfPow gfAlpha (e * 255) = 1 := by
    rw [Nat.mul_comm, gfPow_mul, gfPow_alpha, gfShift_order.1]
    have : ∀ n, gfPow 1 n = 1 := fun n => by
      induction n with
      | zero => rfl
      | succ n ih => rw [gfPow, ih]; rfl
    exact this e
  rw [gfPow_mul, h] at h1
  exact absurd h1 (by decide +kernel)

/-- The first 255 powers of α are distinct (R241). -/
theorem gfPow_alpha_injective {d e : Nat} (hd : d < 255) (he : e < 255) (h : gfPow gfAlpha d = gfPow gfAlpha e) : d = e := by
  wlog hle : d ≤ e generalizing d e
  · exact (this he hd h.symm (by omega)).symm
  by_contra hne
  refine gfShift_order.2 (e - d) (by omega) (by omega) ?_
  rw [← gfPow_alpha]
  have h0 : gfMul (gfPow gfAlpha d) (gfPow gfAlpha (e - d) ^^^ 1) = 0 := by
    rw [gfMul_xor_right, ← gfPow_add, show d + (e - d) = e by omega, h]
    exact xor_eq_zero.mpr (gfMulMod_one gfPoly _).symm
  exact xor_eq_zero.mp (gfMul_eq_zero (gfPow_alpha_ne_zero d) h0)

end Sys2Proof.Machine
end

