-- ==== Sys2Proof/Laws/Codec.lean ====
section
/-! SUPPORT. Laws of the codec: the encoder is systematic and commutes with XOR (R244), and the elimination keeps exactly
the codewords that agree with the known symbols (R246). -/

namespace Sys2Proof.Machine

/-! ### XOR of byte sequences -/

theorem length_xorBytes (a b : List Byte) : (xorBytes a b).length = min a.length b.length := by
  simp [xorBytes]

theorem length_xorBytes_of_eq {a b : List Byte} {n : Nat} (ha : a.length = n) (hb : b.length = n) :
    (xorBytes a b).length = n := by
  rw [length_xorBytes, ha, hb, Nat.min_self]

theorem getD_xorBytes {a b : List Byte} (h : a.length = b.length) (t : Nat) :
    (xorBytes a b).getD t 0 = a.getD t 0 ^^^ b.getD t 0 := by
  by_cases ht : t < a.length
  · simp [xorBytes, ht, ← h]
  · have hb : ¬ t < b.length := h ▸ ht
    simp [xorBytes, ht, hb]

theorem bitOf_xorBytes {a b : List Byte} (h : a.length = b.length) (q : Nat) :
    bitOf (xorBytes a b) q = (bitOf a q ^^ bitOf b q) := by
  rw [bitOf, getD_xorBytes h, BitVec.getLsbD_xor]
  rfl

theorem xorBytes_comm (a b : List Byte) : xorBytes a b = xorBytes b a := by
  simp only [xorBytes]
  rw [List.zipWith_comm]
  simp [BitVec.xor_comm]

theorem xorBytes_assoc (a b c : List Byte) : xorBytes (xorBytes a b) c = xorBytes a (xorBytes b c) := by
  induction a generalizing b c with
  | nil => simp [xorBytes]
  | cons x a ih =>
    cases b with
    | nil => simp [xorBytes]
    | cons y b =>
      cases c with
      | nil => simp [xorBytes]
      | cons z c =>
        have := ih b c
        simp only [xorBytes] at this
        simp [xorBytes, this, BitVec.xor_assoc]

theorem xorBytes_cancel {a v : List Byte} (h : a.length = v.length) : xorBytes (xorBytes a v) v = a := by
  apply ext_getD 0
  · simp [length_xorBytes, h]
  · intro i _
    rw [getD_xorBytes (by simp [length_xorBytes, h]), getD_xorBytes h, BitVec.xor_assoc, BitVec.xor_self, BitVec.xor_zero]

theorem xorBytes_append {a b c d : List Byte} (h : a.length = c.length) :
    xorBytes (a ++ b) (c ++ d) = xorBytes a c ++ xorBytes b d := by
  simp only [xorBytes]
  exact List.zipWith_append h

/-! ### The encoder -/

theorem length_genPoly (n : Nat) : (genPoly n).length = n + 1 := by
  induction n with
  | zero => rfl
  | succ n ih => simp [genPoly, length_xorBytes, ih]

theorem length_divStep {g rem : List Byte} (h : g.length = rem.length) (b : Byte) :
    (divStep g rem b).length = rem.length := by
  simp only [divStep, length_xorBytes, List.length_append, List.length_drop, List.length_map, List.length_singleton]
  omega

theorem headD_xorBytes {a b : List Byte} (h : a.length = b.length) :
    (xorBytes a b).headD 0 = a.headD 0 ^^^ b.headD 0 := by
  cases a <;> cases b <;> simp_all [xorBytes]

theorem divStep_xor {g r r' : List Byte} (h : r.length = r'.length) (b b' : Byte) :
    divStep g (xorBytes r r') (b ^^^ b') = xorBytes (divStep g r b) (divStep g r' b') := by
  have hd : (xorBytes r r').drop 1 ++ [0] = xorBytes (r.drop 1 ++ [0]) (r'.drop 1 ++ [0]) := by
    rw [xorBytes_append (by simp [h])]
    simp [xorBytes, List.drop_zipWith]
  have hm : g.map (gfMul ((b ^^^ b') ^^^ (r.headD 0 ^^^ r'.headD 0))) =
      xorBytes (g.map (gfMul (b ^^^ r.headD 0))) (g.map (gfMul (b' ^^^ r'.headD 0))) := by
    rw [xor_swap]
    simp only [xorBytes, List.zipWith_map, List.zipWith_self]
    exact List.map_congr_left fun x _ => gfMul_xor _ _ x
  simp only [divStep]
  rw [headD_xorBytes h, hd, hm, xorBytes_assoc, xorBytes_assoc, ← xorBytes_assoc (r'.drop 1 ++ [0]),
    xorBytes_comm (r'.drop 1 ++ [0]), xorBytes_assoc]

theorem foldl_divStep_xor {g : List Byte} {a b r r' : List Byte} (hab : a.length = b.length)
    (hr : g.length = r.length) (hr' : g.length = r'.length) :
    (xorBytes a b).foldl (divStep g) (xorBytes r r') = xorBytes (a.foldl (divStep g) r) (b.foldl (divStep g) r') := by
  induction a generalizing b r r' with
  | nil =>
    cases b with
    | nil => rfl
    | cons y b => simp at hab
  | cons x a ih =>
    cases b with
    | nil => simp at hab
    | cons y b =>
      have hx : xorBytes (x :: a) (y :: b) = (x ^^^ y) :: xorBytes a b := rfl
      rw [hx, List.foldl_cons, List.foldl_cons, List.foldl_cons, divStep_xor (hr.symm.trans hr')]
      exact ih (by simpa using hab) (by rw [length_divStep hr]; exact hr) (by rw [length_divStep hr']; exact hr')

theorem length_foldl_divStep {g : List Byte} (a r : List Byte) (hr : g.length = r.length) :
    (a.foldl (divStep g) r).length = r.length := by
  induction a generalizing r with
  | nil => rfl
  | cons x a ih => rw [List.foldl_cons, ih _ (by rw [length_divStep hr]; exact hr), length_divStep hr]

theorem length_referenceParity (m : Nat) (msg : List Byte) : (referenceParity m msg).length = m := by
  rw [referenceParity, length_foldl_divStep _ _ (by simp [length_genPoly])]
  simp

theorem referenceParity_xor (m : Nat) {a b : List Byte} (h : a.length = b.length) :
    referenceParity m (xorBytes a b) = xorBytes (referenceParity m a) (referenceParity m b) := by
  have hz : xorBytes (List.replicate m 0) (List.replicate m 0) = List.replicate m (0 : Byte) := by
    simp [xorBytes]
  have := foldl_divStep_xor (g := (genPoly m).drop 1) (r := List.replicate m 0) (r' := List.replicate m 0) h
    (by simp [length_genPoly]) (by simp [length_genPoly])
  rw [hz] at this
  exact this

theorem matrixParityByte_xor (p : Byte) (t : List (List Byte)) (k j : Nat) {a b : List Byte} (h : a.length = b.length) :
    matrixParityByte p t k (xorBytes a b) j = matrixParityByte p t k a j ^^^ matrixParityByte p t k b j := by
  simp only [matrixParityByte]
  rw [← xorSum_xor]
  refine xorSum_congr fun i _ => ?_
  rw [getD_xorBytes h]
  exact gfMulMod_additive_left p _ _ _

theorem length_parityOf (c : Config) (msg : List Byte) : (parityOf c msg).length = c.m := by
  unfold parityOf
  split
  · exact length_referenceParity _ _
  · exact length_tabulate _ _

theorem parityOf_xor (c : Config) {a b : List Byte} (h : a.length = b.length) :
    parityOf c (xorBytes a b) = xorBytes (parityOf c a) (parityOf c b) := by
  unfold parityOf
  split
  · exact referenceParity_xor _ h
  · apply ext_getD 0
    · simp [length_xorBytes]
    · intro j hj
      rw [length_tabulate] at hj
      rw [getD_xorBytes (by simp), getD_tabulate_of_lt _ _ hj, getD_tabulate_of_lt _ _ hj, getD_tabulate_of_lt _ _ hj]
      exact matrixParityByte_xor _ _ _ _ h

theorem length_codewordOf (c : Config) {msg : List Byte} (h : msg.length = c.k) :
    (codewordOf c msg).length = c.k + c.m := by
  rw [codewordOf, List.length_append, h, length_parityOf]

/-- The encoder commutes with XOR (R244). -/
theorem codewordOf_xor (c : Config) {a b : List Byte} (h : a.length = b.length) :
    codewordOf c (xorBytes a b) = xorBytes (codewordOf c a) (codewordOf c b) := by
  rw [codewordOf, codewordOf, codewordOf, parityOf_xor c h, xorBytes_append h]

/-! #### Scalars (R244) -/

/-- An additive map of symbols commutes with the sum of sequences. -/
theorem scale_xorBytes {f : Byte → Byte} (hf : Additive f) (a b : List Byte) :
    (xorBytes a b).map f = xorBytes (a.map f) (b.map f) := by
  simp only [xorBytes, List.map_zipWith, List.zipWith_map]
  congr 1
  funext x y
  exact hf x y

theorem divStep_scale (x : Byte) (g rem : List Byte) (b : Byte) :
    (divStep g rem b).map (gfMul x) = divStep g (rem.map (gfMul x)) (gfMul x b) := by
  have hx : Additive (gfMul x) := gfMulMod_additive_right gfPoly x
  have h0 : gfMul x 0 = 0 := hx.zero
  have hh : (rem.map (gfMul x)).headD 0 = gfMul x (rem.headD 0) := by
    cases rem with
    | nil => exact h0.symm
    | cons y ys => rfl
  simp only [divStep]
  rw [scale_xorBytes hx, hh, ← hx, List.map_append, List.map_drop, List.map_map, List.map_singleton, h0]
  congr 1
  exact List.map_congr_left fun y _ => (gfMulMod_assoc gfPoly x _ y).symm

theorem referenceParity_scale (x : Byte) (m : Nat) (msg : List Byte) :
    referenceParity m (msg.map (gfMul x)) = (referenceParity m msg).map (gfMul x) := by
  have h : ∀ (g r msg : List Byte), (msg.map (gfMul x)).foldl (divStep g) (r.map (gfMul x)) =
      (msg.foldl (divStep g) r).map (gfMul x) := fun g r msg => by
    induction msg generalizing r with
    | nil => rfl
    | cons b msg ih => rw [List.map_cons, List.foldl_cons, List.foldl_cons, ← divStep_scale, ih]
  have hz : (List.replicate m (0 : Byte)).map (gfMul x) = List.replicate m 0 := by
    rw [List.map_replicate, gfMul_zero_right]
  rw [referenceParity, referenceParity, ← h, hz]

theorem matrixParityByte_scale (p x : Byte) (t : List (List Byte)) (k j : Nat) (msg : List Byte) :
    matrixParityByte p t k (msg.map (gfMulMod p x)) j = gfMulMod p x (matrixParityByte p t k msg j) := by
  have hx := gfMulMod_additive_right p x
  simp only [matrixParityByte]
  rw [hx.xorSum]
  refine xorSum_congr fun i _ => ?_
  have hg : (msg.map (gfMulMod p x)).getD i 0 = gfMulMod p x (msg.getD i 0) := by
    by_cases hi : i < msg.length
    · simp [hi]
    · simp [hi]; exact (gfMulMod_zero_right p x).symm
  rw [hg, gfMulMod_assoc]

/-- The encoder commutes with multiplication by a symbol of the code's field (R244). -/
theorem codewordOf_scale (c : Config) (x : Byte) (msg : List Byte) :
    codewordOf c (msg.map (gfMulMod (fieldPoly c) x)) = (codewordOf c msg).map (gfMulMod (fieldPoly c) x) := by
  rw [codewordOf, codewordOf, List.map_append]
  congr 1
  cases h : c.code with
  | reference => simp only [parityOf, fieldPoly, h]; exact referenceParity_scale x c.m msg
  | matrix p t =>
    simp only [parityOf, fieldPoly, h, tabulate, List.map_map]
    exact List.map_congr_left fun j _ => matrixParityByte_scale p x t c.k j msg

theorem xorBytes_self (a : List Byte) : xorBytes a a = List.replicate a.length 0 := by
  simp [xorBytes, List.map_const']

/-- The zero message has the zero codeword (R244). -/
theorem codewordOf_zero (c : Config) : codewordOf c (List.replicate c.k 0) = List.replicate (c.k + c.m) 0 := by
  have hz : xorBytes (List.replicate c.k 0) (List.replicate c.k 0) = List.replicate c.k (0 : Byte) := by
    simp [xorBytes]
  have h := codewordOf_xor c (a := List.replicate c.k 0) (b := List.replicate c.k 0) rfl
  rw [hz, xorBytes_self, length_codewordOf c (by simp)] at h
  exact h

/-- RS_ENC succeeds exactly on K-byte columns (R244). -/
theorem rsEnc_of_length (c : Config) {msg : List Byte} (h : msg.length = c.k) : rsEnc c msg = some (codewordOf c msg) := by
  rw [rsEnc, if_pos h]

/-! ### The elimination -/

/-- The codewords a solution set stands for. -/
inductive Solutions.Reach (s : Solutions) : List Byte → Prop where
  | base : Reach s s.base
  | add {w v : List Byte} : Reach s w → v ∈ s.dirs → Reach s (xorBytes w v)

/-- Every sequence of a solution set has length `n`. -/
def Solutions.Sized (n : Nat) (s : Solutions) : Prop := s.base.length = n ∧ ∀ v ∈ s.dirs, v.length = n

theorem Solutions.Reach.length {n : Nat} {s : Solutions} (hs : s.Sized n) {w : List Byte} (h : s.Reach w) :
    w.length = n := by
  induction h with
  | base => exact hs.1
  | add _ hv ih => exact length_xorBytes_of_eq ih (hs.2 _ hv)

/-- What `takePivot` finds: a direction with the bit set, and the rest of them. -/
theorem takePivot_some {q : Nat} {dirs : List (List Byte)} {v : List Byte} {vs : List (List Byte)}
    (h : takePivot q dirs = some (v, vs)) : bitOf v q = true ∧ ∀ u, u ∈ dirs ↔ u = v ∨ u ∈ vs := by
  induction dirs generalizing v vs with
  | nil => cases h
  | cons d ds ih =>
    simp only [takePivot] at h
    split at h
    · cases h
      exact ⟨‹_›, fun u => List.mem_cons⟩
    · split at h
      · rename_i u us hrec
        cases h
        obtain ⟨hb, hm⟩ := ih hrec
        refine ⟨hb, fun x => ?_⟩
        rw [List.mem_cons, hm, List.mem_cons]
        tauto
      · cases h

theorem takePivot_none {q : Nat} {dirs : List (List Byte)} (h : takePivot q dirs = none) :
    ∀ v ∈ dirs, bitOf v q = false := by
  induction dirs with
  | nil => simp
  | cons d ds ih =>
    simp only [takePivot] at h
    cases hb : bitOf d q with
    | true => simp [hb] at h
    | false =>
      cases hp : takePivot q ds with
      | some p => simp [hb, hp] at h
      | none => exact List.forall_mem_cons.mpr ⟨hb, ih hp⟩

/-- The step of the elimination with a pivot `v` and the other directions `vs`. -/
def pivotStep (r : List Byte) (q : Nat) (s : Solutions) (v : List Byte) (vs : List (List Byte)) : Solutions where
  base := if bitOf s.base q = bitOf r q then s.base else xorBytes s.base v
  dirs := vs.map fun u => if bitOf u q then xorBytes u v else u

theorem narrow_pivot {r : List Byte} {q : Nat} {s : Solutions} {v : List Byte} {vs : List (List Byte)}
    (h : takePivot q s.dirs = some (v, vs)) : narrow r (some s) q = some (pivotStep r q s v vs) := by
  simp only [narrow, h]
  rfl

theorem pivotStep_sized {n : Nat} {r : List Byte} {q : Nat} {s : Solutions} (hs : s.Sized n) {v : List Byte}
    {vs : List (List Byte)} (h : takePivot q s.dirs = some (v, vs)) : (pivotStep r q s v vs).Sized n := by
  obtain ⟨-, hm⟩ := takePivot_some h
  have hv : v.length = n := hs.2 v ((hm v).mpr (.inl rfl))
  refine ⟨?_, ?_⟩
  · simp only [pivotStep]
    split
    · exact hs.1
    · exact length_xorBytes_of_eq hs.1 hv
  · intro u hu
    obtain ⟨x, hx, rfl⟩ := List.mem_map.mp hu
    have hxn : x.length = n := hs.2 x ((hm x).mpr (.inr hx))
    split
    · exact length_xorBytes_of_eq hxn hv
    · exact hxn

/-- A sequence reached before a pivot step is reached after it, itself or moved along the pivot, whichever has the
wanted bit. -/
theorem reach_pivotStep {n : Nat} {r : List Byte} {q : Nat} {s : Solutions} (hs : s.Sized n) {v : List Byte}
    {vs : List (List Byte)} (h : takePivot q s.dirs = some (v, vs)) {w : List Byte} (hw : s.Reach w) :
    (pivotStep r q s v vs).Reach (if bitOf w q = bitOf r q then w else xorBytes w v) := by
  obtain ⟨hvb, hm⟩ := takePivot_some h
  have hvn : v.length = n := hs.2 v ((hm v).mpr (.inl rfl))
  induction hw with
  | base => exact .base
  | @add w u hw hu ih =>
    have hwn := hw.length hs
    have hun : u.length = n := hs.2 u hu
    rw [bitOf_xorBytes (hwn.trans hun.symm)]
    rcases (hm u).mp hu with rfl | hvs
    · rw [hvb, xorBytes_cancel (hwn.trans hun.symm)]
      by_cases hb : bitOf w q = bitOf r q
      · rw [if_pos hb] at ih
        rw [if_neg (by rw [hb]; cases bitOf r q <;> decide)]
        exact ih
      · rw [if_neg hb] at ih
        rw [if_pos (by revert hb; cases bitOf w q <;> cases bitOf r q <;> decide)]
        exact ih
    · have hu' : (if bitOf u q then xorBytes u v else u) ∈ (pivotStep r q s v vs).dirs := List.mem_map_of_mem hvs
      have step := Solutions.Reach.add ih hu'
      have hswap : xorBytes (xorBytes w v) u = xorBytes (xorBytes w u) v := by
        rw [xorBytes_assoc, xorBytes_comm v u, ← xorBytes_assoc]
      cases hub : bitOf u q
      · rw [hub] at step
        simp only [Bool.xor_false]
        by_cases hb : bitOf w q = bitOf r q
        · simpa [hb] using step
        · simpa [hb, hswap] using step
      · rw [hub] at step
        by_cases hb : bitOf w q = bitOf r q
        · have hne : ¬ (bitOf w q ^^ true) = bitOf r q := by rw [hb]; cases bitOf r q <;> decide
          simpa [hb, hne, xorBytes_assoc] using step
        · have heq : (bitOf w q ^^ true) = bitOf r q := by
            revert hb; cases bitOf w q <;> cases bitOf r q <;> decide
          have hc : xorBytes (xorBytes w v) (xorBytes u v) = xorBytes w u := by
            rw [← xorBytes_assoc, hswap, xorBytes_cancel]
            rw [length_xorBytes_of_eq hwn hun, hvn]
          rw [if_pos heq]
          simpa [hb, hc] using step

/-- A sequence reached after a pivot step was reached before it, and has the wanted bit. -/
theorem pivotStep_reach {n : Nat} {r : List Byte} {q : Nat} {s : Solutions} (hs : s.Sized n) {v : List Byte}
    {vs : List (List Byte)} (h : takePivot q s.dirs = some (v, vs)) {w : List Byte}
    (hw : (pivotStep r q s v vs).Reach w) : s.Reach w ∧ bitOf w q = bitOf r q := by
  obtain ⟨hvb, hm⟩ := takePivot_some h
  have hvmem : v ∈ s.dirs := (hm v).mpr (.inl rfl)
  have hvn : v.length = n := hs.2 v hvmem
  induction hw with
  | base =>
    simp only [pivotStep]
    split
    · exact ⟨.base, ‹_›⟩
    · rename_i hb
      refine ⟨.add .base hvmem, ?_⟩
      rw [bitOf_xorBytes (hs.1.trans hvn.symm), hvb]
      revert hb
      cases bitOf s.base q <;> cases bitOf r q <;> decide
  | @add w u' hw hu' ih =>
    obtain ⟨u, hu, rfl⟩ := List.mem_map.mp hu'
    have humem : u ∈ s.dirs := (hm u).mpr (.inr hu)
    have hun : u.length = n := hs.2 u humem
    have hwn := ih.1.length hs
    cases hub : bitOf u q
    · simp only [Bool.false_eq_true, if_false]
      exact ⟨.add ih.1 humem, by rw [bitOf_xorBytes (hwn.trans hun.symm), hub, Bool.xor_false]; exact ih.2⟩
    · simp only [if_true]
      refine ⟨?_, ?_⟩
      · rw [← xorBytes_assoc]
        exact .add (.add ih.1 humem) hvmem
      · rw [bitOf_xorBytes (by rw [length_xorBytes_of_eq hun hvn]; exact hwn), bitOf_xorBytes (hun.trans hvn.symm), hub,
          hvb]
        simpa using ih.2

/-- One step of the elimination keeps exactly the sequences whose bit `q` is that of `r`. -/
theorem narrow_spec {n : Nat} (r : List Byte) (q : Nat) {s : Solutions} (hs : s.Sized n) :
    match narrow r (some s) q with
    | some s' => s'.Sized n ∧ ∀ w, s'.Reach w ↔ s.Reach w ∧ bitOf w q = bitOf r q
    | none => ∀ w, s.Reach w → bitOf w q ≠ bitOf r q := by
  cases h : takePivot q s.dirs with
  | some p =>
    obtain ⟨v, vs⟩ := p
    rw [narrow_pivot h]
    refine ⟨pivotStep_sized hs h, fun w => ⟨pivotStep_reach hs h, fun ⟨hw, hb⟩ => ?_⟩⟩
    have := reach_pivotStep (r := r) hs h hw
    rwa [if_pos hb] at this
  | none =>
    have hz := takePivot_none h
    have hbit : ∀ w, s.Reach w → bitOf w q = bitOf s.base q := by
      intro w hw
      induction hw with
      | base => rfl
      | add hw hv ih =>
        rw [bitOf_xorBytes ((hw.length hs).trans (hs.2 _ hv).symm), hz _ hv, Bool.xor_false, ih]
    simp only [narrow, h]
    split
    · rename_i s' heq
      split at heq
      · cases heq
        exact ⟨hs, fun w => ⟨fun hw => ⟨hw, (hbit w hw).trans ‹_›⟩, fun hw => hw.1⟩⟩
      · cases heq
    · rename_i heq
      split at heq
      · cases heq
      · rename_i hb
        intro w hw hwr
        exact hb ((hbit w hw).symm.trans hwr)

theorem foldl_narrow_none (r : List Byte) (qs : List Nat) : qs.foldl (narrow r) none = none := by
  induction qs with
  | nil => rfl
  | cons q qs ih => exact ih

/-- The elimination over a list of bits keeps exactly the sequences that have the bits of `r` there. -/
theorem foldl_narrow_spec {n : Nat} (r : List Byte) (qs : List Nat) {s : Solutions} (hs : s.Sized n) :
    match qs.foldl (narrow r) (some s) with
    | some s' => s'.Sized n ∧ ∀ w, s'.Reach w ↔ s.Reach w ∧ ∀ q ∈ qs, bitOf w q = bitOf r q
    | none => ∀ w, s.Reach w → ∃ q ∈ qs, bitOf w q ≠ bitOf r q := by
  induction qs generalizing s with
  | nil => exact ⟨hs, fun w => by simp⟩
  | cons q qs ih =>
    have h1 := narrow_spec r q hs
    rw [List.foldl_cons]
    cases hn : narrow r (some s) q with
    | none =>
      rw [hn] at h1
      rw [foldl_narrow_none]
      exact fun w hw => ⟨q, by simp, h1 w hw⟩
    | some s1 =>
      rw [hn] at h1
      obtain ⟨hs1, hr1⟩ := h1
      have h2 := ih hs1
      cases hf : qs.foldl (narrow r) (some s1) with
      | none =>
        rw [hf] at h2
        intro w hw
        by_cases hb : bitOf w q = bitOf r q
        · obtain ⟨q', hq', hne⟩ := h2 w ((hr1 w).mpr ⟨hw, hb⟩)
          exact ⟨q', by simp [hq'], hne⟩
        · exact ⟨q, by simp, hb⟩
      | some s2 =>
        rw [hf] at h2
        refine ⟨h2.1, fun w => ?_⟩
        rw [h2.2, hr1, List.forall_mem_cons, and_assoc]

/-! ### The codewords -/

theorem length_unitMessage (k q : Nat) : (unitMessage k q).length = k := length_tabulate _ _

theorem bitOf_unitMessage {k q x : Nat} (hx : x < 8 * k) : bitOf (unitMessage k q) x = decide (x = q) := by
  rw [bitOf, unitMessage, getD_tabulate_of_lt _ _ (by omega)]
  have h8 : x % 8 < 8 := by omega
  by_cases hq : x / 8 = q / 8
  · rw [if_pos hq]
    have hb : (BitVec.ofNat 8 (2 ^ (q % 8))).getLsbD (x % 8) = decide (x % 8 = q % 8) := by
      rw [BitVec.getLsbD_ofNat, Nat.testBit_two_pow]
      simp [h8, eq_comm]
    rw [hb]
    congr 1
    exact propext ⟨fun h => by omega, fun h => by rw [h]⟩
  · rw [if_neg hq]
    have : ¬ x = q := fun h => hq (by rw [h])
    simp [this]

/-- The first `n` bits of a message, the rest 0. -/
def firstBits (k n : Nat) (msg : List Byte) : List Byte :=
  tabulate k fun i => (BitVec.ofFnLE fun b : Fin 8 => decide (8 * i + b < n) && (msg.getD i 0).getLsbD b)

theorem length_firstBits (k n : Nat) (msg : List Byte) : (firstBits k n msg).length = k := length_tabulate _ _

theorem sequences_eq_of_bits {k : Nat} {a b : List Byte} (ha : a.length = k) (hb : b.length = k)
    (h : ∀ q < 8 * k, bitOf a q = bitOf b q) : a = b := by
  apply ext_getD 0 (ha.trans hb.symm)
  intro i hi
  apply BitVec.eq_of_getLsbD_eq
  intro t ht
  have := h (8 * i + t) (by omega)
  simpa [bitOf, show (8 * i + t) / 8 = i by omega, show (8 * i + t) % 8 = t by omega] using this

theorem bitOf_firstBits {k n q : Nat} (msg : List Byte) (hq : q < 8 * k) :
    bitOf (firstBits k n msg) q = (decide (q < n) && bitOf msg q) := by
  rw [bitOf, firstBits, getD_tabulate_of_lt _ _ (by omega)]
  have h8 : q % 8 < 8 := by omega
  rw [BitVec.getLsbD_ofFnLE]
  simp only [h8, dite_true]
  rw [show 8 * (q / 8) + q % 8 = q by omega]
  rfl

theorem allCodewords_sized (c : Config) : (allCodewords c).Sized (c.k + c.m) := by
  refine ⟨by simp [allCodewords], fun v hv => ?_⟩
  obtain ⟨q, _, rfl⟩ := mem_tabulate.mp hv
  exact length_codewordOf c (length_unitMessage _ _)

theorem codewordOf_firstBits_reach (c : Config) (msg : List Byte) (n : Nat) (hn : n ≤ 8 * c.k) :
    (allCodewords c).Reach (codewordOf c (firstBits c.k n msg)) := by
  induction n with
  | zero =>
    have h0 : firstBits c.k 0 msg = List.replicate c.k 0 := by
      apply sequences_eq_of_bits (length_firstBits _ _ _) (by simp)
      intro q hq
      rw [bitOf_firstBits _ hq]
      simp [bitOf, List.getElem?_replicate]
      split <;> simp
    rw [h0, codewordOf_zero]
    exact .base
  | succ n ih =>
    have ih := ih (by omega)
    have hstep : firstBits c.k (n + 1) msg =
        if bitOf msg n then xorBytes (firstBits c.k n msg) (unitMessage c.k n) else firstBits c.k n msg := by
      have hl : (firstBits c.k n msg).length = (unitMessage c.k n).length := by
        rw [length_unitMessage]; exact length_firstBits _ _ _
      apply sequences_eq_of_bits (length_firstBits _ _ _)
      · split
        · rw [length_xorBytes, ← hl, Nat.min_self]; exact length_firstBits _ _ _
        · exact length_firstBits _ _ _
      · intro q hq
        rw [bitOf_firstBits _ hq]
        split
        · rename_i hb
          rw [bitOf_xorBytes hl, bitOf_firstBits _ hq, bitOf_unitMessage hq]
          by_cases hqn : q = n
          · subst hqn; simp [hb]
          · simp [hqn, show (q < n + 1) = (q < n) from propext ⟨fun h => by omega, fun h => by omega⟩]
        · rename_i hb
          rw [bitOf_firstBits _ hq]
          by_cases hqn : q = n
          · subst hqn; simp [hb]
          · simp [show (q < n + 1) = (q < n) from propext ⟨fun h => by omega, fun h => by omega⟩]
    rw [hstep]
    split
    · rw [codewordOf_xor c (by rw [length_unitMessage]; exact length_firstBits _ _ _)]
      exact .add ih (mem_tabulate.mpr ⟨n, by omega, rfl⟩)
    · exact ih

/-- The solution set the elimination starts from is the code: every codeword and nothing else. -/
theorem allCodewords_reach (c : Config) (w : List Byte) :
    (allCodewords c).Reach w ↔ ∃ msg, msg.length = c.k ∧ w = codewordOf c msg := by
  constructor
  · intro h
    induction h with
    | base => exact ⟨List.replicate c.k 0, by simp, (codewordOf_zero c).symm⟩
    | add _ hv ih =>
      obtain ⟨msg, hl, rfl⟩ := ih
      obtain ⟨q, _, rfl⟩ := mem_tabulate.mp hv
      refine ⟨xorBytes msg (unitMessage c.k q), length_xorBytes_of_eq hl (length_unitMessage _ _), ?_⟩
      rw [codewordOf_xor c (by rw [hl, length_unitMessage])]
  · rintro ⟨msg, hl, rfl⟩
    have h := codewordOf_firstBits_reach c msg (8 * c.k) le_rfl
    have hf : firstBits c.k (8 * c.k) msg = msg := by
      apply sequences_eq_of_bits (length_firstBits _ _ _) hl
      intro q hq
      rw [bitOf_firstBits _ hq]
      simp [hq]
    rwa [hf] at h

theorem mem_knownBits {n q : Nat} {E : List Nat} : q ∈ knownBits n E ↔ q < 8 * n ∧ q / 8 ∉ E := by
  simp [knownBits]

/-- Having the known bits is having the known symbols. -/
theorem agree_knownBits (n : Nat) (E : List Nat) (w r : List Byte) :
    (∀ q ∈ knownBits n E, bitOf w q = bitOf r q) ↔ ∀ t < n, t ∉ E → w.getD t 0 = r.getD t 0 := by
  constructor
  · intro h t ht hE
    apply BitVec.eq_of_getLsbD_eq
    intro b hb
    have := h (8 * t + b) (mem_knownBits.mpr ⟨by omega, by rwa [show (8 * t + b) / 8 = t by omega]⟩)
    simpa [bitOf, show (8 * t + b) / 8 = t by omega, show (8 * t + b) % 8 = b by omega] using this
  · intro h q hq
    obtain ⟨hq, hE⟩ := mem_knownBits.mp hq
    rw [bitOf, bitOf, h (q / 8) (by omega) hE]

/-- Everything `solve` can do: it gives the set of the codewords that agree with the known symbols, or `none` when there
is none. -/
theorem solve_spec (c : Config) (r : List Byte) (E : List Nat) :
    match solve c r E with
    | some s => ∀ w, s.Reach w ↔
        (∃ msg, msg.length = c.k ∧ w = codewordOf c msg) ∧ ∀ t < c.k + c.m, t ∉ E → w.getD t 0 = r.getD t 0
    | none => ¬ ∃ msg, msg.length = c.k ∧ ∀ t < c.k + c.m, t ∉ E → (codewordOf c msg).getD t 0 = r.getD t 0 := by
  have h := foldl_narrow_spec r (knownBits (c.k + c.m) E) (allCodewords_sized c)
  unfold solve
  cases hf : (knownBits (c.k + c.m) E).foldl (narrow r) (some (allCodewords c)) with
  | some s =>
    rw [hf] at h
    intro w
    rw [h.2, allCodewords_reach, agree_knownBits]
  | none =>
    rw [hf] at h
    rintro ⟨msg, hl, hag⟩
    obtain ⟨q, hq, hne⟩ := h _ ((allCodewords_reach c _).mpr ⟨msg, hl, rfl⟩)
    exact hne ((agree_knownBits _ E _ r).mpr hag q hq)

/-- The base of a solution set is one of its sequences. -/
theorem solve_base {c : Config} {r : List Byte} {E : List Nat} {s : Solutions} (h : solve c r E = some s) :
    (∃ msg, msg.length = c.k ∧ s.base = codewordOf c msg) ∧
      ∀ t < c.k + c.m, t ∉ E → s.base.getD t 0 = r.getD t 0 := by
  have hs := solve_spec c r E
  rw [h] at hs
  exact (hs s.base).mp .base

/-- Where the codec calls of a sequence all give codewords, so does `collect`, and only there. -/
theorem collect_eq_ok {α : Type} {rs : List (CodecResult α)} {as : List α} :
    collect rs = .ok as ↔ rs = as.map .ok := by
  induction rs generalizing as with
  | nil => cases as <;> simp [collect]
  | cons r rs ih =>
    cases r with
    | failure => cases as <;> simp [collect]
    | inconsistent => cases as <;> simp [collect]
    | ok a =>
      simp only [collect]
      cases h : collect rs with
      | failure =>
        cases as with
        | nil => simp
        | cons b bs => simpa [h] using fun _ => (ih (as := bs)).not.mp (by simp [h])
      | inconsistent =>
        cases as with
        | nil => simp
        | cons b bs => simpa [h] using fun _ => (ih (as := bs)).not.mp (by simp [h])
      | ok bs =>
        have hbs := (ih (as := bs)).mp h
        cases as with
        | nil => simp
        | cons b cs =>
          simp only [CodecResult.ok.injEq, List.cons.injEq, List.map_cons, hbs]
          refine and_congr_right fun _ => ?_
          constructor
          · rintro rfl; rfl
          · intro hm; exact List.map_injective_iff.mpr (fun x y hxy => by cases hxy; rfl) hm

theorem allSome_eq_some {α : Type} {rs : List (Option α)} {as : List α} :
    allSome rs = some as ↔ rs = as.map some := by
  induction rs generalizing as with
  | nil => cases as <;> simp [allSome]
  | cons r rs ih =>
    cases r with
    | none => cases as <;> simp [allSome]
    | some a =>
      simp only [allSome]
      cases h : allSome rs with
      | none =>
        cases as with
        | nil => simp
        | cons b bs => simpa [h] using fun _ => (ih (as := bs)).not.mp (by simp [h])
      | some bs =>
        have hbs := (ih (as := bs)).mp h
        cases as with
        | nil => simp
        | cons b cs =>
          simp only [Option.some.injEq, List.cons.injEq, List.map_cons, hbs]
          refine and_congr_right fun _ => ?_
          constructor
          · rintro rfl; rfl
          · intro hm; exact List.map_injective_iff.mpr (fun x y hxy => by cases hxy; rfl) hm

end Sys2Proof.Machine
end

