-- ==== Sys2Proof/Laws/Memory.lean ====
section
/-! SUPPORT. Laws of memory: a read after a write, and that every write keeps the canonical form. -/

namespace Sys2Proof.Machine

@[simp] theorem Memory.read_nil (a : Nat) : Memory.read [] a = 0 := rfl

theorem Memory.read_eq_zero_of_lt {m : Memory} {a : Nat} (h : ∀ c ∈ m, a < c.1) : m.read a = 0 := by
  induction m with
  | nil => rfl
  | cons c t ih =>
    have hc := h c (by simp)
    rw [Memory.read, if_neg (by omega)]
    exact ih fun c hc => h c (by simp [hc])

theorem Memory.mem_write {m : Memory} {a : Nat} {v : Byte} {x : Host.Cell} (h : x ∈ m.write a v) :
    (x.1 = a ∧ x.2 = v ∧ v ≠ 0) ∨ x ∈ m := by
  induction m with
  | nil =>
    simp only [Memory.write] at h
    split at h
    · cases h
    · simp_all
  | cons c t ih =>
    obtain ⟨b, w⟩ := c
    simp only [Memory.write] at h
    split at h
    · split at h
      · exact .inr h
      · rcases List.mem_cons.mp h with h | h
        · subst h; exact .inl ⟨rfl, rfl, ‹_›⟩
        · exact .inr h
    · split at h
      · split at h
        · exact .inr (List.mem_cons_of_mem _ h)
        · rcases List.mem_cons.mp h with h | h
          · subst h; exact .inl ⟨rfl, rfl, ‹_›⟩
          · exact .inr (List.mem_cons_of_mem _ h)
      · rcases List.mem_cons.mp h with h | h
        · exact .inr (by simp [h])
        · exact (ih h).imp id (List.mem_cons_of_mem _)

/-- Writing a byte keeps the canonical form. -/
theorem Memory.write_wf {m : Memory} (h : m.wf) (a : Nat) (v : Byte) : (m.write a v).wf := by
  induction m with
  | nil =>
    simp only [Memory.write]
    split <;> simp_all [Memory.wf]
  | cons c t ih =>
    obtain ⟨b, w⟩ := c
    obtain ⟨hp, hz⟩ := h
    have hb := (List.pairwise_cons.mp hp).1
    have ht : Memory.wf t := ⟨(List.pairwise_cons.mp hp).2, fun c hc => hz c (by simp [hc])⟩
    have hw : w ≠ 0 := hz (b, w) (by simp)
    simp only [Memory.write]
    split
    · split
      · exact ⟨hp, hz⟩
      · refine ⟨List.pairwise_cons.mpr ⟨?_, hp⟩, ?_⟩
        · intro c hc
          rcases List.mem_cons.mp hc with hc | hc
          · subst hc; assumption
          · have := hb c hc
            simp only at this ⊢
            omega
        · intro c hc
          rcases List.mem_cons.mp hc with hc | hc
          · subst hc; assumption
          · exact hz c hc
    · split
      · split
        · exact ht
        · rename_i hab hv
          subst hab
          refine ⟨List.pairwise_cons.mpr ⟨fun c hc => hb c hc, ht.1⟩, ?_⟩
          intro c hc
          rcases List.mem_cons.mp hc with hc | hc
          · subst hc; assumption
          · exact ht.2 c hc
      · have ih := ih ht
        refine ⟨List.pairwise_cons.mpr ⟨?_, ih.1⟩, ?_⟩
        · intro c hc
          rcases Memory.mem_write hc with hc | hc
          · simp only; omega
          · exact hb c hc
        · intro c hc
          rcases List.mem_cons.mp hc with hc | hc
          · subst hc; exact hw
          · exact ih.2 c hc

/-- A read after a write of one byte. -/
theorem Memory.read_write {m : Memory} (h : m.wf) (a : Nat) (v : Byte) (x : Nat) :
    (m.write a v).read x = if x = a then v else m.read x := by
  induction m with
  | nil =>
    simp only [Memory.write]
    by_cases hx : x = a
    · subst hx
      split <;> simp_all [Memory.read]
    · split <;> simp [Memory.read, Ne.symm hx]
  | cons c t ih =>
    obtain ⟨b, w⟩ := c
    obtain ⟨hp, hz⟩ := h
    have hb := (List.pairwise_cons.mp hp).1
    have ht : Memory.wf t := ⟨(List.pairwise_cons.mp hp).2, fun c hc => hz c (by simp [hc])⟩
    have hz0 : ∀ y, y ≤ b → Memory.read t y = 0 := fun y hy =>
      Memory.read_eq_zero_of_lt fun c hc => by have := hb c hc; simp only at this; omega
    simp only [Memory.write]
    split
    · split
      · by_cases hx : x = a
        · subst hx
          rw [if_pos rfl, Memory.read, if_neg (by omega), hz0 x (by omega)]
          simp_all
        · rw [if_neg hx]
      · simp only [Memory.read]
        by_cases hx : x = a
        · subst hx; simp
        · simp [hx, Ne.symm hx]
    · split
      · rename_i hab
        subst hab
        split
        · rename_i hv
          by_cases hx : x = a
          · subst hx; rw [if_pos rfl, hz0 x le_rfl, hv]
          · rw [if_neg hx, Memory.read, if_neg (Ne.symm hx)]
        · simp only [Memory.read]
          by_cases hx : x = a
          · subst hx; simp
          · simp [hx, Ne.symm hx]
      · simp only [Memory.read, ih ht]
        by_cases hx : x = a
        · subst hx
          rw [if_pos rfl, if_neg (by omega)]
          simp
        · simp [hx]

/-- Writing bytes keeps the canonical form. -/
theorem Memory.writeBytes_wf {m : Memory} (h : m.wf) (a : Nat) (bs : List Byte) : (m.writeBytes a bs).wf := by
  induction bs generalizing m a with
  | nil => exact h
  | cons b bs ih => exact ih (Memory.write_wf h a b) (a + 1)

/-- A read after a write of bytes: inside the written range the written byte, outside it what was there. -/
theorem Memory.read_writeBytes {m : Memory} (h : m.wf) (a : Nat) (bs : List Byte) (x : Nat) :
    (m.writeBytes a bs).read x = if a ≤ x ∧ x < a + bs.length then bs.getD (x - a) 0 else m.read x := by
  induction bs generalizing m a with
  | nil =>
    rw [Memory.writeBytes, if_neg (by simp)]
  | cons b bs ih =>
    rw [Memory.writeBytes, ih (Memory.write_wf h a b), Memory.read_write h]
    simp only [List.length_cons]
    by_cases hx : x = a
    · subst hx
      rw [if_neg (by omega), if_pos rfl, if_pos (by omega)]
      simp
    · by_cases hr : a + 1 ≤ x ∧ x < a + 1 + bs.length
      · rw [if_pos hr, if_pos (by omega), show x - a = (x - (a + 1)) + 1 by omega]
        simp
      · rw [if_neg hr, if_neg hx, if_neg (by omega)]

theorem Memory.mem_writeBytes {m : Memory} {a : Nat} {bs : List Byte} {x : Host.Cell} (h : x ∈ m.writeBytes a bs) :
    (a ≤ x.1 ∧ x.1 < a + bs.length) ∨ x ∈ m := by
  induction bs generalizing m a with
  | nil => exact .inr h
  | cons b bs ih =>
    simp only [List.length_cons]
    rcases ih h with h | h
    · exact .inl (by omega)
    · rcases Memory.mem_write h with h | h
      · exact .inl (by omega)
      · exact .inr h

/-- A read below the written range does not see a write, whatever the memory's form. -/
theorem Memory.read_write_of_ne (m : Memory) {a x : Nat} (v : Byte) (hx : x ≠ a) : (m.write a v).read x = m.read x := by
  induction m with
  | nil =>
    simp only [Memory.write]
    split <;> simp [Memory.read, Ne.symm hx]
  | cons c t ih =>
    obtain ⟨b, w⟩ := c
    simp only [Memory.write]
    split
    · split
      · rfl
      · simp [Memory.read, Ne.symm hx]
    · split
      · rename_i hab
        subst hab
        split <;> simp [Memory.read, Ne.symm hx]
      · simp only [Memory.read, ih]

/-- A read outside the written range does not see a write, whatever the memory's form. -/
theorem Memory.read_writeBytes_of_outside (m : Memory) {a x : Nat} (bs : List Byte) (hx : x < a ∨ a + bs.length ≤ x) :
    (m.writeBytes a bs).read x = m.read x := by
  induction bs generalizing m a with
  | nil => rfl
  | cons b bs ih =>
    simp only [List.length_cons] at hx
    rw [Memory.writeBytes, ih _ (by omega), Memory.read_write_of_ne _ _ (by omega)]

end Sys2Proof.Machine
end

