-- ==== Sys2Proof/Laws/State.lean ====
section
/-! SUPPORT. One lemma per field and update of State, true by rfl, so that no later proof unfolds a record update. -/

namespace Sys2Proof.Machine

@[simp] theorem State.withRes0_cfg (v : Word) (s : State) : (s.withRes0 v).cfg = s.cfg := rfl
@[simp] theorem State.withRes0_arg0 (v : Word) (s : State) : (s.withRes0 v).arg0 = s.arg0 := rfl
@[simp] theorem State.withRes0_arg1 (v : Word) (s : State) : (s.withRes0 v).arg1 = s.arg1 := rfl
@[simp] theorem State.withRes0_res0 (v : Word) (s : State) : (s.withRes0 v).res0 = v := rfl
@[simp] theorem State.withRes0_res1 (v : Word) (s : State) : (s.withRes0 v).res1 = s.res1 := rfl
@[simp] theorem State.withRes0_res2 (v : Word) (s : State) : (s.withRes0 v).res2 = s.res2 := rfl
@[simp] theorem State.withRes0_res3 (v : Word) (s : State) : (s.withRes0 v).res3 = s.res3 := rfl
@[simp] theorem State.withRes0_cmd (v : Word) (s : State) : (s.withRes0 v).cmd = s.cmd := rfl
@[simp] theorem State.withRes0_irqEn (v : Word) (s : State) : (s.withRes0 v).irqEn = s.irqEn := rfl
@[simp] theorem State.withRes0_done (v : Word) (s : State) : (s.withRes0 v).done = s.done := rfl
@[simp] theorem State.withRes0_errBusy (v : Word) (s : State) : (s.withRes0 v).errBusy = s.errBusy := rfl
@[simp] theorem State.withRes0_result (v : Word) (s : State) : (s.withRes0 v).result = s.result := rfl
@[simp] theorem State.withRes0_pending (v : Word) (s : State) : (s.withRes0 v).pending = s.pending := rfl
@[simp] theorem State.withRes0_resetting (v : Word) (s : State) : (s.withRes0 v).resetting = s.resetting := rfl
@[simp] theorem State.withRes0_enc (v : Word) (s : State) : (s.withRes0 v).enc = s.enc := rfl
@[simp] theorem State.withRes0_dec (v : Word) (s : State) : (s.withRes0 v).dec = s.dec := rfl
@[simp] theorem State.withRes0_mem (v : Word) (s : State) : (s.withRes0 v).mem = s.mem := rfl
@[simp] theorem State.withRes0_resp (v : Word) (s : State) : (s.withRes0 v).resp = s.resp := rfl
@[simp] theorem State.withRes0_agenda (v : Word) (s : State) : (s.withRes0 v).agenda = s.agenda := rfl
@[simp] theorem State.withRes0_draws (v : Word) (s : State) : (s.withRes0 v).draws = s.draws := rfl

@[simp] theorem State.withRes_cfg (v0 v1 v2 v3 : Word) (s : State) : (s.withRes v0 v1 v2 v3).cfg = s.cfg := rfl
@[simp] theorem State.withRes_arg0 (v0 v1 v2 v3 : Word) (s : State) : (s.withRes v0 v1 v2 v3).arg0 = s.arg0 := rfl
@[simp] theorem State.withRes_arg1 (v0 v1 v2 v3 : Word) (s : State) : (s.withRes v0 v1 v2 v3).arg1 = s.arg1 := rfl
@[simp] theorem State.withRes_res0 (v0 v1 v2 v3 : Word) (s : State) : (s.withRes v0 v1 v2 v3).res0 = v0 := rfl
@[simp] theorem State.withRes_res1 (v0 v1 v2 v3 : Word) (s : State) : (s.withRes v0 v1 v2 v3).res1 = v1 := rfl
@[simp] theorem State.withRes_res2 (v0 v1 v2 v3 : Word) (s : State) : (s.withRes v0 v1 v2 v3).res2 = v2 := rfl
@[simp] theorem State.withRes_res3 (v0 v1 v2 v3 : Word) (s : State) : (s.withRes v0 v1 v2 v3).res3 = v3 := rfl
@[simp] theorem State.withRes_cmd (v0 v1 v2 v3 : Word) (s : State) : (s.withRes v0 v1 v2 v3).cmd = s.cmd := rfl
@[simp] theorem State.withRes_irqEn (v0 v1 v2 v3 : Word) (s : State) : (s.withRes v0 v1 v2 v3).irqEn = s.irqEn := rfl
@[simp] theorem State.withRes_done (v0 v1 v2 v3 : Word) (s : State) : (s.withRes v0 v1 v2 v3).done = s.done := rfl
@[simp] theorem State.withRes_errBusy (v0 v1 v2 v3 : Word) (s : State) : (s.withRes v0 v1 v2 v3).errBusy = s.errBusy := rfl
@[simp] theorem State.withRes_result (v0 v1 v2 v3 : Word) (s : State) : (s.withRes v0 v1 v2 v3).result = s.result := rfl
@[simp] theorem State.withRes_pending (v0 v1 v2 v3 : Word) (s : State) : (s.withRes v0 v1 v2 v3).pending = s.pending := rfl
@[simp] theorem State.withRes_resetting (v0 v1 v2 v3 : Word) (s : State) : (s.withRes v0 v1 v2 v3).resetting = s.resetting := rfl
@[simp] theorem State.withRes_enc (v0 v1 v2 v3 : Word) (s : State) : (s.withRes v0 v1 v2 v3).enc = s.enc := rfl
@[simp] theorem State.withRes_dec (v0 v1 v2 v3 : Word) (s : State) : (s.withRes v0 v1 v2 v3).dec = s.dec := rfl
@[simp] theorem State.withRes_mem (v0 v1 v2 v3 : Word) (s : State) : (s.withRes v0 v1 v2 v3).mem = s.mem := rfl
@[simp] theorem State.withRes_resp (v0 v1 v2 v3 : Word) (s : State) : (s.withRes v0 v1 v2 v3).resp = s.resp := rfl
@[simp] theorem State.withRes_agenda (v0 v1 v2 v3 : Word) (s : State) : (s.withRes v0 v1 v2 v3).agenda = s.agenda := rfl
@[simp] theorem State.withRes_draws (v0 v1 v2 v3 : Word) (s : State) : (s.withRes v0 v1 v2 v3).draws = s.draws := rfl

@[simp] theorem State.withEnc_cfg (e : Encoder) (s : State) : (s.withEnc e).cfg = s.cfg := rfl
@[simp] theorem State.withEnc_arg0 (e : Encoder) (s : State) : (s.withEnc e).arg0 = s.arg0 := rfl
@[simp] theorem State.withEnc_arg1 (e : Encoder) (s : State) : (s.withEnc e).arg1 = s.arg1 := rfl
@[simp] theorem State.withEnc_res0 (e : Encoder) (s : State) : (s.withEnc e).res0 = s.res0 := rfl
@[simp] theorem State.withEnc_res1 (e : Encoder) (s : State) : (s.withEnc e).res1 = s.res1 := rfl
@[simp] theorem State.withEnc_res2 (e : Encoder) (s : State) : (s.withEnc e).res2 = s.res2 := rfl
@[simp] theorem State.withEnc_res3 (e : Encoder) (s : State) : (s.withEnc e).res3 = s.res3 := rfl
@[simp] theorem State.withEnc_cmd (e : Encoder) (s : State) : (s.withEnc e).cmd = s.cmd := rfl
@[simp] theorem State.withEnc_irqEn (e : Encoder) (s : State) : (s.withEnc e).irqEn = s.irqEn := rfl
@[simp] theorem State.withEnc_done (e : Encoder) (s : State) : (s.withEnc e).done = s.done := rfl
@[simp] theorem State.withEnc_errBusy (e : Encoder) (s : State) : (s.withEnc e).errBusy = s.errBusy := rfl
@[simp] theorem State.withEnc_result (e : Encoder) (s : State) : (s.withEnc e).result = s.result := rfl
@[simp] theorem State.withEnc_pending (e : Encoder) (s : State) : (s.withEnc e).pending = s.pending := rfl
@[simp] theorem State.withEnc_resetting (e : Encoder) (s : State) : (s.withEnc e).resetting = s.resetting := rfl
@[simp] theorem State.withEnc_enc (e : Encoder) (s : State) : (s.withEnc e).enc = e := rfl
@[simp] theorem State.withEnc_dec (e : Encoder) (s : State) : (s.withEnc e).dec = s.dec := rfl
@[simp] theorem State.withEnc_mem (e : Encoder) (s : State) : (s.withEnc e).mem = s.mem := rfl
@[simp] theorem State.withEnc_resp (e : Encoder) (s : State) : (s.withEnc e).resp = s.resp := rfl
@[simp] theorem State.withEnc_agenda (e : Encoder) (s : State) : (s.withEnc e).agenda = s.agenda := rfl
@[simp] theorem State.withEnc_draws (e : Encoder) (s : State) : (s.withEnc e).draws = s.draws := rfl

@[simp] theorem State.withDec_cfg (d : Decoder) (s : State) : (s.withDec d).cfg = s.cfg := rfl
@[simp] theorem State.withDec_arg0 (d : Decoder) (s : State) : (s.withDec d).arg0 = s.arg0 := rfl
@[simp] theorem State.withDec_arg1 (d : Decoder) (s : State) : (s.withDec d).arg1 = s.arg1 := rfl
@[simp] theorem State.withDec_res0 (d : Decoder) (s : State) : (s.withDec d).res0 = s.res0 := rfl
@[simp] theorem State.withDec_res1 (d : Decoder) (s : State) : (s.withDec d).res1 = s.res1 := rfl
@[simp] theorem State.withDec_res2 (d : Decoder) (s : State) : (s.withDec d).res2 = s.res2 := rfl
@[simp] theorem State.withDec_res3 (d : Decoder) (s : State) : (s.withDec d).res3 = s.res3 := rfl
@[simp] theorem State.withDec_cmd (d : Decoder) (s : State) : (s.withDec d).cmd = s.cmd := rfl
@[simp] theorem State.withDec_irqEn (d : Decoder) (s : State) : (s.withDec d).irqEn = s.irqEn := rfl
@[simp] theorem State.withDec_done (d : Decoder) (s : State) : (s.withDec d).done = s.done := rfl
@[simp] theorem State.withDec_errBusy (d : Decoder) (s : State) : (s.withDec d).errBusy = s.errBusy := rfl
@[simp] theorem State.withDec_result (d : Decoder) (s : State) : (s.withDec d).result = s.result := rfl
@[simp] theorem State.withDec_pending (d : Decoder) (s : State) : (s.withDec d).pending = s.pending := rfl
@[simp] theorem State.withDec_resetting (d : Decoder) (s : State) : (s.withDec d).resetting = s.resetting := rfl
@[simp] theorem State.withDec_enc (d : Decoder) (s : State) : (s.withDec d).enc = s.enc := rfl
@[simp] theorem State.withDec_dec (d : Decoder) (s : State) : (s.withDec d).dec = d := rfl
@[simp] theorem State.withDec_mem (d : Decoder) (s : State) : (s.withDec d).mem = s.mem := rfl
@[simp] theorem State.withDec_resp (d : Decoder) (s : State) : (s.withDec d).resp = s.resp := rfl
@[simp] theorem State.withDec_agenda (d : Decoder) (s : State) : (s.withDec d).agenda = s.agenda := rfl
@[simp] theorem State.withDec_draws (d : Decoder) (s : State) : (s.withDec d).draws = s.draws := rfl

@[simp] theorem State.countDraw_cfg (s : State) : (s.countDraw).cfg = s.cfg := rfl
@[simp] theorem State.countDraw_arg0 (s : State) : (s.countDraw).arg0 = s.arg0 := rfl
@[simp] theorem State.countDraw_arg1 (s : State) : (s.countDraw).arg1 = s.arg1 := rfl
@[simp] theorem State.countDraw_res0 (s : State) : (s.countDraw).res0 = s.res0 := rfl
@[simp] theorem State.countDraw_res1 (s : State) : (s.countDraw).res1 = s.res1 := rfl
@[simp] theorem State.countDraw_res2 (s : State) : (s.countDraw).res2 = s.res2 := rfl
@[simp] theorem State.countDraw_res3 (s : State) : (s.countDraw).res3 = s.res3 := rfl
@[simp] theorem State.countDraw_cmd (s : State) : (s.countDraw).cmd = s.cmd := rfl
@[simp] theorem State.countDraw_irqEn (s : State) : (s.countDraw).irqEn = s.irqEn := rfl
@[simp] theorem State.countDraw_done (s : State) : (s.countDraw).done = s.done := rfl
@[simp] theorem State.countDraw_errBusy (s : State) : (s.countDraw).errBusy = s.errBusy := rfl
@[simp] theorem State.countDraw_result (s : State) : (s.countDraw).result = s.result := rfl
@[simp] theorem State.countDraw_pending (s : State) : (s.countDraw).pending = s.pending := rfl
@[simp] theorem State.countDraw_resetting (s : State) : (s.countDraw).resetting = s.resetting := rfl
@[simp] theorem State.countDraw_enc (s : State) : (s.countDraw).enc = s.enc := rfl
@[simp] theorem State.countDraw_dec (s : State) : (s.countDraw).dec = s.dec := rfl
@[simp] theorem State.countDraw_mem (s : State) : (s.countDraw).mem = s.mem := rfl
@[simp] theorem State.countDraw_resp (s : State) : (s.countDraw).resp = s.resp := rfl
@[simp] theorem State.countDraw_agenda (s : State) : (s.countDraw).agenda = s.agenda := rfl
@[simp] theorem State.countDraw_draws (s : State) : (s.countDraw).draws = s.draws + 1 := rfl

@[simp] theorem State.withAgenda_cfg (a : List Move) (s : State) : (s.withAgenda a).cfg = s.cfg := rfl
@[simp] theorem State.withAgenda_arg0 (a : List Move) (s : State) : (s.withAgenda a).arg0 = s.arg0 := rfl
@[simp] theorem State.withAgenda_arg1 (a : List Move) (s : State) : (s.withAgenda a).arg1 = s.arg1 := rfl
@[simp] theorem State.withAgenda_res0 (a : List Move) (s : State) : (s.withAgenda a).res0 = s.res0 := rfl
@[simp] theorem State.withAgenda_res1 (a : List Move) (s : State) : (s.withAgenda a).res1 = s.res1 := rfl
@[simp] theorem State.withAgenda_res2 (a : List Move) (s : State) : (s.withAgenda a).res2 = s.res2 := rfl
@[simp] theorem State.withAgenda_res3 (a : List Move) (s : State) : (s.withAgenda a).res3 = s.res3 := rfl
@[simp] theorem State.withAgenda_cmd (a : List Move) (s : State) : (s.withAgenda a).cmd = s.cmd := rfl
@[simp] theorem State.withAgenda_irqEn (a : List Move) (s : State) : (s.withAgenda a).irqEn = s.irqEn := rfl
@[simp] theorem State.withAgenda_done (a : List Move) (s : State) : (s.withAgenda a).done = s.done := rfl
@[simp] theorem State.withAgenda_errBusy (a : List Move) (s : State) : (s.withAgenda a).errBusy = s.errBusy := rfl
@[simp] theorem State.withAgenda_result (a : List Move) (s : State) : (s.withAgenda a).result = s.result := rfl
@[simp] theorem State.withAgenda_pending (a : List Move) (s : State) : (s.withAgenda a).pending = s.pending := rfl
@[simp] theorem State.withAgenda_resetting (a : List Move) (s : State) : (s.withAgenda a).resetting = s.resetting := rfl
@[simp] theorem State.withAgenda_enc (a : List Move) (s : State) : (s.withAgenda a).enc = s.enc := rfl
@[simp] theorem State.withAgenda_dec (a : List Move) (s : State) : (s.withAgenda a).dec = s.dec := rfl
@[simp] theorem State.withAgenda_mem (a : List Move) (s : State) : (s.withAgenda a).mem = s.mem := rfl
@[simp] theorem State.withAgenda_resp (a : List Move) (s : State) : (s.withAgenda a).resp = s.resp := rfl
@[simp] theorem State.withAgenda_agenda (a : List Move) (s : State) : (s.withAgenda a).agenda = a := rfl
@[simp] theorem State.withAgenda_draws (a : List Move) (s : State) : (s.withAgenda a).draws = s.draws := rfl

@[simp] theorem State.respond_cfg (r : BusResponse) (s : State) : (s.respond r).cfg = s.cfg := rfl
@[simp] theorem State.respond_arg0 (r : BusResponse) (s : State) : (s.respond r).arg0 = s.arg0 := rfl
@[simp] theorem State.respond_arg1 (r : BusResponse) (s : State) : (s.respond r).arg1 = s.arg1 := rfl
@[simp] theorem State.respond_res0 (r : BusResponse) (s : State) : (s.respond r).res0 = s.res0 := rfl
@[simp] theorem State.respond_res1 (r : BusResponse) (s : State) : (s.respond r).res1 = s.res1 := rfl
@[simp] theorem State.respond_res2 (r : BusResponse) (s : State) : (s.respond r).res2 = s.res2 := rfl
@[simp] theorem State.respond_res3 (r : BusResponse) (s : State) : (s.respond r).res3 = s.res3 := rfl
@[simp] theorem State.respond_cmd (r : BusResponse) (s : State) : (s.respond r).cmd = s.cmd := rfl
@[simp] theorem State.respond_irqEn (r : BusResponse) (s : State) : (s.respond r).irqEn = s.irqEn := rfl
@[simp] theorem State.respond_done (r : BusResponse) (s : State) : (s.respond r).done = s.done := rfl
@[simp] theorem State.respond_errBusy (r : BusResponse) (s : State) : (s.respond r).errBusy = s.errBusy := rfl
@[simp] theorem State.respond_result (r : BusResponse) (s : State) : (s.respond r).result = s.result := rfl
@[simp] theorem State.respond_pending (r : BusResponse) (s : State) : (s.respond r).pending = s.pending := rfl
@[simp] theorem State.respond_resetting (r : BusResponse) (s : State) : (s.respond r).resetting = s.resetting := rfl
@[simp] theorem State.respond_enc (r : BusResponse) (s : State) : (s.respond r).enc = s.enc := rfl
@[simp] theorem State.respond_dec (r : BusResponse) (s : State) : (s.respond r).dec = s.dec := rfl
@[simp] theorem State.respond_mem (r : BusResponse) (s : State) : (s.respond r).mem = s.mem := rfl
@[simp] theorem State.respond_resp (r : BusResponse) (s : State) : (s.respond r).resp = some r := rfl
@[simp] theorem State.respond_agenda (r : BusResponse) (s : State) : (s.respond r).agenda = s.agenda := rfl
@[simp] theorem State.respond_draws (r : BusResponse) (s : State) : (s.respond r).draws = s.draws := rfl

@[simp] theorem State.writeOut_cfg (f : List Byte) (s : State) : (s.writeOut f).cfg = s.cfg := rfl
@[simp] theorem State.writeOut_arg0 (f : List Byte) (s : State) : (s.writeOut f).arg0 = s.arg0 := rfl
@[simp] theorem State.writeOut_arg1 (f : List Byte) (s : State) : (s.writeOut f).arg1 = s.arg1 := rfl
@[simp] theorem State.writeOut_res0 (f : List Byte) (s : State) : (s.writeOut f).res0 = s.res0 := rfl
@[simp] theorem State.writeOut_res1 (f : List Byte) (s : State) : (s.writeOut f).res1 = s.res1 := rfl
@[simp] theorem State.writeOut_res2 (f : List Byte) (s : State) : (s.writeOut f).res2 = s.res2 := rfl
@[simp] theorem State.writeOut_res3 (f : List Byte) (s : State) : (s.writeOut f).res3 = s.res3 := rfl
@[simp] theorem State.writeOut_cmd (f : List Byte) (s : State) : (s.writeOut f).cmd = s.cmd := rfl
@[simp] theorem State.writeOut_irqEn (f : List Byte) (s : State) : (s.writeOut f).irqEn = s.irqEn := rfl
@[simp] theorem State.writeOut_done (f : List Byte) (s : State) : (s.writeOut f).done = s.done := rfl
@[simp] theorem State.writeOut_errBusy (f : List Byte) (s : State) : (s.writeOut f).errBusy = s.errBusy := rfl
@[simp] theorem State.writeOut_result (f : List Byte) (s : State) : (s.writeOut f).result = s.result := rfl
@[simp] theorem State.writeOut_pending (f : List Byte) (s : State) : (s.writeOut f).pending = s.pending := rfl
@[simp] theorem State.writeOut_resetting (f : List Byte) (s : State) : (s.writeOut f).resetting = s.resetting := rfl
@[simp] theorem State.writeOut_enc (f : List Byte) (s : State) : (s.writeOut f).enc = s.enc := rfl
@[simp] theorem State.writeOut_dec (f : List Byte) (s : State) : (s.writeOut f).dec = s.dec := rfl
@[simp] theorem State.writeOut_mem (f : List Byte) (s : State) : (s.writeOut f).mem = s.mem.writeBytes outBase f := rfl
@[simp] theorem State.writeOut_resp (f : List Byte) (s : State) : (s.writeOut f).resp = s.resp := rfl
@[simp] theorem State.writeOut_agenda (f : List Byte) (s : State) : (s.writeOut f).agenda = s.agenda := rfl
@[simp] theorem State.writeOut_draws (f : List Byte) (s : State) : (s.writeOut f).draws = s.draws := rfl

@[simp] theorem State.accept_cfg (w : Word) (s : State) : (s.accept w).cfg = s.cfg := rfl
@[simp] theorem State.accept_arg0 (w : Word) (s : State) : (s.accept w).arg0 = s.arg0 := rfl
@[simp] theorem State.accept_arg1 (w : Word) (s : State) : (s.accept w).arg1 = s.arg1 := rfl
@[simp] theorem State.accept_res0 (w : Word) (s : State) : (s.accept w).res0 = s.res0 := rfl
@[simp] theorem State.accept_res1 (w : Word) (s : State) : (s.accept w).res1 = s.res1 := rfl
@[simp] theorem State.accept_res2 (w : Word) (s : State) : (s.accept w).res2 = s.res2 := rfl
@[simp] theorem State.accept_res3 (w : Word) (s : State) : (s.accept w).res3 = s.res3 := rfl
@[simp] theorem State.accept_cmd (w : Word) (s : State) : (s.accept w).cmd = w := rfl
@[simp] theorem State.accept_irqEn (w : Word) (s : State) : (s.accept w).irqEn = s.irqEn := rfl
@[simp] theorem State.accept_done (w : Word) (s : State) : (s.accept w).done = false := rfl
@[simp] theorem State.accept_errBusy (w : Word) (s : State) : (s.accept w).errBusy = s.errBusy := rfl
@[simp] theorem State.accept_result (w : Word) (s : State) : (s.accept w).result = s.result := rfl
@[simp] theorem State.accept_pending (w : Word) (s : State) : (s.accept w).pending = some w := rfl
@[simp] theorem State.accept_resetting (w : Word) (s : State) : (s.accept w).resetting = s.resetting := rfl
@[simp] theorem State.accept_enc (w : Word) (s : State) : (s.accept w).enc = s.enc := rfl
@[simp] theorem State.accept_dec (w : Word) (s : State) : (s.accept w).dec = s.dec := rfl
@[simp] theorem State.accept_mem (w : Word) (s : State) : (s.accept w).mem = s.mem := rfl
@[simp] theorem State.accept_resp (w : Word) (s : State) : (s.accept w).resp = s.resp := rfl
@[simp] theorem State.accept_agenda (w : Word) (s : State) : (s.accept w).agenda = s.agenda := rfl
@[simp] theorem State.accept_draws (w : Word) (s : State) : (s.accept w).draws = s.draws := rfl

@[simp] theorem State.complete_cfg (c : ResultCode) (s : State) : (s.complete c).cfg = s.cfg := rfl
@[simp] theorem State.complete_arg0 (c : ResultCode) (s : State) : (s.complete c).arg0 = s.arg0 := rfl
@[simp] theorem State.complete_arg1 (c : ResultCode) (s : State) : (s.complete c).arg1 = s.arg1 := rfl
@[simp] theorem State.complete_res0 (c : ResultCode) (s : State) : (s.complete c).res0 = s.res0 := rfl
@[simp] theorem State.complete_res1 (c : ResultCode) (s : State) : (s.complete c).res1 = s.res1 := rfl
@[simp] theorem State.complete_res2 (c : ResultCode) (s : State) : (s.complete c).res2 = s.res2 := rfl
@[simp] theorem State.complete_res3 (c : ResultCode) (s : State) : (s.complete c).res3 = s.res3 := rfl
@[simp] theorem State.complete_cmd (c : ResultCode) (s : State) : (s.complete c).cmd = s.cmd := rfl
@[simp] theorem State.complete_irqEn (c : ResultCode) (s : State) : (s.complete c).irqEn = s.irqEn := rfl
@[simp] theorem State.complete_done (c : ResultCode) (s : State) : (s.complete c).done = true := rfl
@[simp] theorem State.complete_errBusy (c : ResultCode) (s : State) : (s.complete c).errBusy = s.errBusy := rfl
@[simp] theorem State.complete_result (c : ResultCode) (s : State) : (s.complete c).result = c := rfl
@[simp] theorem State.complete_pending (c : ResultCode) (s : State) : (s.complete c).pending = none := rfl
@[simp] theorem State.complete_resetting (c : ResultCode) (s : State) : (s.complete c).resetting = s.resetting := rfl
@[simp] theorem State.complete_enc (c : ResultCode) (s : State) : (s.complete c).enc = s.enc := rfl
@[simp] theorem State.complete_dec (c : ResultCode) (s : State) : (s.complete c).dec = s.dec := rfl
@[simp] theorem State.complete_mem (c : ResultCode) (s : State) : (s.complete c).mem = s.mem := rfl
@[simp] theorem State.complete_resp (c : ResultCode) (s : State) : (s.complete c).resp = s.resp := rfl
@[simp] theorem State.complete_agenda (c : ResultCode) (s : State) : (s.complete c).agenda = s.agenda := rfl
@[simp] theorem State.complete_draws (c : ResultCode) (s : State) : (s.complete c).draws = s.draws := rfl

@[simp] theorem State.acknowledge_cfg (s : State) : (s.acknowledge).cfg = s.cfg := rfl
@[simp] theorem State.acknowledge_arg0 (s : State) : (s.acknowledge).arg0 = s.arg0 := rfl
@[simp] theorem State.acknowledge_arg1 (s : State) : (s.acknowledge).arg1 = s.arg1 := rfl
@[simp] theorem State.acknowledge_res0 (s : State) : (s.acknowledge).res0 = s.res0 := rfl
@[simp] theorem State.acknowledge_res1 (s : State) : (s.acknowledge).res1 = s.res1 := rfl
@[simp] theorem State.acknowledge_res2 (s : State) : (s.acknowledge).res2 = s.res2 := rfl
@[simp] theorem State.acknowledge_res3 (s : State) : (s.acknowledge).res3 = s.res3 := rfl
@[simp] theorem State.acknowledge_cmd (s : State) : (s.acknowledge).cmd = s.cmd := rfl
@[simp] theorem State.acknowledge_irqEn (s : State) : (s.acknowledge).irqEn = s.irqEn := rfl
@[simp] theorem State.acknowledge_done (s : State) : (s.acknowledge).done = false := rfl
@[simp] theorem State.acknowledge_errBusy (s : State) : (s.acknowledge).errBusy = s.errBusy := rfl
@[simp] theorem State.acknowledge_result (s : State) : (s.acknowledge).result = s.result := rfl
@[simp] theorem State.acknowledge_pending (s : State) : (s.acknowledge).pending = s.pending := rfl
@[simp] theorem State.acknowledge_resetting (s : State) : (s.acknowledge).resetting = s.resetting := rfl
@[simp] theorem State.acknowledge_enc (s : State) : (s.acknowledge).enc = s.enc := rfl
@[simp] theorem State.acknowledge_dec (s : State) : (s.acknowledge).dec = s.dec := rfl
@[simp] theorem State.acknowledge_mem (s : State) : (s.acknowledge).mem = s.mem := rfl
@[simp] theorem State.acknowledge_resp (s : State) : (s.acknowledge).resp = s.resp := rfl
@[simp] theorem State.acknowledge_agenda (s : State) : (s.acknowledge).agenda = s.agenda := rfl
@[simp] theorem State.acknowledge_draws (s : State) : (s.acknowledge).draws = s.draws := rfl

@[simp] theorem State.startReset_cfg (s : State) : (s.startReset).cfg = s.cfg := rfl
@[simp] theorem State.startReset_arg0 (s : State) : (s.startReset).arg0 = s.arg0 := rfl
@[simp] theorem State.startReset_arg1 (s : State) : (s.startReset).arg1 = s.arg1 := rfl
@[simp] theorem State.startReset_res0 (s : State) : (s.startReset).res0 = s.res0 := rfl
@[simp] theorem State.startReset_res1 (s : State) : (s.startReset).res1 = s.res1 := rfl
@[simp] theorem State.startReset_res2 (s : State) : (s.startReset).res2 = s.res2 := rfl
@[simp] theorem State.startReset_res3 (s : State) : (s.startReset).res3 = s.res3 := rfl
@[simp] theorem State.startReset_cmd (s : State) : (s.startReset).cmd = s.cmd := rfl
@[simp] theorem State.startReset_irqEn (s : State) : (s.startReset).irqEn = s.irqEn := rfl
@[simp] theorem State.startReset_done (s : State) : (s.startReset).done = s.done := rfl
@[simp] theorem State.startReset_errBusy (s : State) : (s.startReset).errBusy = s.errBusy := rfl
@[simp] theorem State.startReset_result (s : State) : (s.startReset).result = s.result := rfl
@[simp] theorem State.startReset_pending (s : State) : (s.startReset).pending = none := rfl
@[simp] theorem State.startReset_resetting (s : State) : (s.startReset).resetting = true := rfl
@[simp] theorem State.startReset_enc (s : State) : (s.startReset).enc = s.enc := rfl
@[simp] theorem State.startReset_dec (s : State) : (s.startReset).dec = s.dec := rfl
@[simp] theorem State.startReset_mem (s : State) : (s.startReset).mem = s.mem := rfl
@[simp] theorem State.startReset_resp (s : State) : (s.startReset).resp = s.resp := rfl
@[simp] theorem State.startReset_agenda (s : State) : (s.startReset).agenda = s.agenda := rfl
@[simp] theorem State.startReset_draws (s : State) : (s.startReset).draws = s.draws := rfl

@[simp] theorem State.finishReset_cfg (s : State) : (s.finishReset).cfg = s.cfg := rfl
@[simp] theorem State.finishReset_arg0 (s : State) : (s.finishReset).arg0 = 0 := rfl
@[simp] theorem State.finishReset_arg1 (s : State) : (s.finishReset).arg1 = 0 := rfl
@[simp] theorem State.finishReset_res0 (s : State) : (s.finishReset).res0 = 0 := rfl
@[simp] theorem State.finishReset_res1 (s : State) : (s.finishReset).res1 = 0 := rfl
@[simp] theorem State.finishReset_res2 (s : State) : (s.finishReset).res2 = 0 := rfl
@[simp] theorem State.finishReset_res3 (s : State) : (s.finishReset).res3 = 0 := rfl
@[simp] theorem State.finishReset_cmd (s : State) : (s.finishReset).cmd = 0 := rfl
@[simp] theorem State.finishReset_irqEn (s : State) : (s.finishReset).irqEn = false := rfl
@[simp] theorem State.finishReset_done (s : State) : (s.finishReset).done = false := rfl
@[simp] theorem State.finishReset_errBusy (s : State) : (s.finishReset).errBusy = false := rfl
@[simp] theorem State.finishReset_result (s : State) : (s.finishReset).result = .ok := rfl
@[simp] theorem State.finishReset_pending (s : State) : (s.finishReset).pending = none := rfl
@[simp] theorem State.finishReset_resetting (s : State) : (s.finishReset).resetting = false := rfl
@[simp] theorem State.finishReset_enc (s : State) : (s.finishReset).enc = Encoder.atReset s.cfg := rfl
@[simp] theorem State.finishReset_dec (s : State) : (s.finishReset).dec = Decoder.atReset s.cfg := rfl
@[simp] theorem State.finishReset_mem (s : State) : (s.finishReset).mem = [] := rfl
@[simp] theorem State.finishReset_resp (s : State) : (s.finishReset).resp = s.resp := rfl
@[simp] theorem State.finishReset_agenda (s : State) : (s.finishReset).agenda = s.agenda := rfl
@[simp] theorem State.finishReset_draws (s : State) : (s.finishReset).draws = s.draws := rfl

@[simp] theorem State.recordErrBusy_cfg (s : State) : (s.recordErrBusy).cfg = s.cfg := rfl
@[simp] theorem State.recordErrBusy_arg0 (s : State) : (s.recordErrBusy).arg0 = s.arg0 := rfl
@[simp] theorem State.recordErrBusy_arg1 (s : State) : (s.recordErrBusy).arg1 = s.arg1 := rfl
@[simp] theorem State.recordErrBusy_res0 (s : State) : (s.recordErrBusy).res0 = s.res0 := rfl
@[simp] theorem State.recordErrBusy_res1 (s : State) : (s.recordErrBusy).res1 = s.res1 := rfl
@[simp] theorem State.recordErrBusy_res2 (s : State) : (s.recordErrBusy).res2 = s.res2 := rfl
@[simp] theorem State.recordErrBusy_res3 (s : State) : (s.recordErrBusy).res3 = s.res3 := rfl
@[simp] theorem State.recordErrBusy_cmd (s : State) : (s.recordErrBusy).cmd = s.cmd := rfl
@[simp] theorem State.recordErrBusy_irqEn (s : State) : (s.recordErrBusy).irqEn = s.irqEn := rfl
@[simp] theorem State.recordErrBusy_done (s : State) : (s.recordErrBusy).done = s.done := rfl
@[simp] theorem State.recordErrBusy_errBusy (s : State) : (s.recordErrBusy).errBusy = true := rfl
@[simp] theorem State.recordErrBusy_result (s : State) : (s.recordErrBusy).result = s.result := rfl
@[simp] theorem State.recordErrBusy_pending (s : State) : (s.recordErrBusy).pending = s.pending := rfl
@[simp] theorem State.recordErrBusy_resetting (s : State) : (s.recordErrBusy).resetting = s.resetting := rfl
@[simp] theorem State.recordErrBusy_enc (s : State) : (s.recordErrBusy).enc = s.enc := rfl
@[simp] theorem State.recordErrBusy_dec (s : State) : (s.recordErrBusy).dec = s.dec := rfl
@[simp] theorem State.recordErrBusy_mem (s : State) : (s.recordErrBusy).mem = s.mem := rfl
@[simp] theorem State.recordErrBusy_resp (s : State) : (s.recordErrBusy).resp = s.resp := rfl
@[simp] theorem State.recordErrBusy_agenda (s : State) : (s.recordErrBusy).agenda = s.agenda := rfl
@[simp] theorem State.recordErrBusy_draws (s : State) : (s.recordErrBusy).draws = s.draws := rfl

@[simp] theorem State.storeIn_cfg (w : Word) (a n : Nat) (s : State) : (s.storeIn w a n).cfg = s.cfg := rfl
@[simp] theorem State.storeIn_arg0 (w : Word) (a n : Nat) (s : State) : (s.storeIn w a n).arg0 = s.arg0 := rfl
@[simp] theorem State.storeIn_arg1 (w : Word) (a n : Nat) (s : State) : (s.storeIn w a n).arg1 = s.arg1 := rfl
@[simp] theorem State.storeIn_res0 (w : Word) (a n : Nat) (s : State) : (s.storeIn w a n).res0 = s.res0 := rfl
@[simp] theorem State.storeIn_res1 (w : Word) (a n : Nat) (s : State) : (s.storeIn w a n).res1 = s.res1 := rfl
@[simp] theorem State.storeIn_res2 (w : Word) (a n : Nat) (s : State) : (s.storeIn w a n).res2 = s.res2 := rfl
@[simp] theorem State.storeIn_res3 (w : Word) (a n : Nat) (s : State) : (s.storeIn w a n).res3 = s.res3 := rfl
@[simp] theorem State.storeIn_cmd (w : Word) (a n : Nat) (s : State) : (s.storeIn w a n).cmd = s.cmd := rfl
@[simp] theorem State.storeIn_irqEn (w : Word) (a n : Nat) (s : State) : (s.storeIn w a n).irqEn = s.irqEn := rfl
@[simp] theorem State.storeIn_done (w : Word) (a n : Nat) (s : State) : (s.storeIn w a n).done = s.done := rfl
@[simp] theorem State.storeIn_errBusy (w : Word) (a n : Nat) (s : State) : (s.storeIn w a n).errBusy = s.errBusy := rfl
@[simp] theorem State.storeIn_result (w : Word) (a n : Nat) (s : State) : (s.storeIn w a n).result = s.result := rfl
@[simp] theorem State.storeIn_pending (w : Word) (a n : Nat) (s : State) : (s.storeIn w a n).pending = s.pending := rfl
@[simp] theorem State.storeIn_resetting (w : Word) (a n : Nat) (s : State) : (s.storeIn w a n).resetting = s.resetting := rfl
@[simp] theorem State.storeIn_enc (w : Word) (a n : Nat) (s : State) : (s.storeIn w a n).enc = s.enc := rfl
@[simp] theorem State.storeIn_dec (w : Word) (a n : Nat) (s : State) : (s.storeIn w a n).dec = s.dec := rfl
@[simp] theorem State.storeIn_mem (w : Word) (a n : Nat) (s : State) : (s.storeIn w a n).mem = s.mem.writeBytes a (tabulate (min n (inBase + s.cfg.frameMax - a)) fun k => laneOf w k) := rfl
@[simp] theorem State.storeIn_resp (w : Word) (a n : Nat) (s : State) : (s.storeIn w a n).resp = s.resp := rfl
@[simp] theorem State.storeIn_agenda (w : Word) (a n : Nat) (s : State) : (s.storeIn w a n).agenda = s.agenda := rfl
@[simp] theorem State.storeIn_draws (w : Word) (a n : Nat) (s : State) : (s.storeIn w a n).draws = s.draws := rfl

end Sys2Proof.Machine
end

