-- ==== Sys2Proof/Laws/Exec.lean ====
section
/-! SUPPORT. What each meaning and each shared operation can do, said once: the payload form, the reads of the slots after
each update, parity computation, the erasure count, and DEC_DECODE's three outcomes. -/

namespace Sys2Proof.Machine

/-! ### Completion -/

theorem succeed_eq (s : State) : succeed s = .next { s with result := .ok, done := true, pending := none } := rfl

theorem fail_eq (c : ResultCode) (s : State) :
    fail c s = .next { s with result := c, done := true, pending := none } := rfl

/-- Stated over variables, so that no check ever unfolds the values written (R224). -/
theorem succeed_withRes (v0 v1 v2 v3 : Word) (s : State) : succeed (s.withRes v0 v1 v2 v3) =
    .next { s with res0 := v0, res1 := v1, res2 := v2, res3 := v3, result := .ok, done := true, pending := none } := rfl

/-! ### The payload form -/

/-- Everything the payload form can do: it rejects on exactly the three bounds, and stores otherwise. -/
theorem addPayload_cases (slots idx : Nat) (store : List Byte → Nat → State) (s : State) :
    ((slots ≤ idx ∨ s.cfg.cap < s.a0 ∨ s.cfg.frameMax < s.a1 + s.a0) ∧
      addPayload slots idx store s = fail .errBounds s) ∨
    (idx < slots ∧ s.a0 ≤ s.cfg.cap ∧ s.a1 + s.a0 ≤ s.cfg.frameMax ∧
      addPayload slots idx store s = succeed (store (s.slotImage s.a0 s.a1) s.a0)) := by
  unfold addPayload
  split
  · exact .inl ⟨.inl ‹_›, rfl⟩
  · split
    · exact .inl ⟨.inr (.inl ‹_›), rfl⟩
    · split
      · exact .inl ⟨.inr (.inr ‹_›), rfl⟩
      · exact .inr ⟨by omega, by omega, by omega, rfl⟩

theorem addPayload_reject {slots idx : Nat} {store : List Byte → Nat → State} {s : State}
    (h : slots ≤ idx ∨ s.cfg.cap < s.a0 ∨ s.cfg.frameMax < s.a1 + s.a0) :
    addPayload slots idx store s = fail .errBounds s := by
  rcases addPayload_cases slots idx store s with ⟨_, h'⟩ | ⟨h1, h2, h3, _⟩
  · exact h'
  · omega

theorem addPayload_store {slots idx : Nat} {store : List Byte → Nat → State} {s : State}
    (h1 : idx < slots) (h2 : s.a0 ≤ s.cfg.cap) (h3 : s.a1 + s.a0 ≤ s.cfg.frameMax) :
    addPayload slots idx store s = succeed (store (s.slotImage s.a0 s.a1) s.a0) := by
  rcases addPayload_cases slots idx store s with ⟨h, _⟩ | ⟨_, _, _, h'⟩
  · omega
  · exact h'

/-- ENC_ADD_DATA, both ways (R172). -/
theorem execEncAddData_reject {idx : Nat} {s : State}
    (h : s.cfg.k ≤ idx ∨ s.cfg.cap < s.a0 ∨ s.cfg.frameMax < s.a1 + s.a0) :
    exec (.encAddData idx) s = fail .errBounds s := by
  unfold exec execEncAddData
  exact addPayload_reject h

theorem execEncAddData_store {idx : Nat} {s : State} (h1 : idx < s.cfg.k) (h2 : s.a0 ≤ s.cfg.cap)
    (h3 : s.a1 + s.a0 ≤ s.cfg.frameMax) :
    exec (.encAddData idx) s = succeed (s.withEnc (s.enc.addData idx (s.slotImage s.a0 s.a1) s.a0)) := by
  unfold exec execEncAddData
  exact addPayload_store h1 h2 h3

/-- DEC_ADD_DATA, both ways (R192). -/
theorem execDecAddData_reject {idx : Nat} {s : State}
    (h : s.cfg.k ≤ idx ∨ s.cfg.cap < s.a0 ∨ s.cfg.frameMax < s.a1 + s.a0) :
    exec (.decAddData idx) s = fail .errBounds s := by
  unfold exec execDecAddData
  exact addPayload_reject h

theorem execDecAddData_store {idx : Nat} {s : State} (h1 : idx < s.cfg.k) (h2 : s.a0 ≤ s.cfg.cap)
    (h3 : s.a1 + s.a0 ≤ s.cfg.frameMax) :
    exec (.decAddData idx) s = succeed (s.withDec (s.dec.addData idx (s.slotImage s.a0 s.a1) s.a0)) := by
  unfold exec execDecAddData
  exact addPayload_store h1 h2 h3

/-- DEC_ADD_PARITY, both ways (R194). -/
theorem execDecAddParity_reject {idx : Nat} {s : State}
    (h : s.cfg.m ≤ idx ∨ s.cfg.cap < s.a0 ∨ s.cfg.frameMax < s.a1 + s.a0) :
    exec (.decAddParity idx) s = fail .errBounds s := by
  unfold exec execDecAddParity
  exact addPayload_reject h

theorem execDecAddParity_store {idx : Nat} {s : State} (h1 : idx < s.cfg.m) (h2 : s.a0 ≤ s.cfg.cap)
    (h3 : s.a1 + s.a0 ≤ s.cfg.frameMax) :
    exec (.decAddParity idx) s = succeed (s.withDec (s.dec.addParity idx (s.slotImage s.a0 s.a1) s.a0)) := by
  unfold exec execDecAddParity
  exact addPayload_store h1 h2 h3

@[simp] theorem length_slotImage (s : State) (len off : Nat) : (s.slotImage len off).length = s.cfg.cap :=
  length_tabulate _ _

theorem getD_slotImage (s : State) (len off p : Nat) :
    (s.slotImage len off).getD p 0 = if p < s.cfg.cap ∧ p < len then s.inByte (off + p) else 0 := by
  rw [State.slotImage, getD_tabulate]
  by_cases h : p < s.cfg.cap <;> simp [h]

/-! ### Reads of a slot list after one slot is replaced -/

theorem getD_set_self {α : Type} {l : List α} {i : Nat} (h : i < l.length) (a d : α) : (l.set i a).getD i d = a := by
  simp [List.getD_eq_getElem?_getD, h]

theorem getD_set_ne {α : Type} (l : List α) {i j : Nat} (h : j ≠ i) (a d : α) : (l.set i a).getD j d = l.getD j d := by
  simp [List.getD_eq_getElem?_getD, Ne.symm h]

theorem getD_nil_byte (p : Nat) : ([] : List Byte).getD p 0 = 0 := by simp

/-! ### The encoder -/

theorem beginEncoder_dataLen (c : Config) (w : Word) (i : Nat) : (beginEncoder c w).dataLen i = 0 := by
  simp only [Encoder.dataLen, beginEncoder, getD_tabulate, emptyEncSlot]
  split <;> rfl

theorem beginEncoder_dataByte (c : Config) (w : Word) (i p : Nat) : (beginEncoder c w).dataByte i p = 0 := by
  simp only [Encoder.dataByte, beginEncoder, getD_tabulate, emptyEncSlot]
  split <;> simp [tabulate_const, List.getElem?_replicate]
  split <;> rfl

theorem beginEncoder_parityByte (c : Config) (w : Word) (j p : Nat) : (beginEncoder c w).parityByte j p = 0 := by
  simp only [Encoder.parityByte, beginEncoder, getD_tabulate]
  split
  · rw [getD_tabulate]; split <;> rfl
  · rfl

theorem beginEncoder_shaped (c : Config) (w : Word) : (beginEncoder c w).shaped c = true := by
  simp [Encoder.shaped, beginEncoder, emptyEncSlot, tabulate_const]

theorem addData_dataLen (e : Encoder) (seq : Nat) (bytes : List Byte) (len i : Nat) (h : seq < e.data.length) :
    (e.addData seq bytes len).dataLen i = if i = seq then len else e.dataLen i := by
  simp only [Encoder.dataLen, Encoder.addData]
  split
  · subst_vars; rw [getD_set_self h]
  · rw [getD_set_ne _ ‹_›]

theorem addData_dataByte (e : Encoder) (seq : Nat) (bytes : List Byte) (len i p : Nat) (h : seq < e.data.length) :
    (e.addData seq bytes len).dataByte i p = if i = seq then bytes.getD p 0 else e.dataByte i p := by
  simp only [Encoder.dataByte, Encoder.addData]
  split
  · subst_vars; rw [getD_set_self h]
  · rw [getD_set_ne _ ‹_›]

theorem Encoder.shaped_iff {c : Config} {e : Encoder} : e.shaped c = true ↔
    e.data.length = c.k ∧ (∀ x ∈ e.data, x.bytes.length = c.cap) ∧ e.parity.length = c.m ∧
      ∀ x ∈ e.parity, x.length = c.cap := by
  simp [Encoder.shaped, and_assoc]

theorem Decoder.shaped_iff {c : Config} {d : Decoder} : d.shaped c = true ↔
    d.data.length = c.k ∧ (∀ x ∈ d.data, x.bytes.length = c.cap) ∧ d.parity.length = c.m ∧
      ∀ x ∈ d.parity, x.bytes.length = c.cap := by
  simp [Decoder.shaped, and_assoc]

theorem length_column (c : Config) (e : Encoder) (p : Nat) : (e.column c p).length = c.k := length_tabulate _ _

theorem getD_column (c : Config) (e : Encoder) {i : Nat} (p : Nat) (h : i < c.k) :
    (e.column c p).getD i 0 = if p < e.dataLen i then e.dataByte i p else 0 :=
  getD_tabulate_of_lt _ _ h

/-- RS_ENC never fails on the encoder's columns (R174, R244). -/
theorem codewords_eq (c : Config) (e : Encoder) :
    e.codewords c = some (tabulate e.mpl fun p => codewordOf c (e.column c p)) := by
  rw [Encoder.codewords, allSome_eq_some]
  simp only [tabulate, List.map_map]
  exact List.map_congr_left fun p _ => rsEnc_of_length c (length_column c e p)

/-- ENC_COMPUTE_PARITY as one equation (R174). -/
theorem execEncComputeParity_eq (idx : Nat) (s : State) :
    execEncComputeParity idx s =
      succeed (s.withEnc (s.enc.commitParity s.cfg (tabulate s.enc.mpl fun p => codewordOf s.cfg (s.enc.column s.cfg p)))) := by
  rw [execEncComputeParity, codewords_eq]

theorem commitParity_parityByte (c : Config) (e : Encoder) {j p : Nat} (hj : j < c.m) (hp : p < c.cap) :
    (e.commitParity c (tabulate e.mpl fun p => codewordOf c (e.column c p))).parityByte j p =
      if p < e.mpl then (codewordOf c (e.column c p)).getD (c.k + j) 0 else e.parityByte j p := by
  simp only [Encoder.parityByte, Encoder.commitParity, getD_tabulate_of_lt _ _ hj, getD_tabulate_of_lt _ _ hp]
  split
  · rw [getD_tabulate_of_lt _ _ ‹_›]
  · rfl

theorem commitParity_parityByte_out (c : Config) (e : Encoder) (cws : List (List Byte)) {j p : Nat}
    (h : ¬ (j < c.m ∧ p < c.cap)) : (e.commitParity c cws).parityByte j p = 0 := by
  simp only [Encoder.parityByte, Encoder.commitParity]
  by_cases hj : j < c.m
  · rw [getD_tabulate_of_lt _ _ hj, getD_tabulate, if_neg (by tauto)]
  · rw [getD_tabulate, if_neg hj, getD_nil_byte]

/-! ### Frames -/

theorem length_frameBody (c : Config) (w : Word) (idx : Nat) (payload : List Byte) :
    (frameBody c w idx payload).length = hdrLen + payload.length := by
  simp [frameBody, length_be16, length_be32, hdrLen]
  omega

theorem length_buildFrame (c : Config) (w : Word) (idx : Nat) (payload : List Byte) :
    (buildFrame c w idx payload).length = overhead + payload.length := by
  simp [buildFrame, sealFrame, length_frameBody, length_be16, overhead, crcLen, hdrLen]
  omega

theorem length_parityPayload (e : Encoder) (j : Nat) : (e.parityPayload j).length = e.mpl := length_tabulate _ _

/-- ENC_GET_PARITY where it succeeds (R176). -/
theorem execEncGetParity_ok {idx : Nat} {s : State} (hr : s.enc.ready = true) (hi : idx < s.cfg.m) :
    exec (.encGetParity idx) s =
      succeed ((s.writeOut (buildFrame s.cfg s.enc.totalLen idx (s.enc.parityPayload idx))).withRes0
        (BitVec.ofNat 32 (overhead + s.enc.mpl))) := by
  show (if s.enc.ready = false then _ else if s.cfg.m ≤ idx then _ else _) = _
  rw [hr, if_neg (by decide), if_neg (by omega)]

/-! ### OUT_BUF -/

/-- A read after the commands' write to OUT_BUF. -/
theorem writeOut_read {s : State} (h : s.mem.wf) (f : List Byte) (a : Nat) :
    (s.writeOut f).mem.read a = if outBase ≤ a ∧ a < outBase + f.length then f.getD (a - outBase) 0 else s.mem.read a :=
  Memory.read_writeBytes h outBase f a

theorem writeOut_read_out (s : State) (f : List Byte) {a : Nat} (h : a < outBase ∨ outBase + f.length ≤ a) :
    (s.writeOut f).mem.read a = s.mem.read a :=
  Memory.read_writeBytes_of_outside s.mem f h

/-! ### The decoder -/

theorem beginDecoder_data (c : Config) (w : Word) (n i : Nat) :
    (beginDecoder c w n).dataLen i = 0 ∧ (beginDecoder c w n).dataRx i = false ∧
      ∀ p, (beginDecoder c w n).dataByte i p = 0 := by
  simp only [Decoder.dataLen, Decoder.dataRx, Decoder.dataByte, beginDecoder, getD_tabulate, emptyDecSlot]
  split <;> simp [tabulate_const, List.getElem?_replicate]
  intro p; split <;> rfl

theorem beginDecoder_parity (c : Config) (w : Word) (n j : Nat) :
    (beginDecoder c w n).parityLen j = 0 ∧ (beginDecoder c w n).parityRx j = false ∧
      ∀ p, (beginDecoder c w n).parityByte j p = 0 := by
  simp only [Decoder.parityLen, Decoder.parityRx, Decoder.parityByte, beginDecoder, getD_tabulate, emptyDecSlot]
  split <;> simp [tabulate_const, List.getElem?_replicate]
  intro p; split <;> rfl

theorem beginDecoder_shaped (c : Config) (w : Word) (n : Nat) : (beginDecoder c w n).shaped c = true := by
  simp [Decoder.shaped, beginDecoder, emptyDecSlot, tabulate_const]

/-- The data slots after a payload is stored in one of them (R192). -/
theorem decAddData_slot (d : Decoder) {seq : Nat} (bytes : List Byte) (len i : Nat) (h : seq < d.data.length) :
    (d.addData seq bytes len).dataLen i = (if i = seq then len else d.dataLen i) ∧
    (d.addData seq bytes len).dataRx i = (if i = seq then true else d.dataRx i) ∧
    ∀ p, (d.addData seq bytes len).dataByte i p = if i = seq then bytes.getD p 0 else d.dataByte i p := by
  simp only [Decoder.dataLen, Decoder.dataRx, Decoder.dataByte, Decoder.addData]
  by_cases hi : i = seq
  · subst hi; simp [h]
  · rw [getD_set_ne _ hi]; simp [hi]

/-- The parity slots after a payload is stored in one of them (R194). -/
theorem decAddParity_slot (d : Decoder) {j : Nat} (bytes : List Byte) (len i : Nat) (h : j < d.parity.length) :
    (d.addParity j bytes len).parityLen i = (if i = j then len else d.parityLen i) ∧
    (d.addParity j bytes len).parityRx i = (if i = j then true else d.parityRx i) ∧
    ∀ p, (d.addParity j bytes len).parityByte i p = if i = j then bytes.getD p 0 else d.parityByte i p := by
  simp only [Decoder.parityLen, Decoder.parityRx, Decoder.parityByte, Decoder.addParity]
  by_cases hi : i = j
  · subst hi; simp [h]
  · rw [getD_set_ne _ hi]; simp [hi]

/-- The data slots after a decode (R200). -/
theorem commitData_slot (c : Config) (d : Decoder) (new : Nat → Nat → Byte) {i : Nat} (hi : i < c.k) :
    (d.commitData c new).dataLen i = (if d.dataRx i then d.dataLen i else d.mpl) ∧
    (d.commitData c new).dataRx i = true ∧
    ∀ p < c.cap, (d.commitData c new).dataByte i p = if p < d.mpl then new i p else d.dataByte i p := by
  simp only [Decoder.commitData, Decoder.dataLen, Decoder.dataRx, Decoder.dataByte, getD_tabulate_of_lt _ _ hi]
  refine ⟨trivial, trivial, fun p hp => ?_⟩
  rw [getD_tabulate_of_lt _ _ hp]

theorem countP_range_eq_length_filter (n : Nat) (f : Nat → Bool) :
    (List.range n).countP f = ((List.range n).filter f).length := List.countP_eq_length_filter

theorem missing_eq (c : Config) (d : Decoder) :
    d.missing c = ((List.range c.k).filter fun i => d.dataRx i = false).length := by
  rw [Decoder.missing, countP_range_eq_length_filter]
  congr 2
  funext i
  cases d.dataRx i <;> rfl

theorem parityCount_eq (c : Config) (d : Decoder) :
    d.parityCount c = ((List.range c.m).filter fun j => d.parityRx j = true).length := by
  rw [Decoder.parityCount, countP_range_eq_length_filter]
  congr 2
  funext i
  cases d.parityRx i <;> rfl

theorem missing_le (c : Config) (d : Decoder) : d.missing c ≤ c.k := by
  have := List.countP_le_length (p := fun i => !d.dataRx i) (l := List.range c.k)
  simpa [Decoder.missing] using this

theorem parityCount_le (c : Config) (d : Decoder) : d.parityCount c ≤ c.m := by
  have := List.countP_le_length (p := fun j => d.parityRx j) (l := List.range c.m)
  simpa [Decoder.parityCount] using this

/-- The parity slots not received and those received are all the parity slots. -/
theorem parity_split (c : Config) (d : Decoder) :
    ((List.range c.m).filter fun j => !d.parityRx j).length + d.parityCount c = c.m := by
  have h := List.length_eq_countP_add_countP (fun j => d.parityRx j) (l := List.range c.m)
  simp only [List.length_range] at h
  rw [Decoder.parityCount, ← List.countP_eq_length_filter]
  have : List.countP (fun j => !d.parityRx j) (List.range c.m) =
      List.countP (fun a => decide ¬d.parityRx a = true) (List.range c.m) := by
    congr 1; funext j; cases d.parityRx j <;> rfl
  omega

/-- The erasure count (R199). -/
theorem length_erasures (c : Config) (d : Decoder) :
    (d.erasures c).length = d.missing c + (c.m - d.parityCount c) := by
  have h := parity_split c d
  have hl := parityCount_le c d
  simp only [Decoder.erasures, List.length_append, List.length_map, Decoder.missing, List.countP_eq_length_filter]
  omega

theorem mem_erasures {c : Config} {d : Decoder} {x : Nat} :
    x ∈ d.erasures c ↔ (x < c.k ∧ d.dataRx x = false) ∨ ∃ j < c.m, x = c.k + j ∧ d.parityRx j = false := by
  simp only [Decoder.erasures, List.mem_append, List.mem_filter, List.mem_map, List.mem_range, Bool.not_eq_true',
    eq_comm (a := x)]
  constructor
  · rintro (h | ⟨j, ⟨hj, hr⟩, he⟩)
    · exact .inl h
    · exact .inr ⟨j, hj, he, hr⟩
  · rintro (h | ⟨j, hj, he, hr⟩)
    · exact .inl h
    · exact .inr ⟨j, ⟨hj, hr⟩, he⟩

/-- `canDecode` is the codec's erasure limit (R199). -/
theorem canDecode_iff (c : Config) (d : Decoder) : d.canDecode c = true ↔ (d.erasures c).length ≤ c.m := by
  have h1 := missing_le c d
  have h2 := parityCount_le c d
  rw [length_erasures, Decoder.canDecode, decide_eq_true_iff]
  omega

theorem length_decColumn (c : Config) (d : Decoder) (p : Nat) : (d.column c p).length = c.k + c.m := by
  simp [Decoder.column]

theorem decColumn_data (c : Config) (d : Decoder) {i : Nat} (p : Nat) (h : i < c.k) :
    (d.column c p).getD i 0 = if d.dataRx i then d.dataByte i p else 0 := by
  rw [Decoder.column, getD_append_left _ _ _ (by simpa using h), getD_tabulate_of_lt _ _ h]

theorem decColumn_parity (c : Config) (d : Decoder) {j : Nat} (p : Nat) (h : j < c.m) :
    (d.column c p).getD (c.k + j) 0 = if d.parityRx j then d.parityByte j p else 0 := by
  have := getD_append_right (tabulate c.k fun i => if d.dataRx i then d.dataByte i p else 0)
    (tabulate c.m fun j => if d.parityRx j then d.parityByte j p else 0) 0 j
  rw [length_tabulate] at this
  rw [Decoder.column, this, getD_tabulate_of_lt _ _ h]

/-! ### RS_DEC -/

/-- RS_DEC where a codeword agrees with the known symbols (R246). -/
theorem rsDec_of_fits {c : Config} {r : List Byte} {E : List Nat} (hE : E.length ≤ c.m)
    (h : ∃ msg, FitsMessage c r E msg) : ∃ msg, FitsMessage c r E msg ∧ rsDec c r E = .ok (codewordOf c msg) := by
  have hs := solve_spec c r E
  unfold rsDec
  rw [if_neg (by omega)]
  cases hf : solve c r E with
  | none => rw [hf] at hs; exact absurd h hs
  | some s =>
    obtain ⟨⟨msg, hl, hb⟩, hag⟩ := solve_base hf
    exact ⟨msg, ⟨hl, by simpa [← hb] using hag⟩, by simp [hb]⟩

/-- RS_DEC where no codeword agrees with the known symbols (R246). -/
theorem rsDec_of_not_fits {c : Config} {r : List Byte} {E : List Nat} (hE : E.length ≤ c.m)
    (h : ¬ ∃ msg, FitsMessage c r E msg) : rsDec c r E = .inconsistent := by
  unfold rsDec
  rw [if_neg (by omega)]
  cases hf : solve c r E with
  | none => rfl
  | some s =>
    obtain ⟨⟨msg, hl, hb⟩, hag⟩ := solve_base hf
    exact absurd ⟨msg, hl, by simpa [← hb] using hag⟩ h

/-- Codec calls that none fails give either all codewords, or a draw. -/
theorem collect_of_no_failure {α : Type} {rs : List (CodecResult α)} (h : .failure ∉ rs) :
    (collect rs = .inconsistent ∧ .inconsistent ∈ rs) ∨ ∃ as, collect rs = .ok as := by
  induction rs with
  | nil => exact .inr ⟨[], rfl⟩
  | cons r rs ih =>
    simp only [List.mem_cons, not_or] at h
    cases r with
    | failure => exact absurd rfl h.1
    | inconsistent => exact .inl ⟨rfl, by simp⟩
    | ok a =>
      rcases ih h.2 with ⟨h1, h2⟩ | ⟨as, h1⟩
      · exact .inl ⟨by simp [collect, h1], by simp [h2]⟩
      · exact .inr ⟨a :: as, by simp [collect, h1]⟩

/-- DEC_DECODE's columns when every one fits a codeword (R202). -/
theorem decodeColumns_of_consistent {c : Config} {d : Decoder} (hc : d.canDecode c = true) (h : d.Consistent c) :
    ∃ cws, d.decodeColumns c = .ok cws ∧ ∀ p < d.mpl, ∃ msg,
      FitsMessage c (d.column c p) (d.erasures c) msg ∧ cws.getD p [] = codewordOf c msg := by
  have hE := (canDecode_iff c d).mp hc
  rcases Classical.axiomOfChoice (fun p : Fin d.mpl => rsDec_of_fits hE (h p p.2)) with ⟨msg, hm⟩
  refine ⟨tabulate d.mpl fun p => if hp : p < d.mpl then codewordOf c (msg ⟨p, hp⟩) else [], ?_, ?_⟩
  · rw [Decoder.decodeColumns, collect_eq_ok]
    simp only [tabulate, List.map_map]
    refine List.map_congr_left fun p hp => ?_
    have hp : p < d.mpl := List.mem_range.mp hp
    simpa [hp] using (hm ⟨p, hp⟩).2
  · intro p hp
    exact ⟨msg ⟨p, hp⟩, (hm ⟨p, hp⟩).1, by rw [getD_tabulate_of_lt _ _ hp, dif_pos hp]⟩

/-- DEC_DECODE's columns when some column fits no codeword (R203). -/
theorem decodeColumns_of_inconsistent {c : Config} {d : Decoder} (hc : d.canDecode c = true) (h : ¬ d.Consistent c) :
    d.decodeColumns c = .inconsistent := by
  have hE := (canDecode_iff c d).mp hc
  simp only [Decoder.Consistent, not_forall] at h
  obtain ⟨p, hp, hn⟩ := h
  rw [Decoder.decodeColumns]
  rcases collect_of_no_failure (rs := tabulate d.mpl fun p => rsDec c (d.column c p) (d.erasures c)) (by
    rw [mem_tabulate]
    rintro ⟨q, _, hq⟩
    by_cases hf : ∃ msg, FitsMessage c (d.column c q) (d.erasures c) msg
    · obtain ⟨msg, _, ho⟩ := rsDec_of_fits hE hf; rw [ho] at hq; cases hq
    · rw [rsDec_of_not_fits hE hf] at hq; cases hq) with h | ⟨as, h⟩
  · exact h.1
  · rw [collect_eq_ok] at h
    have hm : (.inconsistent : CodecResult (List Byte)) ∈ as.map .ok := by
      rw [← h, mem_tabulate]; exact ⟨p, hp, rsDec_of_not_fits hE hn⟩
    simp at hm

/-- Everything DEC_DECODE can do (R200, R202, R203). -/
theorem execDecDecode_cases (idx : Nat) (s : State) :
    (s.dec.canDecode s.cfg = false ∧ execDecDecode idx s = fail .errInsufficient s) ∨
    (s.dec.canDecode s.cfg = true ∧ ¬ s.dec.Consistent s.cfg ∧ execDecDecode idx s = decodeInconsistent s) ∨
    (s.dec.canDecode s.cfg = true ∧ ∃ cws : List (List Byte), execDecDecode idx s = succeed (s.decodeTo fun i p => (cws.getD p []).getD i 0) ∧
      ∀ p < s.dec.mpl, ∃ msg, FitsMessage s.cfg (s.dec.column s.cfg p) (s.dec.erasures s.cfg) msg ∧
        cws.getD p [] = codewordOf s.cfg msg) := by
  unfold execDecDecode
  cases hc : s.dec.canDecode s.cfg with
  | false => exact .inl ⟨rfl, by simp⟩
  | true =>
    by_cases hcons : s.dec.Consistent s.cfg
    · obtain ⟨cws, h1, h2⟩ := decodeColumns_of_consistent hc hcons
      exact .inr (.inr ⟨rfl, cws, by simp [h1], h2⟩)
    · exact .inr (.inl ⟨rfl, hcons, by simp [decodeColumns_of_inconsistent hc hcons]⟩)

/-- The message part of a codeword. -/
theorem codewordOf_getD_data (c : Config) {msg : List Byte} {i : Nat} (h : i < msg.length) :
    (codewordOf c msg).getD i 0 = msg.getD i 0 := getD_append_left _ _ _ h

/-! ### Every command at once -/

/-- What a command that succeeds may have made of the state, before its completion (R113, R52). -/
inductive Effect : Instr → State → State → Prop
  | nop (n s) : Effect (.nop n) s s
  | encBegin (n s) : Effect (.encBegin n) s (s.withEnc (beginEncoder s.cfg s.arg0))
  | encAddData (n s) (h1 : n < s.cfg.k) (h2 : s.a0 ≤ s.cfg.cap) (h3 : s.a1 + s.a0 ≤ s.cfg.frameMax) :
      Effect (.encAddData n) s (s.withEnc (s.enc.addData n (s.slotImage s.a0 s.a1) s.a0))
  | encComputeParity (n s) : Effect (.encComputeParity n) s
      (s.withEnc (s.enc.commitParity s.cfg (tabulate s.enc.mpl fun p => codewordOf s.cfg (s.enc.column s.cfg p))))
  | encGetParity (n s) (hr : s.enc.ready = true) (hn : n < s.cfg.m) : Effect (.encGetParity n) s
      ((s.writeOut (buildFrame s.cfg s.enc.totalLen n (s.enc.parityPayload n))).withRes0
        (BitVec.ofNat 32 (overhead + s.enc.mpl)))
  | decBegin (n s) (h : s.a1 ≤ s.cfg.cap) : Effect (.decBegin n) s (s.withDec (beginDecoder s.cfg s.arg0 s.a1))
  | decAddData (n s) (h1 : n < s.cfg.k) (h2 : s.a0 ≤ s.cfg.cap) (h3 : s.a1 + s.a0 ≤ s.cfg.frameMax) :
      Effect (.decAddData n) s (s.withDec (s.dec.addData n (s.slotImage s.a0 s.a1) s.a0))
  | decAddParity (n s) (h1 : n < s.cfg.m) (h2 : s.a0 ≤ s.cfg.cap) (h3 : s.a1 + s.a0 ≤ s.cfg.frameMax) :
      Effect (.decAddParity n) s (s.withDec (s.dec.addParity n (s.slotImage s.a0 s.a1) s.a0))
  | count (i s v) (h : (∃ n, i = .decCountMissing n) ∨ (∃ n, i = .decCountParity n) ∨ ∃ n, i = .decCanDecode n) :
      Effect i s (s.withRes0 v)
  | decode (n s) (cws : List (List Byte))
      (h : ∀ p < s.dec.mpl, ∃ msg, FitsMessage s.cfg (s.dec.column s.cfg p) (s.dec.erasures s.cfg) msg ∧
        cws.getD p [] = codewordOf s.cfg msg) :
      Effect (.decDecode n) s (s.decodeTo fun i p => (cws.getD p []).getD i 0)
  | decodeDraw (n s) (hl : s.cfg.decoder = .lawful) (h : ¬ s.dec.Consistent s.cfg) :
      Effect (.decDecode n) s (s.countDraw.decodeTo (Config.freeDataByte s.draws))
  | decGetData (n s) (hn : n < s.cfg.k) (hr : s.dec.dataRx n = true) : Effect (.decGetData n) s
      ((s.writeOut (s.dec.dataPayload n)).withRes0 (BitVec.ofNat 32 s.dec.mpl))
  | frameParse (n s v0 v1 v2 v3) : Effect (.frameParse n) s (s.withRes v0 v1 v2 v3)

/-- Everything a command can do: fail with one of its codes and no effect, or succeed with its effect. -/
theorem exec_cases (i : Instr) (s : State) :
    (∃ c ∈ resultsOf i, c ≠ .ok ∧ (exec i s = fail c s ∨ exec i s = fail c s.countDraw)) ∨
    ∃ s', Effect i s s' ∧ exec i s = succeed s' := by
  cases i with
  | nop n => exact .inr ⟨s, .nop n s, rfl⟩
  | encBegin n => exact .inr ⟨_, .encBegin n s, rfl⟩
  | encAddData n =>
    rcases addPayload_cases s.cfg.k n (fun b l => s.withEnc (s.enc.addData n b l)) s with ⟨_, h⟩ | ⟨h1, h2, h3, h⟩
    · exact .inl ⟨.errBounds, by simp [resultsOf], by simp, .inl h⟩
    · exact .inr ⟨_, .encAddData n s h1 h2 h3, h⟩
  | encComputeParity n => exact .inr ⟨_, .encComputeParity n s, execEncComputeParity_eq n s⟩
  | encGetParity n =>
    by_cases hr : s.enc.ready = true
    · by_cases hn : n < s.cfg.m
      · exact .inr ⟨_, .encGetParity n s hr hn, execEncGetParity_ok hr hn⟩
      · exact .inl ⟨.errBounds, by simp [resultsOf], by simp,
          .inl ((if_neg (by simp [hr])).trans (if_pos (by omega)))⟩
    · exact .inl ⟨.errNotReady, by simp [resultsOf], by simp, .inl (if_pos (by simpa using hr))⟩
  | decBegin n =>
    by_cases h : s.cfg.cap < s.a1
    · exact .inl ⟨.errBounds, by simp [resultsOf], by simp, .inl (if_pos h)⟩
    · exact .inr ⟨_, .decBegin n s (by omega), if_neg h⟩
  | decAddData n =>
    rcases addPayload_cases s.cfg.k n (fun b l => s.withDec (s.dec.addData n b l)) s with ⟨_, h⟩ | ⟨h1, h2, h3, h⟩
    · exact .inl ⟨.errBounds, by simp [resultsOf], by simp, .inl h⟩
    · exact .inr ⟨_, .decAddData n s h1 h2 h3, h⟩
  | decAddParity n =>
    rcases addPayload_cases s.cfg.m n (fun b l => s.withDec (s.dec.addParity n b l)) s with ⟨_, h⟩ | ⟨h1, h2, h3, h⟩
    · exact .inl ⟨.errBounds, by simp [resultsOf], by simp, .inl h⟩
    · exact .inr ⟨_, .decAddParity n s h1 h2 h3, h⟩
  | decCountMissing n => exact .inr ⟨_, .count _ s _ (.inl ⟨n, rfl⟩), rfl⟩
  | decCountParity n => exact .inr ⟨_, .count _ s _ (.inr (.inl ⟨n, rfl⟩)), rfl⟩
  | decCanDecode n => exact .inr ⟨_, .count _ s _ (.inr (.inr ⟨n, rfl⟩)), rfl⟩
  | decDecode n =>
    rcases execDecDecode_cases n s with ⟨_, h⟩ | ⟨_, hn, h⟩ | ⟨_, cws, h, hp⟩
    · exact .inl ⟨.errInsufficient, by simp [resultsOf], by simp, .inl h⟩
    · unfold decodeInconsistent at h
      split at h
      · exact .inl ⟨.errCodec, by simp [resultsOf], by simp, .inl h⟩
      · split at h
        · exact .inl ⟨.errCodec, by simp [resultsOf], by simp, .inr h⟩
        · exact .inr ⟨_, .decodeDraw n s ‹_› hn, h⟩
    · exact .inr ⟨_, .decode n s cws hp, h⟩
  | decGetData n =>
    by_cases hn : s.cfg.k ≤ n
    · exact .inl ⟨.errBounds, by simp [resultsOf], by simp, .inl (if_pos hn)⟩
    · by_cases hr : s.dec.dataRx n = true
      · exact .inr ⟨_, .decGetData n s (by omega) hr, (if_neg hn).trans (if_neg (by simp [hr]))⟩
      · exact .inl ⟨.errNotReceived, by simp [resultsOf], by simp,
          .inl ((if_neg hn).trans (if_pos (by simpa using hr)))⟩
  | frameParse n =>
    have h : exec (.frameParse n) s = execFrameParse n s := rfl
    unfold execFrameParse at h
    dsimp only at h
    split at h
    · exact .inl ⟨.errBounds, by simp [resultsOf], by simp, .inl h⟩
    · split at h
      · exact .inl ⟨.errFrameLen, by simp [resultsOf], by simp, .inl h⟩
      · split at h
        · exact .inl ⟨.errCrc, by simp [resultsOf], by simp, .inl h⟩
        · split at h
          · exact .inl ⟨.errMagic, by simp [resultsOf], by simp, .inl h⟩
          · exact .inr ⟨_, .frameParse n s _ _ _ _, h⟩

end Sys2Proof.Machine
end

