-- ==== Sys2Proof/Laws/Invariants.lean ====
section
/-! SUPPORT. The invariants of R43 and R47, update by update, and the code facts behind recovery (R242). -/

namespace Sys2Proof.Machine

/-- The bounds a configuration gives (R7, R8, R9). -/
theorem wf_frameMax {c : Config} (h : c.wf = true) :
    c.frameMax ≤ 65535 ∧ c.k ≤ 254 ∧ c.m ≤ 254 ∧ c.mtu ≤ 65535 ∧ 1 ≤ c.k ∧ 1 ≤ c.m := by
  simp [Config.wf, Config.sized] at h; omega

/-- A stored payload keeps the sizes of the encoder (R40). -/
theorem shaped_addData {c : Config} {e : Encoder} (h : e.shaped c = true) (n : Nat) (b : List Byte) (l : Nat)
    (hb : b.length = c.cap) : (e.addData n b l).shaped c = true := by
  rw [Encoder.shaped_iff] at *
  refine ⟨by simp [Encoder.addData, h.1], ?_, h.2.2⟩
  intro x hx
  rcases List.mem_or_eq_of_mem_set hx with hx | rfl
  · exact h.2.1 x hx
  · exact hb

/-- The encoder that ENC_BEGIN leaves (R43, R170). -/
theorem enc_inv_begin (c : Config) (w : Word) : (beginEncoder c w).Inv c where
  shape := beginEncoder_shaped c w
  lenLeMpl i := by rw [beginEncoder_dataLen]; exact Nat.zero_le _
  mplLeCap := Nat.zero_le _
  dataPad i p _ := beginEncoder_dataByte c w i p
  parityPad j p _ := beginEncoder_parityByte c w j p
  parityCoded h := by cases h

/-- The encoder after reset is the one ENC_BEGIN with total_len 0 leaves (R53). -/
theorem enc_inv_atReset (c : Config) : (Encoder.atReset c) = beginEncoder c 0 := by
  simp [Encoder.atReset, beginEncoder, emptyEncSlot, tabulate_const]

/-- The decoder after reset is the one DEC_BEGIN with both operands 0 leaves (R53). -/
theorem dec_inv_atReset (c : Config) : (Decoder.atReset c) = beginDecoder c 0 0 := by
  simp [Decoder.atReset, beginDecoder, emptyDecSlot, tabulate_const]

/-- The decoder that DEC_BEGIN leaves (R47, R190). -/
theorem dec_inv_begin (c : Config) (w : Word) {n : Nat} (hn : n ≤ c.cap) : (beginDecoder c w n).Inv c where
  shape := beginDecoder_shaped c w n
  dataLenLeMpl i := by rw [(beginDecoder_data c w n i).1]; exact Nat.zero_le _
  parityLenLeMpl i := by rw [(beginDecoder_parity c w n i).1]; exact Nat.zero_le _
  mplLeCap := hn
  dataPad i p _ := (beginDecoder_data c w n i).2.2 p
  parityPad j p _ := (beginDecoder_parity c w n j).2.2 p
  dataFresh i _ := ⟨(beginDecoder_data c w n i).1, (beginDecoder_data c w n i).2.2⟩
  parityFresh i _ := ⟨(beginDecoder_parity c w n i).1, (beginDecoder_parity c w n i).2.2⟩

/-- ENC_ADD_DATA keeps the encoder's invariants (R43, R172). -/
theorem enc_inv_add {s : State} (h : s.enc.Inv s.cfg) {n : Nat} (hn : n < s.cfg.k) (h2 : s.a0 ≤ s.cfg.cap) :
    (s.enc.addData n (s.slotImage s.a0 s.a1) s.a0).Inv s.cfg := by
  have hl : n < s.enc.data.length := by rw [(Encoder.shaped_iff.mp h.shape).1]; exact hn
  constructor
  · exact shaped_addData h.shape _ _ _ (length_slotImage _ _ _)
  · intro i
    rw [addData_dataLen _ _ _ _ _ hl]
    show _ ≤ max _ _
    have := h.lenLeMpl i
    split <;> omega
  · exact max_le h.mplLeCap h2
  · intro i p hp
    rw [addData_dataLen _ _ _ _ _ hl] at hp
    rw [addData_dataByte _ _ _ _ _ _ hl]
    split
    · rename_i hi
      rw [if_pos hi] at hp
      rw [getD_slotImage, if_neg (by omega)]
    · rename_i hi
      rw [if_neg hi] at hp
      exact h.dataPad i p hp
  · intro j p hp
    exact h.parityPad j p (le_trans (le_max_left _ _) hp)
  · intro h; cases h

/-- ENC_COMPUTE_PARITY keeps the encoder's invariants (R43, R174). -/
theorem enc_inv_compute {c : Config} {e : Encoder} (h : e.Inv c) :
    (e.commitParity c (tabulate e.mpl fun p => codewordOf c (e.column c p))).Inv c := by
  have hs := Encoder.shaped_iff.mp h.shape
  constructor
  · rw [Encoder.shaped_iff]
    refine ⟨hs.1, hs.2.1, length_tabulate _ _, fun x hx => ?_⟩
    obtain ⟨j, _, rfl⟩ := mem_tabulate.mp hx
    exact length_tabulate _ _
  · exact h.lenLeMpl
  · exact h.mplLeCap
  · exact h.dataPad
  · intro j p hp
    by_cases hjp : j < c.m ∧ p < c.cap
    · rw [commitParity_parityByte _ _ hjp.1 hjp.2, if_neg (by have : e.mpl ≤ p := hp; omega)]
      exact h.parityPad j p hp
    · exact commitParity_parityByte_out _ _ _ hjp
  · intro _ j hj p hp
    have hp : p < e.mpl := hp
    have := h.mplLeCap
    rw [commitParity_parityByte _ _ hj (by omega), if_pos hp]
    rfl

/-- DEC_ADD_DATA keeps the decoder's invariants (R47, R192). -/
theorem dec_inv_addData {s : State} (h : s.dec.Inv s.cfg) {n : Nat} (hn : n < s.cfg.k) (h2 : s.a0 ≤ s.cfg.cap) :
    (s.dec.addData n (s.slotImage s.a0 s.a1) s.a0).Inv s.cfg := by
  have hs := Decoder.shaped_iff.mp h.shape
  have hl : n < s.dec.data.length := by rw [hs.1]; exact hn
  have hx := fun i => decAddData_slot s.dec (s.slotImage s.a0 s.a1) s.a0 i hl
  constructor
  · rw [Decoder.shaped_iff]
    refine ⟨by simp [Decoder.addData, hs.1], ?_, hs.2.2⟩
    intro x hx
    rcases List.mem_or_eq_of_mem_set hx with hx | rfl
    · exact hs.2.1 x hx
    · exact length_slotImage _ _ _
  · intro i
    rw [(hx i).1]
    show _ ≤ max _ _
    have := h.dataLenLeMpl i
    split <;> omega
  · intro j
    exact le_trans (h.parityLenLeMpl j) (le_max_left _ _)
  · exact max_le h.mplLeCap h2
  · intro i p hp
    have hp : max s.dec.mpl s.a0 ≤ p := hp
    rw [(hx i).2.2 p]
    split
    · rw [getD_slotImage, if_neg (by omega)]
    · exact h.dataPad i p (by omega)
  · exact h.parityPad
  · intro i hi
    rw [(hx i).2.1] at hi
    rw [(hx i).1]
    by_cases hin : i = n
    · rw [if_pos hin] at hi; cases hi
    · rw [if_neg hin] at hi ⊢
      refine ⟨(h.dataFresh i hi).1, fun p => ?_⟩
      rw [(hx i).2.2 p, if_neg hin]
      exact (h.dataFresh i hi).2 p
  · exact h.parityFresh

/-- DEC_ADD_PARITY keeps the decoder's invariants (R47, R194). -/
theorem dec_inv_addParity {s : State} (h : s.dec.Inv s.cfg) {n : Nat} (hn : n < s.cfg.m) (h2 : s.a0 ≤ s.cfg.cap) :
    (s.dec.addParity n (s.slotImage s.a0 s.a1) s.a0).Inv s.cfg := by
  have hs := Decoder.shaped_iff.mp h.shape
  have hl : n < s.dec.parity.length := by rw [hs.2.2.1]; exact hn
  have hx := fun i => decAddParity_slot s.dec (s.slotImage s.a0 s.a1) s.a0 i hl
  constructor
  · rw [Decoder.shaped_iff]
    refine ⟨hs.1, hs.2.1, by simp [Decoder.addParity, hs.2.2.1], ?_⟩
    intro x hx
    rcases List.mem_or_eq_of_mem_set hx with hx | rfl
    · exact hs.2.2.2 x hx
    · exact length_slotImage _ _ _
  · intro i
    exact le_trans (h.dataLenLeMpl i) (le_max_left _ _)
  · intro j
    rw [(hx j).1]
    show _ ≤ max _ _
    have := h.parityLenLeMpl j
    split <;> omega
  · exact max_le h.mplLeCap h2
  · intro i p hp
    exact h.dataPad i p (le_trans (le_max_left _ _) hp)
  · intro j p hp
    rw [(hx j).1] at hp
    rw [(hx j).2.2 p]
    by_cases hj : j = n
    · rw [if_pos hj] at hp ⊢
      rw [getD_slotImage, if_neg (by omega)]
    · rw [if_neg hj] at hp ⊢
      exact h.parityPad j p hp
  · exact h.dataFresh
  · intro i hi
    rw [(hx i).2.1] at hi
    rw [(hx i).1]
    by_cases hin : i = n
    · rw [if_pos hin] at hi; cases hi
    · rw [if_neg hin] at hi ⊢
      refine ⟨(h.parityFresh i hi).1, fun p => ?_⟩
      rw [(hx i).2.2 p, if_neg hin]
      exact (h.parityFresh i hi).2 p

/-- No data slot beyond K holds anything after a decode. -/
theorem commitData_out (c : Config) (d : Decoder) (new : Nat → Nat → Byte) {i : Nat} (hi : ¬ i < c.k) :
    (d.commitData c new).dataLen i = 0 ∧ (d.commitData c new).dataRx i = false ∧
      ∀ p, (d.commitData c new).dataByte i p = 0 := by
  unfold Decoder.commitData Decoder.dataLen Decoder.dataRx Decoder.dataByte
  simp only [getD_tabulate, if_neg hi]
  refine ⟨trivial, trivial, fun p => by simp⟩

theorem commitData_byte_cap (c : Config) (d : Decoder) (new : Nat → Nat → Byte) {i p : Nat} (hi : i < c.k)
    (hp : ¬ p < c.cap) :
    (d.commitData c new).dataByte i p = 0 := by
  unfold Decoder.commitData Decoder.dataByte
  simp only [getD_tabulate_of_lt _ _ hi]
  rw [getD_tabulate, if_neg hp]

/-- A committed decode keeps the decoder's invariants, whatever the new bytes (R47, R200). -/
theorem dec_inv_commit {c : Config} {d : Decoder} (h : d.Inv c) (new : Nat → Nat → Byte) :
    (d.commitData c new).Inv c := by
  have hs := Decoder.shaped_iff.mp h.shape
  constructor
  · rw [Decoder.shaped_iff]
    refine ⟨length_tabulate _ _, ?_, hs.2.2⟩
    intro x hx
    obtain ⟨j, _, rfl⟩ := mem_tabulate.mp hx
    exact length_tabulate _ _
  · intro i
    by_cases hi : i < c.k
    · rw [(commitData_slot c d new hi).1]
      split
      · exact h.dataLenLeMpl i
      · exact le_rfl
    · rw [(commitData_out c d new hi).1]; exact Nat.zero_le _
  · exact h.parityLenLeMpl
  · exact h.mplLeCap
  · intro i p hp
    by_cases hi : i < c.k
    · by_cases hpc : p < c.cap
      · rw [(commitData_slot c d new hi).2.2 p hpc, if_neg (by have : d.mpl ≤ p := hp; omega)]
        exact h.dataPad i p hp
      · exact commitData_byte_cap c d new hi hpc
    · exact (commitData_out c d new hi).2.2 p
  · exact h.parityPad
  · intro i hi
    by_cases hik : i < c.k
    · rw [(commitData_slot c d new hik).2.1] at hi; cases hi
    · exact ⟨(commitData_out c d new hik).1, (commitData_out c d new hik).2.2⟩
  · exact h.parityFresh

/-- A frame or payload of at most FRAME_MAX bytes stays in OUT_BUF (R86). -/
theorem mapped_writeOut {s : State} (h : ∀ x ∈ s.mem, buffered s.cfg x.1 = true) (f : List Byte)
    (hf : f.length ≤ s.cfg.frameMax) :
    ∀ x ∈ (s.writeOut f).mem, buffered s.cfg x.1 = true := by
  intro x hx
  rcases Memory.mem_writeBytes hx with hx | hx
  · unfold buffered
    have : outBase ≤ x.1 ∧ x.1 < outBase + s.cfg.frameMax := ⟨hx.1, by omega⟩
    simp [this]
  · exact h x hx

/-- Where two sequences agree on distinct positions, they differ in at most the others. -/
theorem distance_le {n : Nat} {a b : List Byte} {S : List Nat} (hS : S.Nodup) (hr : ∀ t ∈ S, t < n)
    (h : ∀ t ∈ S, a.getD t 0 = b.getD t 0) : distance n a b + S.length ≤ n := by
  have h1 := List.length_eq_countP_add_countP (fun t => decide (a.getD t 0 ≠ b.getD t 0)) (l := List.range n)
  have h2 : S.length ≤ (List.range n).countP fun t => decide ¬ (decide (a.getD t 0 ≠ b.getD t 0) = true) := by
    rw [List.countP_eq_length_filter]
    apply List.Subperm.length_le
    apply List.subperm_of_subset hS
    intro t ht
    simp only [List.mem_filter, List.mem_range]
    exact ⟨hr t ht, by simp only [h t ht]; simp⟩
  rw [List.length_range] at h1
  unfold distance; omega

/-- In a code of minimum distance M + 1, codewords that agree on K positions are equal (R242). -/
theorem codeword_unique {c : Config} (hd : codeDistance c) {S : List Nat} (hS : S.Nodup)
    (hr : ∀ t ∈ S, t < c.k + c.m) (hl : c.k ≤ S.length) {a b : List Byte} (ha : a.length = c.k) (hb : b.length = c.k)
    (h : ∀ t ∈ S, (codewordOf c a).getD t 0 = (codewordOf c b).getD t 0) : a = b := by
  by_contra hne
  have h1 := hd a b ha hb hne
  have h2 := distance_le hS hr h
  omega

/-- The positions outside a set of distinct positions. -/
theorem complement_length {n : Nat} {E : List Nat} (hE : E.Nodup) (hr : ∀ t ∈ E, t < n) :
    ((List.range n).filter fun t => decide (t ∉ E)).length + E.length = n := by
  have h1 := List.length_eq_countP_add_countP (fun t => decide (t ∉ E)) (l := List.range n)
  rw [← List.countP_eq_length_filter]
  have : (List.range n).countP (fun t => decide ¬ (decide (t ∉ E) = true)) = E.length := by
    rw [List.countP_eq_length_filter]
    apply List.Perm.length_eq
    rw [List.perm_ext_iff_of_nodup (List.nodup_range.filter _) hE]
    intro t
    simp only [List.mem_filter, List.mem_range]
    constructor
    · rintro ⟨_, h⟩; simpa using h
    · intro h; exact ⟨hr t h, by simpa using h⟩
  rw [List.length_range] at h1
  omega

/-- Memory is in its canonical form at reset, and the two operations that write it keep it. -/
theorem reset_mem_wf (c : Config) : (State.resetOf c).mem.wf := ⟨List.Pairwise.nil, fun _ h => by cases h⟩

theorem writeOut_wf {s : State} (h : s.mem.wf) (f : List Byte) : (s.writeOut f).mem.wf := Memory.writeBytes_wf h _ _

theorem finishReset_wf (s : State) : s.finishReset.mem.wf := reset_mem_wf s.cfg

end Sys2Proof.Machine
end

