-- ==== Sys2Proof/Laws/Distance.lean ====
section
/-! SUPPORT. The distance law (R242): what the check of a code matrix says, and why the reference code meets it (R248): a
codeword's polynomial vanishes at the M roots of the generator, so no M positions carry a codeword but zero. -/

namespace Sys2Proof.Machine

/-! ### The check of a code matrix -/

/-- `choose` lists the sublists of that length. -/
theorem mem_choose {α : Type} {n : Nat} {l E : List α} : E ∈ choose n l ↔ List.Sublist E l ∧ E.length = n := by
  induction l generalizing n E with
  | nil =>
    cases n with
    | zero => simp [choose]
    | succ n =>
      simp only [choose, List.not_mem_nil, false_iff, List.sublist_nil]
      rintro ⟨rfl, h⟩
      cases h
  | cons x xs ih =>
    cases n with
    | zero => simp [choose]; rintro rfl; simp
    | succ n =>
      simp only [choose, List.mem_append, List.mem_map, ih]
      constructor
      · rintro (⟨E, ⟨h, hl⟩, rfl⟩ | ⟨h, hl⟩)
        · exact ⟨h.cons_cons x, by simp [hl]⟩
        · exact ⟨h.cons x, hl⟩
      · rintro ⟨h, hl⟩
        cases h with
        | cons _ h => exact .inr ⟨h, hl⟩
        | cons_cons _ h => exact .inl ⟨_, ⟨h, by simpa using hl⟩, rfl⟩

/-- A short sublist extends to one of any length in between. -/
theorem exists_sublist_between {α : Type} {D l : List α} (h : List.Sublist D l) {n : Nat} (hD : D.length ≤ n)
    (hn : n ≤ l.length) : ∃ E, List.Sublist E l ∧ E.length = n ∧ ∀ x ∈ D, x ∈ E := by
  induction h generalizing n with
  | slnil => exact ⟨[], .slnil, by simp at hn; simp [hn], by simp⟩
  | @cons D l x h ih =>
    by_cases hl : n ≤ l.length
    · obtain ⟨E, hE, hlen, hm⟩ := ih hD hl
      exact ⟨E, hE.cons x, hlen, hm⟩
    · exact ⟨x :: l, List.Sublist.refl _, by simp at hn ⊢; omega, fun y hy => List.mem_cons_of_mem _ (h.subset hy)⟩
  | @cons_cons D l x h ih =>
    obtain ⟨n, rfl⟩ : ∃ k, n = k + 1 := ⟨n - 1, by simp at hD; omega⟩
    obtain ⟨E, hE, hlen, hm⟩ := ih (n := n) (by simpa using hD) (by simpa using hn)
    refine ⟨x :: E, hE.cons_cons x, by simp [hlen], fun y hy => ?_⟩
    rcases List.mem_cons.mp hy with rfl | hy
    · simp
    · exact List.mem_cons_of_mem _ (hm y hy)

theorem getD_zeros (n t : Nat) : (List.replicate n (0 : Byte)).getD t 0 = 0 := by
  by_cases h : t < n <;> simp [h]

/-- What the check of one set of positions says. -/
theorem onlyZeroOutside_iff {c : Config} {E : List Nat} : onlyZeroOutside c E = true ↔
    ∀ msg : List Byte, msg.length = c.k → (∀ t < c.k + c.m, t ∉ E → (codewordOf c msg).getD t 0 = 0) →
      codewordOf c msg = List.replicate (c.k + c.m) 0 := by
  have hs := solve_spec c (List.replicate (c.k + c.m) 0) E
  have hz : ∀ t, (codewordOf c (List.replicate c.k 0)).getD t 0 = (List.replicate (c.k + c.m) (0 : Byte)).getD t 0 := by
    intro t; rw [codewordOf_zero]
  unfold onlyZeroOutside
  cases h : solve c (List.replicate (c.k + c.m) 0) E with
  | none =>
    rw [h] at hs
    exact absurd ⟨List.replicate c.k 0, by simp, fun t _ _ => hz t⟩ hs
  | some s =>
    rw [h] at hs
    have h0 : s.Reach (List.replicate (c.k + c.m) 0) :=
      (hs _).mpr ⟨⟨List.replicate c.k 0, by simp, (codewordOf_zero c).symm⟩, fun _ _ _ => rfl⟩
    simp only [List.all_eq_true, beq_iff_eq]
    constructor
    · intro hd msg hl hm
      have hall : ∀ w, s.Reach w → w = s.base := by
        intro w hw
        induction hw with
        | base => rfl
        | @add w v hw hv ih =>
          have hwl : w.length = c.k + c.m := by
            obtain ⟨⟨m, hm, rfl⟩, -⟩ := (hs w).mp hw
            exact length_codewordOf c hm
          rw [hd v hv, ← ih]
          apply ext_getD 0
          · simp [length_xorBytes, hwl]
          · intro i _
            rw [getD_xorBytes (by simp [hwl]), getD_zeros]
            exact BitVec.xor_zero
      rw [hall _ h0]
      exact hall _ ((hs _).mpr ⟨⟨msg, hl, rfl⟩, fun t ht hE => by rw [hm t ht hE, getD_zeros]⟩)
    · intro hu v hv
      have hw := Solutions.Reach.add h0 hv
      obtain ⟨⟨msg, hl, he⟩, hag⟩ := (hs _).mp hw
      have hz := hu msg hl (fun t ht hE => by rw [← he, hag t ht hE, getD_zeros])
      rw [← he] at hz
      have hvl : v.length = c.k + c.m := by
        have hsz := foldl_narrow_spec (List.replicate (c.k + c.m) 0) (knownBits (c.k + c.m) E) (allCodewords_sized c)
        unfold solve at h
        rw [h] at hsz
        exact hsz.1.2 v hv
      rw [← hz]
      apply ext_getD 0
      · simp [length_xorBytes, hvl]
      · intro i _
        rw [getD_xorBytes (by simp [hvl]), getD_zeros]
        exact BitVec.zero_xor.symm

/-- A codeword is determined by its message. -/
theorem codewordOf_inj {c : Config} {a b : List Byte} (ha : a.length = c.k) (hb : b.length = c.k)
    (h : codewordOf c a = codewordOf c b) : a = b := List.append_inj_left h (ha.trans hb.symm)

/-- The minimum distance is M + 1 exactly when no message but zero has a codeword on M positions (R242). -/
theorem codeDistance_iff {c : Config} : codeDistance c ↔
    ∀ E, List.Sublist E (List.range (c.k + c.m)) → E.length = c.m → ∀ msg : List Byte, msg.length = c.k →
      (∀ t < c.k + c.m, t ∉ E → (codewordOf c msg).getD t 0 = 0) →
      codewordOf c msg = List.replicate (c.k + c.m) 0 := by
  constructor
  · intro hd E hE hl msg hm hz
    have hnd : E.Nodup := hE.nodup List.nodup_range
    have hlt : ∀ t ∈ E, t < c.k + c.m := fun t ht => List.mem_range.mp (hE.subset ht)
    by_contra hne
    have hne : msg ≠ List.replicate c.k 0 := fun h => hne (by rw [h, codewordOf_zero])
    have h1 := hd msg (List.replicate c.k 0) hm (by simp) hne
    have h2 := distance_le (a := codewordOf c msg) (b := codewordOf c (List.replicate c.k 0))
      (List.nodup_range.filter fun t => decide (t ∉ E))
      (fun t ht => List.mem_range.mp (List.mem_filter.mp ht).1) (fun t ht => by
        obtain ⟨ht, hE⟩ := List.mem_filter.mp ht
        rw [hz t (List.mem_range.mp ht) (by simpa using hE), codewordOf_zero, getD_zeros])
    have h3 := complement_length hnd hlt
    omega
  · intro h a b ha hb hne
    by_contra hlt
    have hD : List.Sublist ((List.range (c.k + c.m)).filter fun t =>
        decide ((codewordOf c a).getD t 0 ≠ (codewordOf c b).getD t 0)) (List.range (c.k + c.m)) := List.filter_sublist
    have hDl : ((List.range (c.k + c.m)).filter fun t =>
        decide ((codewordOf c a).getD t 0 ≠ (codewordOf c b).getD t 0)).length ≤ c.m := by
      rw [← List.countP_eq_length_filter]
      unfold distance at hlt
      omega
    obtain ⟨E, hE, hl, hm⟩ := exists_sublist_between hD hDl (by simp)
    have hab : a.length = b.length := ha.trans hb.symm
    have hx := codewordOf_xor c hab
    have hlc : (codewordOf c a).length = (codewordOf c b).length := by
      rw [length_codewordOf c ha, length_codewordOf c hb]
    have hz := h E hE hl (xorBytes a b) (length_xorBytes_of_eq ha hb) (fun t ht hE => by
      rw [hx, getD_xorBytes hlc]
      by_contra h0
      refine hE (hm t (List.mem_filter.mpr ⟨List.mem_range.mpr ht, ?_⟩))
      simp only [decide_eq_true_eq]
      exact fun heq => h0 (xor_eq_zero.mpr heq))
    refine hne (codewordOf_inj ha hb (ext_getD 0 hlc fun t _ => xor_eq_zero.mp ?_))
    rw [← getD_xorBytes hlc, ← hx, hz, getD_zeros]

/-- The check is the law (R242). -/
theorem distanceHolds_iff {c : Config} : distanceHolds c = true ↔ codeDistance c := by
  rw [codeDistance_iff, distanceHolds, List.all_eq_true]
  constructor
  · exact fun h E hE hl => onlyZeroOutside_iff.mp (h E (mem_choose.mpr ⟨hE, hl⟩))
  · exact fun h E hE => onlyZeroOutside_iff.mpr (h E (mem_choose.mp hE).1 (mem_choose.mp hE).2)

/-! ### The reference code -/

theorem gfMul_comm (a b : Byte) : gfMul a b = gfMul b a := gfMulMod_comm gfPoly a b

theorem gfMul_assoc (a b c : Byte) : gfMul (gfMul a b) c = gfMul a (gfMul b c) := gfMulMod_assoc gfPoly a b c

theorem gfMul_one (a : Byte) : gfMul a 1 = a := gfMulMod_one gfPoly a

/-- Evaluation started from `r`: Horner's rule. -/
def hornerFrom (x r : Byte) (w : List Byte) : Byte := w.foldl (fun acc b => gfMul acc x ^^^ b) r

theorem evalPoly_eq (x : Byte) (w : List Byte) : evalPoly x w = hornerFrom x 0 w := rfl

/-- What the coefficients before a sequence add to its value. -/
theorem hornerFrom_eq (x r : Byte) (w : List Byte) :
    hornerFrom x r w = gfMul r (gfPow x w.length) ^^^ evalPoly x w := by
  induction w generalizing r with
  | nil => show r = gfMul r 1 ^^^ 0; rw [gfMul_one]; exact BitVec.xor_zero.symm
  | cons b w ih =>
    show hornerFrom x (gfMul r x ^^^ b) w = gfMul r (gfPow x (w.length + 1)) ^^^ hornerFrom x (gfMul 0 x ^^^ b) w
    rw [ih, ih (gfMul 0 x ^^^ b), gfMul_zero, gfMul_xor, byte_zero_xor, gfMul_assoc, BitVec.xor_assoc, gfPow,
      gfMul_comm x]

theorem evalPoly_append (x : Byte) (v w : List Byte) :
    evalPoly x (v ++ w) = gfMul (evalPoly x v) (gfPow x w.length) ^^^ evalPoly x w := by
  rw [evalPoly, List.foldl_append]
  exact hornerFrom_eq x _ w

theorem evalPoly_cons (x b : Byte) (w : List Byte) :
    evalPoly x (b :: w) = gfMul b (gfPow x w.length) ^^^ evalPoly x w := by
  have h : evalPoly x (b :: w) = hornerFrom x (gfMul 0 x ^^^ b) w := rfl
  rw [h, gfMul_zero, byte_zero_xor, hornerFrom_eq]

theorem evalPoly_xor (x : Byte) {a b : List Byte} (h : a.length = b.length) :
    evalPoly x (xorBytes a b) = evalPoly x a ^^^ evalPoly x b := by
  induction a generalizing b with
  | nil =>
    cases b with
    | nil => exact (BitVec.xor_self (x := (0 : Byte))).symm
    | cons => cases h
  | cons y a ih =>
    cases b with
    | nil => cases h
    | cons z b =>
      have hl : a.length = b.length := by simpa using h
      show evalPoly x ((y ^^^ z) :: xorBytes a b) = _
      rw [evalPoly_cons, evalPoly_cons, evalPoly_cons, ih hl, length_xorBytes, ← hl, Nat.min_self, gfMul_xor, xor_swap]

theorem evalPoly_scale (x y : Byte) (w : List Byte) : evalPoly x (w.map (gfMul y)) = gfMul y (evalPoly x w) := by
  induction w with
  | nil => exact (gfMul_zero_right y).symm
  | cons b w ih => rw [List.map_cons, evalPoly_cons, evalPoly_cons, ih, List.length_map, gfMul_xor_right, gfMul_assoc]

theorem evalPoly_snoc_zero (x : Byte) (w : List Byte) : evalPoly x (w ++ [0]) = gfMul (evalPoly x w) x := by
  rw [evalPoly, List.foldl_append]
  exact byte_xor_zero _

theorem evalPoly_zero_cons (x : Byte) (w : List Byte) : evalPoly x (0 :: w) = evalPoly x w := by
  rw [evalPoly_cons, gfMul_zero, byte_zero_xor]

/-- The generator vanishes at its roots (R248). -/
theorem evalPoly_genPoly {n i : Nat} (h : i < n) : evalPoly (gfPow gfAlpha i) (genPoly n) = 0 := by
  induction n with
  | zero => cases h
  | succ n ih =>
    rw [genPoly, evalPoly_xor _ (by simp), evalPoly_snoc_zero, evalPoly_zero_cons, evalPoly_scale]
    rcases Nat.lt_succ_iff_lt_or_eq.mp h with h | rfl
    · rw [ih h, gfMul_zero, gfMul_zero_right, byte_zero_xor]
    · rw [gfMul_comm]
      exact BitVec.xor_self

/-- The leading coefficient of the generator is 1 (R248). -/
theorem genPoly_cons (n : Nat) : genPoly n = 1 :: (genPoly n).drop 1 := by
  have h : ∀ n, ∃ g, genPoly n = 1 :: g := fun n => by
    induction n with
    | zero => exact ⟨[], rfl⟩
    | succ n ih =>
      obtain ⟨g, hg⟩ := ih
      exact ⟨_, by rw [genPoly, hg, List.cons_append]; rfl⟩
  obtain ⟨g, hg⟩ := h n
  rw [hg]; rfl

/-- One division step, at a root of the generator: the remainder's value becomes that of the shifted remainder with the
next coefficient at x^M. -/
theorem evalPoly_divStep {x : Byte} {g rem : List Byte} (hl : g.length = rem.length) (hm : 0 < rem.length)
    (hx : evalPoly x (1 :: g) = 0) (b : Byte) :
    evalPoly x (divStep g rem b) = gfMul (evalPoly x rem) x ^^^ gfMul b (gfPow x g.length) := by
  have hg : evalPoly x g = gfPow x g.length := by
    rw [evalPoly_cons, gfMul_comm, gfMul_one] at hx
    exact (xor_eq_zero.mp hx).symm
  cases rem with
  | nil => cases hm
  | cons r rem =>
    have hgl : g.length = rem.length + 1 := hl
    show evalPoly x (xorBytes (rem ++ [0]) (g.map (gfMul (b ^^^ r)))) = _
    rw [evalPoly_xor _ (by simp [hgl]), evalPoly_snoc_zero, evalPoly_scale, hg, evalPoly_cons, gfMul_xor, gfMul_xor,
      gfMul_assoc, hgl, gfPow, BitVec.xor_comm (gfMul b _), ← BitVec.xor_assoc, BitVec.xor_comm (gfMul (evalPoly x rem) x)]

/-- The whole division, at a root of the generator: the remainder has the value of the message times x^M (R248). -/
theorem evalPoly_foldl_divStep {x : Byte} {g rem msg : List Byte} (hl : g.length = rem.length) (hm : 0 < rem.length)
    (hx : evalPoly x (1 :: g) = 0) :
    evalPoly x (msg.foldl (divStep g) rem) =
      gfMul (evalPoly x rem) (gfPow x msg.length) ^^^ gfMul (evalPoly x msg) (gfPow x g.length) := by
  induction msg generalizing rem with
  | nil =>
    show evalPoly x rem = gfMul _ 1 ^^^ gfMul 0 _
    rw [gfMul_one, gfMul_zero, byte_xor_zero]
  | cons b msg ih =>
    have hl' : g.length = (divStep g rem b).length := by rw [length_divStep hl]; exact hl
    rw [List.foldl_cons, ih hl' (by rw [length_divStep hl]; exact hm), evalPoly_divStep hl hm hx, gfMul_xor, gfMul_assoc,
      evalPoly_cons, gfMul_xor, List.length_cons, gfPow, gfMul_comm x, BitVec.xor_assoc, gfMul_assoc b, gfMul_assoc b,
      gfMul_comm (gfPow x g.length)]

/-- A reference codeword vanishes at the roots, put together from its message and its parity (R248). -/
theorem evalPoly_referenceParity {m i : Nat} (hi : i < m) (msg : List Byte) :
    evalPoly (gfPow gfAlpha i) (msg ++ referenceParity m msg) = 0 := by
  have hg : ((genPoly m).drop 1).length = m := by simp [length_genPoly]
  have hz : evalPoly (gfPow gfAlpha i) (List.replicate m 0) = 0 := by
    induction m with
    | zero => rfl
    | succ m ih =>
      clear ih hg hi
      induction m + 1 with
      | zero => rfl
      | succ n ih => rw [List.replicate_succ, evalPoly_zero_cons, ih]
  rw [evalPoly_append, length_referenceParity, referenceParity,
    evalPoly_foldl_divStep (by simp [length_genPoly]) (by simp; omega) (by rw [← genPoly_cons]; exact evalPoly_genPoly hi),
    hz, gfMul_zero, byte_zero_xor, hg]
  exact BitVec.xor_self

/-- The sum of `g` over a list of positions. -/
def listSum (l : List Nat) (g : Nat → Byte) : Byte := l.foldr (fun t s => g t ^^^ s) 0

theorem listSum_cons (t : Nat) (l : List Nat) (g : Nat → Byte) : listSum (t :: l) g = g t ^^^ listSum l g := rfl

theorem listSum_congr {l : List Nat} {f g : Nat → Byte} (h : ∀ t ∈ l, f t = g t) : listSum l f = listSum l g := by
  induction l with
  | nil => rfl
  | cons t l ih => rw [listSum_cons, listSum_cons, h t (by simp), ih fun s hs => h s (by simp [hs])]

theorem listSum_map (l : List Nat) (u : Nat → Nat) (g : Nat → Byte) : listSum (l.map u) g = listSum l fun t => g (u t) := by
  induction l with
  | nil => rfl
  | cons t l ih => rw [List.map_cons, listSum_cons, listSum_cons, ih]

theorem listSum_xor (l : List Nat) (f g : Nat → Byte) :
    listSum l (fun t => f t ^^^ g t) = listSum l f ^^^ listSum l g := by
  induction l with
  | nil => exact (BitVec.xor_self (x := (0 : Byte))).symm
  | cons t l ih => rw [listSum_cons, listSum_cons, listSum_cons, ih, xor_swap]

theorem listSum_mul (l : List Nat) (g : Nat → Byte) (x : Byte) :
    listSum l (fun t => gfMul (g t) x) = gfMul (listSum l g) x := by
  induction l with
  | nil => exact (gfMul_zero x).symm
  | cons t l ih => rw [listSum_cons, listSum_cons, ih, gfMul_xor]

/-- Terms that are 0 do not count. -/
theorem listSum_sublist {E l : List Nat} (h : List.Sublist E l) (hl : l.Nodup) {g : Nat → Byte}
    (hg : ∀ t ∈ l, t ∉ E → g t = 0) : listSum l g = listSum E g := by
  induction h with
  | slnil => rfl
  | @cons E l t h ih =>
    have hd := List.nodup_cons.mp hl
    rw [listSum_cons, hg t (by simp) (fun ht => hd.1 (h.subset ht)), byte_zero_xor,
      ih hd.2 fun s hs hE => hg s (by simp [hs]) hE]
  | @cons_cons E l t h ih =>
    have hd := List.nodup_cons.mp hl
    rw [listSum_cons, listSum_cons, ih hd.2 fun s hs hE => hg s (by simp [hs]) fun hm => by
      rcases List.mem_cons.mp hm with rfl | hm
      · exact hd.1 hs
      · exact hE hm]

/-- A polynomial's value, position by position (R248). -/
theorem evalPoly_eq_listSum (x : Byte) (w : List Byte) :
    evalPoly x w = listSum (List.range w.length) fun t => gfMul (w.getD t 0) (gfPow x (w.length - 1 - t)) := by
  induction w with
  | nil => rfl
  | cons b w ih =>
    rw [evalPoly_cons, ih, List.length_cons, List.range_succ_eq_map, listSum_cons, listSum_map]
    congr 1
    refine listSum_congr fun t _ => ?_
    rw [List.getD_cons_succ, show w.length + 1 - 1 - (t + 1) = w.length - 1 - t by omega]

/-- Coefficients at distinct points whose power sums vanish from exponent 0 on, as many as there are points, are all 0. -/
theorem eq_zero_of_power_sums {ts : List Nat} (hn : ts.Nodup) {x : Nat → Byte}
    (hx : ∀ s ∈ ts, ∀ t ∈ ts, x s = x t → s = t) {m : Nat} (hm : ts.length ≤ m) {f : Nat → Byte}
    (h : ∀ i < m, listSum ts (fun t => gfMul (f t) (gfPow (x t) i)) = 0) : ∀ t ∈ ts, f t = 0 := by
  induction ts generalizing m f with
  | nil => simp
  | cons u ts ih =>
    have hd := List.nodup_cons.mp hn
    simp only [List.length_cons] at hm
    have hrest : ∀ t ∈ ts, gfMul (f t) (x t ^^^ x u) = 0 := by
      refine ih hd.2 (fun s hs t ht => hx s (by simp [hs]) t (by simp [ht])) (m := m - 1) (by omega) fun i hi => ?_
      have h0 := h i (by omega)
      have h1 := h (i + 1) (by omega)
      rw [listSum_cons] at h0 h1
      have hterm : listSum ts (fun t => gfMul (gfMul (f t) (x t ^^^ x u)) (gfPow (x t) i)) =
          listSum ts (fun t => gfMul (f t) (gfPow (x t) (i + 1))) ^^^
            gfMul (listSum ts fun t => gfMul (f t) (gfPow (x t) i)) (x u) := by
        rw [← listSum_mul, ← listSum_xor]
        refine listSum_congr fun t _ => ?_
        rw [gfMul_xor_right, gfMul_xor, gfMul_assoc, gfMul_assoc, gfPow, gfMul_comm (x t), gfMul_comm (x u), gfMul_assoc]
      rw [hterm, ← xor_eq_zero.mp h0, ← xor_eq_zero.mp h1, gfPow, gfMul_assoc]
      exact BitVec.xor_self
    have hts : ∀ t ∈ ts, f t = 0 := by
      intro t ht
      have hne : x t ^^^ x u ≠ 0 := fun h0 => by
        have := hx t (by simp [ht]) u (by simp) (xor_eq_zero.mp h0)
        exact hd.1 (this ▸ ht)
      exact gfMul_eq_zero hne ((gfMul_comm _ _).trans (hrest t ht))
    intro t ht
    rcases List.mem_cons.mp ht with rfl | ht
    · have h0 := h 0 (by omega)
      have hz : listSum ts (fun s => gfMul (f s) (gfPow (x s) 0)) = 0 := by
        rw [listSum_congr (g := fun _ => 0) fun s hs => by rw [hts s hs, gfMul_zero]]
        exact listSum_sublist (List.nil_sublist ts) hd.2 fun _ _ _ => rfl
      rw [listSum_cons, hz, byte_xor_zero] at h0
      exact (gfMul_one _).symm.trans h0
    · exact hts t ht

/-- The reference code has minimum distance M + 1 (R242, R248). -/
theorem referenceCode_distance {c : Config} (hc : c.code = .reference) (hn : c.k + c.m ≤ 255) : codeDistance c := by
  rw [codeDistance_iff]
  intro E hE hl msg hm hz
  have hlen := length_codewordOf c hm
  have hlt : ∀ t ∈ E, t < c.k + c.m := fun t ht => List.mem_range.mp (hE.subset ht)
  have hw : codewordOf c msg = msg ++ referenceParity c.m msg := by rw [codewordOf, parityOf, hc]
  have h0 : ∀ t ∈ E, (codewordOf c msg).getD t 0 = 0 := by
    refine eq_zero_of_power_sums (hE.nodup List.nodup_range) (x := fun t => gfPow gfAlpha (c.k + c.m - 1 - t))
      (fun s hs t ht h => ?_) (m := c.m) hl.le fun i hi => ?_
    · have hs := hlt s hs
      have ht := hlt t ht
      have := gfPow_alpha_injective (by omega) (by omega) h
      omega
    · have hv := evalPoly_referenceParity hi msg
      rw [← hw, evalPoly_eq_listSum, hlen] at hv
      refine Eq.trans (listSum_congr fun t _ => ?_) ((listSum_sublist hE List.nodup_range fun t ht hE => by
        rw [hz t (List.mem_range.mp ht) hE, gfMul_zero]).symm.trans hv)
      rw [← gfPow_mul, Nat.mul_comm, gfPow_mul]
  apply ext_getD 0 (by rw [hlen, List.length_replicate])
  intro t ht
  rw [getD_zeros]
  by_cases hE : t ∈ E
  · exact h0 t hE
  · exact hz t (by omega) hE

/-- The code of a configuration that exists has minimum distance M + 1 (R12, R242). -/
theorem codeDistance_of_wf {c : Config} (h : c.wf = true) : codeDistance c := by
  have hw := wf_frameMax h
  simp only [Config.wf, Bool.and_eq_true] at h
  cases hc : c.code with
  | reference =>
    refine referenceCode_distance hc ?_
    have hs := h.1
    simp [Config.sized] at hs
    omega
  | matrix p t =>
    have hl := h.2
    simp only [codeLawful, hc, Bool.and_eq_true] at hl
    exact distanceHolds_iff.mp hl.2

end Sys2Proof.Machine
end

