-- ==== Sys2Proof/Laws/Frame.lean ====
section
/-! SUPPORT. The fields of frames and of command words, and what the checksum loses: nothing. -/

namespace Sys2Proof.Machine

/-- The fields of an assembled word (R110). -/
theorem fields {n o : Nat} (hn : n < 65536) (ho : o < 256) :
    opcOf (BitVec.ofNat 32 (n * 65536 + o)) = o ∧ rsvOf (BitVec.ofNat 32 (n * 65536 + o)) = 0 ∧
      idxOf (BitVec.ofNat 32 (n * 65536 + o)) = n := by
  simp only [opcOf, rsvOf, idxOf, BitVec.toNat_ofNat]
  omega

/-- An assembled word decodes to what the opcode map gives its fields (R114). -/
theorem decodeWord_fields {n o : Nat} {i : Instr} (hn : n < 65536) (ho : o < 256) (h : instrOf o n = some i) :
    decodeWord (BitVec.ofNat 32 (n * 65536 + o)) = .ok i := by
  obtain ⟨h1, h2, h3⟩ := fields hn ho
  rw [decodeWord, h2, if_neg (by simp), h1, h3, h]

theorem opcode_lt (i : Instr) : opcodeOf i < 256 := by cases i <;> simp [opcodeOf]

theorem instrOf_opcodeOf (i : Instr) : instrOf (opcodeOf i) i.idx = some i := by cases i <;> rfl

theorem word_bytes (w : Word) :
    wordOfBytes (w.extractLsb' 0 8) (w.extractLsb' 8 8) (w.extractLsb' 16 8) (w.extractLsb' 24 8) = w := by
  apply BitVec.eq_of_getLsbD_eq
  intro i hi
  simp only [wordOfBytes, BitVec.getLsbD_append, BitVec.getLsbD_extractLsb']
  have : ∀ a b : Nat, a = b → w.getLsbD a = w.getLsbD b := fun a b h => by rw [h]
  by_cases h1 : i < 8
  · simp [h1]
  · by_cases h2 : i - 8 < 8
    · simp only [h1, h2, if_false, if_true, decide_true, Bool.true_and]; exact this _ _ (by omega)
    · by_cases h3 : i - 8 - 8 < 8
      · simp only [h1, h2, h3, if_false, if_true, decide_true, Bool.true_and]; exact this _ _ (by omega)
      · have h4 : i - 8 - 8 - 8 < 8 := by omega
        simp only [h1, h2, h3, h4, if_false, decide_true, Bool.true_and]; exact this _ _ (by omega)

/-- A 16-bit field inside a frame (R15). -/
theorem rdBe16_at (a : List Byte) (v : Half) (b : List Byte) : rdBe16 (a ++ (be16 v ++ b)) a.length = v.toNat := by
  rw [← rdBe16_be16 v b]
  unfold rdBe16
  have h0 := getD_append_right a (be16 v ++ b) 0 0
  have h1 := getD_append_right a (be16 v ++ b) 0 1
  rw [Nat.add_zero] at h0
  rw [h0, h1]

/-- A 32-bit field inside a frame (R15). -/
theorem rdBe32_at (a : List Byte) (v : Word) (b : List Byte) : rdBe32 (a ++ (be32 v ++ b)) a.length = v.toNat := by
  rw [← rdBe32_be32 v b]
  unfold rdBe32
  have h0 := getD_append_right a (be32 v ++ b) 0 0
  have h1 := getD_append_right a (be32 v ++ b) 0 1
  have h2 := getD_append_right a (be32 v ++ b) 0 2
  have h3 := getD_append_right a (be32 v ++ b) 0 3
  rw [Nat.add_zero] at h0
  rw [h0, h1, h2, h3]

theorem rdBe16_lt (s : List Byte) (o : Nat) : rdBe16 s o < 65536 := by
  unfold rdBe16
  have h1 := (s.getD o 0).isLt
  have h2 := (s.getD (o+1) 0).isLt
  omega

/-- RES1 of FRAME_PARSE as two halves (R224). -/
theorem res1_eq {a b : Nat} (ha : a < 65536) (hb : b < 65536) :
    (BitVec.ofNat 32 (a * 65536 + b) : Word) = (BitVec.ofNat 32 a <<< 16) ||| BitVec.ofNat 32 b := by
  apply BitVec.eq_of_toNat_eq
  rw [BitVec.toNat_or, BitVec.toNat_shiftLeft]
  simp only [BitVec.toNat_ofNat]
  rw [Nat.mod_eq_of_lt (by omega), Nat.mod_eq_of_lt (a := a) (by omega), Nat.mod_eq_of_lt (a := b) (by omega),
    Nat.shiftLeft_eq, Nat.mod_eq_of_lt (by omega)]
  have := Nat.shiftLeft_add_eq_or_of_lt (i := 16) (show b < 2^16 by omega) a
  rw [Nat.shiftLeft_eq] at this
  exact this

/-- A candidate in IN_BUF, byte by byte. -/
theorem inBytes_eq {s : State} {f : List Byte} {off n : Nat} (hl : f.length = n)
    (h : ∀ p < n, f.getD p 0 = s.mem.read (0x10000 + (off + p))) : s.inBytes off n = f := by
  apply ext_getD 0
  · rw [State.inBytes, length_tabulate, hl]
  · intro i hi
    rw [State.inBytes, length_tabulate] at hi
    rw [State.inBytes, getD_tabulate_of_lt _ _ hi, h i hi]; rfl

/-- The checksum loses nothing of its start value. -/
theorem crc16_inj (a b : Half) (l : List Byte) (h : crc16 a l = crc16 b l) : a = b := by
  induction l generalizing a b with
  | nil => exact h
  | cons x l ih =>
    have := ih _ _ h
    unfold crcByte at this
    have h2 : crcShifts 8 ((a ^^^ (x.setWidth 16 <<< 8)) ^^^ (b ^^^ (x.setWidth 16 <<< 8))) = 0 := by
      rw [crcShifts_xor, this, BitVec.xor_self]; rfl
    have h3 := crcShifts_eq_zero h2
    have h4 : a ^^^ (x.setWidth 16 <<< 8) = b ^^^ (x.setWidth 16 <<< 8) := by
      rw [← BitVec.xor_eq_zero_iff]; exact h3
    have h5 := congrArg (fun z => z ^^^ (x.setWidth 16 <<< 8)) h4
    simpa only [BitVec.xor_assoc, BitVec.xor_self, BitVec.xor_zero] using h5

/-- The checksum loses nothing of a byte. -/
theorem crcByte_inj (a : Half) (x y : Byte) (h : crcByte a x = crcByte a y) : x = y := by
  unfold crcByte at h
  have h2 : crcShifts 8 ((a ^^^ (x.setWidth 16 <<< 8)) ^^^ (a ^^^ (y.setWidth 16 <<< 8))) = 0 := by
    rw [crcShifts_xor, h, BitVec.xor_self]; rfl
  have h4 := BitVec.xor_eq_zero_iff.mp (crcShifts_eq_zero h2)
  have h5 : (x.setWidth 16 <<< 8 : Half) = y.setWidth 16 <<< 8 := by
    have h5 := congrArg (fun z => a ^^^ z) h4
    simpa only [← BitVec.xor_assoc, BitVec.xor_self, BitVec.zero_xor] using h5
  apply BitVec.eq_of_getLsbD_eq
  intro i hi
  have := congrArg (fun b : Half => b.getLsbD (i + 8)) h5
  simpa [hi, show i + 8 < 16 by omega] using this

/-- Sequences that differ in one byte have different checksums (R252). -/
theorem crc16_flip (init : Half) (f g : List Byte) (q : Nat) (hl : f.length = g.length) (hq : q < f.length)
    (hne : f.getD q 0 ≠ g.getD q 0)
    (h : ∀ o, o ≠ q → f.getD o 0 = g.getD o 0) : crc16 init f ≠ crc16 init g := by
  induction f generalizing init g q with
  | nil => simp at hq
  | cons x f ih =>
    cases g with
    | nil => simp at hl
    | cons y g =>
      intro he
      cases q with
      | zero =>
        have hfg : f = g := by
          apply ext_getD 0 (by simpa using hl)
          intro i _; have := h (i+1) (by omega); simpa using this
        subst hfg
        have := crc16_inj _ _ f he
        exact hne (crcByte_inj _ _ _ this)
      | succ q =>
        have h0 : x = y := by have := h 0 (by omega); simpa using this
        subst h0
        refine ih (crcByte init x) g q (by simpa using hl) (by simpa using hq) (by simpa using hne) ?_ he
        intro o ho
        have := h (o+1) (by omega); simpa using this

end Sys2Proof.Machine
end

