-- ==== Sys2Proof/Laws/PerInstr.lean ====
section
/-! SUPPORT. Family EncodeFields: the word of a well-formed command carries its opcode in [7:0], 0 in [15:8] and its slot
index in [31:16] (R110, R114), one lemma per command. -/

namespace Sys2Proof.Laws.EncodeFields

/-- A well-formed command's word has the three fields of R110. -/
def Statement (i : Instr) : Prop :=
  i.wf = true → opcOf (encode i) = opcodeOf i ∧ rsvOf (encode i) = 0 ∧ idxOf (encode i) = i.idx

theorem every (i : Instr) : Statement i := fun h =>
  Machine.fields (by simpa [Instr.wf] using h) (Machine.opcode_lt i)

theorem nop (idx : Nat) : Statement (.nop idx) := every _

theorem encBegin (idx : Nat) : Statement (.encBegin idx) := every _

theorem encAddData (idx : Nat) : Statement (.encAddData idx) := every _

theorem encComputeParity (idx : Nat) : Statement (.encComputeParity idx) := every _

theorem encGetParity (idx : Nat) : Statement (.encGetParity idx) := every _

theorem decBegin (idx : Nat) : Statement (.decBegin idx) := every _

theorem decAddData (idx : Nat) : Statement (.decAddData idx) := every _

theorem decAddParity (idx : Nat) : Statement (.decAddParity idx) := every _

theorem decCountMissing (idx : Nat) : Statement (.decCountMissing idx) := every _

theorem decCountParity (idx : Nat) : Statement (.decCountParity idx) := every _

theorem decCanDecode (idx : Nat) : Statement (.decCanDecode idx) := every _

theorem decDecode (idx : Nat) : Statement (.decDecode idx) := every _

theorem decGetData (idx : Nat) : Statement (.decGetData idx) := every _

theorem frameParse (idx : Nat) : Statement (.frameParse idx) := every _

end Sys2Proof.Laws.EncodeFields
end

