-- ==== Sys2Proof/Laws/Step.lean ====
section
/-! SUPPORT. What a step can do, said once: whose turn it is, what an access of the host turns into, and everything the
host's turn or the engine's turn may have changed. -/

namespace Sys2Proof.Machine

/-! ### Whose turn it is -/

/-- The turns of `s`: `rest` are those after the engine's. -/
def EngineTurn (s : State) (rest : List Move) : Prop := s.agenda = [] ∧ rest = [] ∨ s.agenda = .engine :: rest

theorem withAgenda_self (s : State) : s.withAgenda s.agenda = s := rfl

theorem step_engine {s : State} {rest : List Move} (hw : s.cfg.wf = true) (h : EngineTurn s rest) :
    step s = engineStep (s.withAgenda rest) := by
  unfold step
  rcases h with ⟨h, rfl⟩ | h
  · rw [hw, if_pos rfl, h]
    show engineStep s = _
    rw [← h]; rfl
  · rw [hw, if_pos rfl, h]

theorem step_turn {s : State} {m : Move} {rest : List Move} (hw : s.cfg.wf = true) (h : s.agenda = m :: rest)
    (hm : m ≠ .engine) : step s = .next (takeTurn m rest s) := by
  unfold step
  rw [hw, if_pos rfl, h]
  cases m <;> first | rfl | exact absurd rfl hm

/-- A step is a turn of the engine or of the host or the pin, and happens only in a configuration that exists. -/
theorem step_cases {s t : State} (h : step s = .next t) : s.cfg.wf = true ∧
    ((∃ rest, EngineTurn s rest ∧ engineStep (s.withAgenda rest) = .next t) ∨
      ∃ m rest, m ≠ .engine ∧ s.agenda = m :: rest ∧ t = takeTurn m rest s) := by
  by_cases hw : s.cfg.wf = true
  · refine ⟨hw, ?_⟩
    cases ha : s.agenda with
    | nil => exact .inl ⟨[], .inl ⟨ha, rfl⟩, by rw [← step_engine hw (.inl ⟨ha, rfl⟩), h]⟩
    | cons m rest =>
      by_cases hm : m = .engine
      · subst hm
        exact .inl ⟨rest, .inr ha, by rw [← step_engine hw (.inr ha), h]⟩
      · rw [step_turn hw ha hm] at h
        cases h
        exact .inr ⟨m, rest, hm, rfl, rfl⟩
  · unfold step at h
    rw [if_neg hw] at h
    cases h

/-- What the engine's turn can be: the end of a reset clear, nothing, an illegal word, or a command (R152, R303). -/
theorem engineStep_cases {s t : State} (h : engineStep s = .next t) :
    (s.resetting = true ∧ t = s.finishReset) ∨
    (s.resetting = false ∧ s.pending = none ∧ t = s) ∨
    (s.resetting = false ∧ s.pending ≠ none ∧ t = s.complete .errIllegalCmd) ∨
    (s.resetting = false ∧ ∃ w i, s.pending = some w ∧ decodeWord w = .ok i ∧ exec i s = .next t) := by
  unfold engineStep at h
  split at h
  · cases h; exact .inl ⟨‹_›, rfl⟩
  · have hr : s.resetting = false := by simp_all
    split at h
    · cases h; exact .inr (.inl ⟨hr, ‹_›, rfl⟩)
    · have hp : s.pending ≠ none := by simp [*]
      split at h
      · exact .inr (.inr (.inr ⟨hr, _, _, ‹_›, ‹_›, h⟩))
      · cases h; exact .inr (.inr (.inl ⟨hr, hp, rfl⟩))

/-! ### The host's accesses -/

theorem busOffset_add (c : Config) {off : Nat} (h : off < 0x40000) : busOffset c (c.base + off) = some off := by
  rw [busOffset, if_pos (by omega), Nat.add_sub_cancel_left]

theorem step_read {s : State} {rest : List Move} {off : Nat} {wd : Width} (hw : s.cfg.wf = true) (ho : off < 0x40000)
    (h : s.agenda = .host (.read (s.cfg.base + off) wd) :: rest) :
    step s = .next (busRead off wd (s.withAgenda rest)) := by
  rw [step_turn hw h (by simp)]
  simp only [takeTurn, hostAccess, State.withAgenda_cfg, busOffset_add _ ho]

theorem step_write {s : State} {rest : List Move} {off : Nat} {wd : Width} {w : Word} (hw : s.cfg.wf = true)
    (ho : off < 0x40000) (h : s.agenda = .host (.write (s.cfg.base + off) wd w) :: rest) :
    step s = .next (busWrite off wd w (s.withAgenda rest)) := by
  rw [step_turn hw h (by simp)]
  simp only [takeTurn, hostAccess, State.withAgenda_cfg, busOffset_add _ ho]

theorem regAt_offset (r : Reg) : regAt r.offset = some r := by cases r <;> rfl

theorem offset_lt (r : Reg) : r.offset < 0x40 := by cases r <;> decide

theorem busError_reg (r : Reg) : busError r.offset .w4 = false := by cases r <;> rfl

/-- A register write through the bus. -/
theorem busWrite_reg (r : Reg) (w : Word) (s : State) :
    busWrite r.offset .w4 w s = (if s.resetting then s else s.writeReg w r).respond ⟨false, 0⟩ := by
  have h1 : r.offset < inBase := Nat.lt_of_lt_of_le (offset_lt r) (by decide)
  simp only [busWrite, busError_reg, State.writeData, h1, regAt_offset, if_true, Bool.false_eq_true, if_false]

theorem step_hostWrite {s : State} {rest : List Move} {r : Reg} {w : Word} (hw : s.cfg.wf = true)
    (h : s.agenda = hostWrite s.cfg r w :: rest) :
    step s = .next ((if s.resetting then s.withAgenda rest else (s.withAgenda rest).writeReg w r).respond ⟨false, 0⟩) := by
  have ho := Nat.lt_of_lt_of_le (offset_lt r) (show 0x40 ≤ 0x40000 by decide)
  rw [step_write hw ho h, busWrite_reg]
  rfl

/-- A register read through the bus. -/
theorem busRead_reg (r : Reg) (s : State) : busRead r.offset .w4 s =
    if s.busy then (s.respond ⟨false, s.readReg (Config.freeWord s.draws) r⟩).countDraw
    else s.respond ⟨false, s.readReg (Config.freeWord s.draws) r⟩ := by
  have h1 : r.offset < inBase := Nat.lt_of_lt_of_le (offset_lt r) (by decide)
  simp only [busRead, busError_reg, State.readData, h1, regAt_offset, if_true, Bool.false_eq_true, if_false]

theorem step_hostRead {s : State} {rest : List Move} {r : Reg} (hw : s.cfg.wf = true)
    (h : s.agenda = hostRead s.cfg r :: rest) : step s = .next (busRead r.offset .w4 (s.withAgenda rest)) :=
  step_read hw (Nat.lt_of_lt_of_le (offset_lt r) (by decide)) h

/-- A write to STATUS as one update (R34). -/
theorem writeStatus_eq (w : Word) (s : State) : s.writeStatus w =
    { s with done := s.done && !w.getLsbD 1, errBusy := s.errBusy && !w.getLsbD 2 } := by
  unfold State.writeStatus State.acknowledge
  cases w.getLsbD 1 <;> simp

/-- Everything a turn of the host or of the reset pin can do to the block (the bus response, the agenda and the draw
counter apart). -/
inductive TurnEffect (s : State) : State → Prop
  | none : TurnEffect s s
  | reset : TurnEffect s s.startReset
  | errBusy (h : s.pending ≠ Option.none) (hr : s.resetting = false) : TurnEffect s s.recordErrBusy
  | irqEn (hr : s.resetting = false) (b : Bool) : TurnEffect s { s with irqEn := b }
  | status (hr : s.resetting = false) (w : Word) : TurnEffect s
      { s with done := s.done && !w.getLsbD 1, errBusy := s.errBusy && !w.getLsbD 2 }
  | accept (h : s.busy = false) (w : Word) : TurnEffect s (s.accept w)
  | arg0 (h : s.busy = false) (w : Word) : TurnEffect s { s with arg0 := w }
  | arg1 (h : s.busy = false) (w : Word) : TurnEffect s { s with arg1 := w }
  | store (h : s.busy = false) (w : Word) (a n : Nat) (ha : inBase ≤ a) : TurnEffect s (s.storeIn w a n)

theorem pending_of_busy {s : State} (hb : s.busy = true) (hr : s.resetting = false) : s.pending ≠ Option.none := by
  intro h
  simp [State.busy, h, hr] at hb

theorem writeReg_effect {s : State} (hr : s.resetting = false) (w : Word) (r : Reg) : TurnEffect s (s.writeReg w r) := by
  have hbusy : ∀ u, (s.busy = false → TurnEffect s u) → TurnEffect s (if s.busy then s.recordErrBusy else u) := by
    intro u hu
    split
    · exact .errBusy (pending_of_busy ‹_› hr) hr
    · exact hu (by simp_all)
  cases r <;> try exact .none
  · show TurnEffect s (if w.getLsbD 1 then s.startReset else { s with irqEn := w.getLsbD 0 })
    split
    · exact .reset
    · exact .irqEn hr _
  · show TurnEffect s (s.writeStatus w)
    rw [writeStatus_eq]
    exact .status hr w
  · exact hbusy _ fun h => .accept h w
  · exact hbusy _ fun h => .arg0 h w
  · exact hbusy _ fun h => .arg1 h w

theorem writeData_effect {s : State} (hr : s.resetting = false) (w : Word) (a n : Nat) :
    TurnEffect s (s.writeData w a n) := by
  unfold State.writeData
  split
  · split
    · exact writeReg_effect hr w _
    · exact .none
  · split
    · split
      · exact .errBusy (pending_of_busy ‹_› hr) hr
      · exact .store (by simp_all) w a n (by omega)
    · exact .none

/-- A read of the host leaves the block as it was, whatever the address (R91). -/
theorem busRead_eq (a : Nat) (wd : Width) (s : State) : ∃ r d, busRead a wd s = { s with resp := some r, draws := d } := by
  unfold busRead
  split
  · exact ⟨_, s.draws, rfl⟩
  · simp only
    split
    · exact ⟨_, s.draws + 1, rfl⟩
    · exact ⟨_, s.draws, rfl⟩

/-- Everything the turn of the host or of the reset pin can do. -/
theorem takeTurn_effect (s : State) (m : Move) (rest : List Move) :
    ∃ u, TurnEffect (s.withAgenda rest) u ∧ ∃ a r d, takeTurn m rest s = { u with agenda := a, resp := r, draws := d } := by
  cases m with
  | host acc =>
    cases acc with
    | read addr wd =>
      refine ⟨_, .none, ?_⟩
      simp only [takeTurn, hostAccess]
      cases busOffset (s.withAgenda rest).cfg addr with
      | some off =>
        obtain ⟨r, d, h⟩ := busRead_eq off wd (s.withAgenda rest)
        exact ⟨_, _, _, h⟩
      | none => exact ⟨_, _, _, rfl⟩
    | write addr wd w =>
      simp only [takeTurn, hostAccess]
      cases busOffset (s.withAgenda rest).cfg addr with
      | some off =>
        simp only [busWrite]
        split
        · exact ⟨_, .none, _, _, _, rfl⟩
        · split
          · exact ⟨_, .none, _, _, _, rfl⟩
          · exact ⟨_, writeData_effect (by simp_all) w off wd.bytes, _, _, _, rfl⟩
      | none => exact ⟨_, .none, _, _, _, rfl⟩
  | wait =>
    refine ⟨_, .none, ?_⟩
    simp only [takeTurn, pollStatus]
    obtain ⟨r, d, h⟩ := busRead_eq Reg.status.offset .w4 s
    rw [h]
    exact ⟨_, _, _, rfl⟩
  | resetPin => exact ⟨_, .reset, _, _, _, rfl⟩
  | engine => exact ⟨_, .none, _, _, _, rfl⟩

/-- A host write to IN_BUF keeps memory in its canonical form. -/
theorem storeIn_wf {s : State} (h : s.mem.wf) (w : Word) (a n : Nat) : (s.storeIn w a n).mem.wf :=
  Memory.writeBytes_wf h _ _

end Sys2Proof.Machine
end

