-- ==== Sys2Proof/Tests/Slice0.lean ====
section
/-! SUPPORT. The model's own tests. Expected values come from the spec: the worked examples of the command rules and the
vectors of 95_test_vectors.md, named by their ids; the witnesses show states that meet the hypotheses of the statements. -/

namespace Sys2Proof.Tests

open Sys2Proof.Machine

set_option maxRecDepth 100000

/-! ### WellFormed: an ill-formed term for each check -/

/-- IDX is 16 bits (R112). -/
theorem test_wf_index_too_wide : (Instr.nop 65536).wf = false := by decide
theorem test_wf_index_largest : (Instr.nop 65535).wf = true := by decide
/-- K >= 1, M >= 1 and K + M <= 255 (R7, V-CFG-1). -/
theorem test_wf_no_data_slot : { Config.vector with k := 0 }.wf = false := by decide
theorem test_wf_no_parity_slot : { Config.vector with m := 0 }.wf = false := by decide
theorem test_wf_codeword_too_long : { Config.vector with k := 200, m := 56 }.wf = false := by decide
theorem test_wf_codeword_255 : { Config.vector with k := 253, m := 2 }.wf = true := by decide
/-- CAP >= 1 (R8), CAP + 14 <= MTU <= 65535 (R9). -/
theorem test_wf_no_capacity : { Config.vector with cap := 0 }.wf = false := by decide
theorem test_wf_frame_over_mtu : { Config.vector with cap := 51 }.wf = false := by decide
theorem test_wf_mtu_too_wide : { Config.vector with mtu := 65536 }.wf = false := by decide
/-- RS_CODE must meet its laws (R12): a code without distance M + 1 (R242), and a field polynomial that has a factor (R240):
x^8 + 1 = (x + 1)^8. -/
theorem test_wf_code_without_distance : { Config.vector with k := 2, m := 1, code := .matrix 0x1D [[1], [0]] }.wf = false ∧
    { Config.vector with code := .matrix 0x1D [] }.wf = false := by decide +kernel
theorem test_wf_no_field : { Config.vector with k := 2, m := 1, code := .matrix 0x01 [[1], [1]] }.wf = false := by decide
/-- XOR parity over another field. -/
theorem test_wf_other_field : { Config.vector with k := 2, m := 1, code := .matrix 0x1B [[1], [1]] }.wf = true := by decide
/-- A configuration that does not exist takes no step (R7, U7). -/
theorem test_step_refuses_bad_configuration :
    step (State.resetOf { Config.vector with k := 200, m := 56 }) = .refused .badConfiguration := rfl

/-! ### Decoding: words written out from R110 and R114 -/

theorem test_decode_nop : decodeWord 0x00000000 = .ok (.nop 0) := by decide
theorem test_decode_encBegin : decodeWord 0x00000001 = .ok (.encBegin 0) := by decide
theorem test_decode_encAddData : decodeWord 0x00010002 = .ok (.encAddData 1) := by decide
theorem test_decode_encComputeParity : decodeWord 0x00000003 = .ok (.encComputeParity 0) := by decide
theorem test_decode_encGetParity : decodeWord 0xFFFF0004 = .ok (.encGetParity 65535) := by decide
theorem test_decode_decBegin : decodeWord 0x00000010 = .ok (.decBegin 0) := by decide
theorem test_decode_decAddData : decodeWord 0x00020011 = .ok (.decAddData 2) := by decide
theorem test_decode_decAddParity : decodeWord 0x00010012 = .ok (.decAddParity 1) := by decide
/-- V-CMD-4: an ignored IDX does not make a word illegal. -/
theorem test_decode_decCountMissing : decodeWord 0x00FF0013 = .ok (.decCountMissing 0xFF) := by decide
theorem test_decode_decCountParity : decodeWord 0x00000014 = .ok (.decCountParity 0) := by decide
theorem test_decode_decCanDecode : decodeWord 0x00000015 = .ok (.decCanDecode 0) := by decide
theorem test_decode_decDecode : decodeWord 0x00000016 = .ok (.decDecode 0) := by decide
theorem test_decode_decGetData : decodeWord 0x00020017 = .ok (.decGetData 2) := by decide
theorem test_decode_frameParse : decodeWord 0x00000020 = .ok (.frameParse 0) := by decide
/-- Bytes in bus order (R82), and the rest of the list. -/
theorem test_decode_bytes : decodeBytes [0x02, 0x00, 0x01, 0x00, 0xAA] = .ok (.encAddData 1, [0xAA]) := by decide
theorem test_decode_truncated : decodeBytes [0x02, 0x00, 0x01] = .error .truncated := by decide
/-- R115: the edges of the unassigned opcode ranges, and a legal OPC with RSV set. -/
theorem test_decode_unassigned : ∀ w ∈ [0x05, 0x0F, 0x18, 0x1F, 0x21, 0xFF],
    decodeWord (BitVec.ofNat 32 w) = .error .unassignedOpcode := by decide
theorem test_decode_reserved : decodeWord 0x00000101 = .error .reservedBits := by decide
theorem test_decodeTableWord : decodeTableWord 32 0x00020017 = some (.decGetData 2) := by decide

/-! ### Numerics -/

/-- V-GF-1 to V-GF-5. -/
theorem test_gfMul : gfMul 0x02 0x80 = 0x1D ∧ gfMul 0x80 0x80 = 0x13 ∧ gfMul 0x53 0xCA = 0x8F ∧
    gfMul 0xFF 0xFF = 0xE2 ∧ gfMul 0x57 0x83 = 0x31 := by decide
/-- Another field polynomial, x^8 + x^4 + x^3 + x + 1: (x^6 + x^4 + x^2 + x + 1)(x^7 + x + 1) = x^7 + x^6 + 1, by hand;
and which polynomials have no factor: x^8 + x = x(x^7 + 1) has one, and so has x^8 + x^2 + x + 1, which is 0 at 1. -/
theorem test_gfMulMod : gfMulMod 0x1B 0x57 0x83 = 0xC1 := by decide
theorem test_irreducible : irreducible 0x1D = true ∧ irreducible 0x1B = true ∧ irreducible 0x02 = false ∧
    irreducible 0x07 = false := by decide
/-- V-GF-9. -/
theorem test_gfInv : gfInv 0x02 = 0x8E ∧ gfInv 0x03 = 0xF4 := by decide
/-- The generator polynomials of R248. -/
theorem test_genPoly : genPoly 2 = [1, 3, 2] ∧ genPoly 4 = [0x01, 0x0F, 0x36, 0x78, 0x40] := by decide
/-- V-RS-E3, V-RS-E5. -/
theorem test_rsEnc : rsEnc Config.vector [0x41, 0x44, 0x46] = some [0x41, 0x44, 0x46, 0xE3, 0xA0] ∧
    rsEnc Config.vector [0x43, 0x00, 0x00] = some [0x43, 0x00, 0x00, 0xF6, 0xB5] := by decide
/-- V-RS-E8: another K and M. -/
theorem test_rsEnc_four : parityOf { Config.vector with k := 4, m := 4 } [0x10, 0x20, 0x30, 0x40] =
    [0x03, 0xE2, 0xEF, 0x4E] := by decide
/-- V-RS-D1. -/
theorem test_rsDec : rsDec Config.vector [0x00, 0x44, 0x00, 0xE3, 0xA0] [0, 2] = .ok [0x41, 0x44, 0x46, 0xE3, 0xA0] := by
  decide
/-- V-RS-D9, V-RS-D10. -/
theorem test_rsDec_fails : rsDec Config.vector [0, 0, 0, 0xE3, 0xA0] [0, 1, 2] = .failure ∧
    rsDec Config.vector [0x41, 0x44, 0x46, 0xE3, 0xA1] [] = .inconsistent := by decide
/-- A code given by its matrix (log 3): the reference code of K = 3, M = 2, whose rows are x^4, x^3 and x^2 modulo
x^2 + 3x + 2 (R248), gives V-RS-E3 and meets the laws. -/
def matrixVector : Config := { Config.vector with code := .matrix 0x1D [[0x0F, 0x0E], [0x07, 0x06], [0x03, 0x02]] }
theorem test_matrix_code : parityOf matrixVector [0x41, 0x44, 0x46] = [0xE3, 0xA0] := by decide
theorem test_wf_matrix_code : matrixVector.wf = true := by decide
/-- V-CRC-1, V-CRC-6. -/
theorem test_crc16 : crc16 0xFFFF [0x31, 0x32, 0x33, 0x34, 0x35, 0x36, 0x37, 0x38, 0x39] = 0x29B1 ∧
    crc16 0x0000 [0x31, 0x32, 0x33, 0x34, 0x35, 0x36, 0x37, 0x38, 0x39] = 0x31C3 := by decide

/-- The table of R120. -/
theorem test_result_codes : [ResultCode.ok, .errBounds, .errNotReady, .errNotReceived, .errInsufficient, .errCodec,
    .errMagic, .errCrc, .errFrameLen, .errIllegalCmd].map ResultCode.code = [0, 1, 2, 3, 4, 5, 6, 7, 8, 9] := by decide

/-! ### States for the tests -/

/-- Reset, with these turns to come. -/
def idle (a : List Move) : State := { State.reset with agenda := a }

/-- A command `w` in flight. -/
def running (w : Word) (a : List Move) : State := { State.reset with agenda := a, pending := some w, cmd := w }

/-- A reset clear in progress. -/
def clearing (a : List Move) : State := { State.reset with agenda := a, resetting := true }

/-- Operands and the bytes of IN_BUF from offset 0 on. -/
def loaded (v0 v1 : Word) (bytes : List Byte) : State :=
  { State.reset with arg0 := v0, arg1 := v1, mem := Memory.writeBytes [] inBase bytes }

/-- The state a command leaves. -/
def after (i : Instr) (s : State) : State :=
  match exec i s with
  | .next t => t
  | .fault _ => s
  | .refused _ => s

/-- The encoder of the worked example of 41_encoder.md: "ABC", "DE", "FG", total_len 7, parity not yet computed. -/
def encABC : Encoder where
  data := [⟨[0x41, 0x42, 0x43, 0, 0, 0, 0, 0], 3⟩, ⟨[0x44, 0x45, 0, 0, 0, 0, 0, 0], 2⟩, ⟨[0x46, 0x47, 0, 0, 0, 0, 0, 0], 2⟩]
  parity := [[0, 0, 0, 0, 0, 0, 0, 0], [0, 0, 0, 0, 0, 0, 0, 0]]
  mpl := 3
  totalLen := 7
  ready := false

/-- The same encoder with its parity computed (R174's example). -/
def encReady : Encoder :=
  { encABC with
    parity := [[0xE3, 0xF6, 0xF6, 0, 0, 0, 0, 0], [0xA0, 0xB6, 0xB5, 0, 0, 0, 0, 0]]
    ready := true }

/-- The decoder of R200's example: data slot 1 and both parity slots received. -/
def decABC : Decoder where
  data := [⟨[0, 0, 0, 0, 0, 0, 0, 0], 0, false⟩, ⟨[0x44, 0x45, 0, 0, 0, 0, 0, 0], 2, true⟩,
    ⟨[0, 0, 0, 0, 0, 0, 0, 0], 0, false⟩]
  parity := [⟨[0xE3, 0xF6, 0xF6, 0, 0, 0, 0, 0], 3, true⟩, ⟨[0xA0, 0xB6, 0xB5, 0, 0, 0, 0, 0], 3, true⟩]
  mpl := 3
  totalLen := 7
  decoded := false

/-- Reset with the encoder `e` and the decoder `d`. -/
def engines (e : Encoder) (d : Decoder) : State := { State.reset with enc := e, dec := d }

/-- F0 of 95_test_vectors.md. -/
def frame0 : List Byte :=
  [0xFE, 0xC0, 0x00, 0x00, 0x00, 0x07, 0x00, 0x00, 0x00, 0x02, 0x00, 0x03, 0xE3, 0xF6, 0xF6, 0xAD, 0x10]

/-- F1 of 95_test_vectors.md. -/
def frame1 : List Byte :=
  [0xFE, 0xC0, 0x00, 0x00, 0x00, 0x07, 0x00, 0x01, 0x00, 0x02, 0x00, 0x03, 0xA0, 0xB6, 0xB5, 0xDB, 0x55]

/-! ### Commands: at most two vectors each -/

/-- V-CMD-1. -/
theorem test_nop : (after (.nop 5) State.reset).status = 0x00000002 := by decide
/-- V-ENC-1. -/
theorem test_encBegin : (after (.encBegin 0) (loaded 0xFFFFFFFF 0 [])).enc.totalLen = 0xFFFFFFFF := by decide
/-- R172's example. -/
theorem test_encAddData : (after (.encAddData 0) (loaded 3 0 [0x41, 0x42, 0x43])).enc.data.head? =
    some ⟨[0x41, 0x42, 0x43, 0, 0, 0, 0, 0], 3⟩ := by decide
/-- V-ENC-5. -/
theorem test_encAddData_range : (after (.encAddData 0) (loaded 8 15 [])).result = .errBounds := by decide
/-- V-ENC-8. -/
theorem test_encComputeParity : (after (.encComputeParity 0) (engines encABC (Decoder.atReset Config.vector))).enc =
    encReady := by decide
/-- V-ENC-8: F0 in OUT_BUF. -/
theorem test_encGetParity : let t := after (.encGetParity 0) (engines encReady (Decoder.atReset Config.vector))
    (List.range 17).map t.outByte = frame0 ∧ t.res0 = 17 := by decide
/-- V-ENC-10. -/
theorem test_encGetParity_order : (after (.encGetParity 5) State.reset).result = .errNotReady := by decide
/-- V-DEC-1, V-DEC-2. -/
theorem test_decBegin : (after (.decBegin 0) (loaded 7 9 [])).result = .errBounds ∧
    (after (.decBegin 0) (loaded 7 8 [])).dec.mpl = 8 := by decide
/-- R192's example. -/
theorem test_decAddData : (after (.decAddData 1) (loaded 2 0 [0x44, 0x45])).dec.data.getD 1 ⟨[], 0, false⟩ =
    ⟨[0x44, 0x45, 0, 0, 0, 0, 0, 0], 2, true⟩ := by decide
/-- R194's example: the payload of F0. -/
theorem test_decAddParity : (after (.decAddParity 0) (loaded 3 12 frame0)).dec.parity.head? =
    some ⟨[0xE3, 0xF6, 0xF6, 0, 0, 0, 0, 0], 3, true⟩ := by decide
/-- V-DEC-8. -/
theorem test_decAddParity_index : (after (.decAddParity 2) (loaded 3 12 frame0)).result = .errBounds := by decide
/-- V-DEC-3. -/
theorem test_decCountMissing : (after (.decCountMissing 0) State.reset).res0 = 3 := by decide
/-- R197's example. -/
theorem test_decCountParity : (after (.decCountParity 0) (engines encABC decABC)).res0 = 2 := by decide
/-- V-DEC-4, V-DEC-6. -/
theorem test_decCanDecode : (after (.decCanDecode 0) (engines encABC decABC)).res0 = 1 ∧
    (after (.decCanDecode 0) (engines encABC { decABC with parity := [⟨[0xE3], 1, true⟩, ⟨[0], 0, false⟩] })).res0 = 0 := by
  decide
/-- V-DEC-13. -/
theorem test_decDecode : let t := after (.decDecode 0) (engines encABC decABC)
    t.res0 = 2 ∧ t.dec.data = [⟨[0x41, 0x42, 0x43, 0, 0, 0, 0, 0], 3, true⟩, ⟨[0x44, 0x45, 0, 0, 0, 0, 0, 0], 2, true⟩,
      ⟨[0x46, 0x47, 0, 0, 0, 0, 0, 0], 3, true⟩] := by decide
/-- V-DEC-15 with the reference decoder: data slots 0 and 1 and a corrupted pair of parities. -/
theorem test_decDecode_inconsistent : (after (.decDecode 0) { engines encABC
    { decABC with mpl := 1, data := [⟨[0x41], 1, true⟩, ⟨[0x44], 1, true⟩, ⟨[0], 0, false⟩],
                  parity := [⟨[0xE3], 1, true⟩, ⟨[0xA1], 1, true⟩] } with
    cfg := { Config.vector with decoder := .reference } }).result = .errCodec := by decide
/-- V-DEC-10, V-DEC-11. -/
theorem test_decGetData_order : (after (.decGetData 0) State.reset).result = .errNotReceived ∧
    (after (.decGetData 3) State.reset).result = .errBounds := by decide
/-- R206's example, slot 1. -/
theorem test_decGetData : let t := after (.decGetData 1) (engines encABC decABC)
    (List.range 3).map t.outByte = [0x44, 0x45, 0x00] ∧ t.res0 = 3 := by decide
/-- V-FR-4. -/
theorem test_frameParse : let t := after (.frameParse 0) (loaded 17 0 frame1)
    t.res0 = 7 ∧ t.res1 = 0x00020001 ∧ t.res2 = 3 ∧ t.res3 = 3 := by decide
/-- V-FR-6: a flip in the magic is a checksum error. -/
theorem test_frameParse_flip : (after (.frameParse 0) (loaded 17 0 (0xFF :: frame0.tail))).result = .errCrc := by decide

/-! ### The bus and reset -/

/-- The state one step leaves. -/
def stepped (s : State) : State :=
  match step s with
  | .next t => t
  | .fault _ => s
  | .refused _ => s

/-- V-BUS-3. -/
theorem test_bus_read_frame : (stepped { idle [.host (.read 0x2000C .w4)] with
    mem := Memory.writeBytes [] outBase frame0 }).resp = some ⟨false, 0xADF6F6E3⟩ := by decide
/-- V-BUS-4, V-BUS-5. -/
theorem test_bus_errors : (stepped (idle [.host (.read 0x10002 .w4)])).resp = some ⟨true, 0⟩ ∧
    (stepped (idle [.host (.read 0x00010 .w1)])).resp = some ⟨true, 0⟩ := by decide
/-- V-BUS-9: the bytes at or past FRAME_MAX are not stored. -/
theorem test_bus_write_edge : (stepped (idle [.host (.write 0x10014 .w4 0xDDCCBBAA)])).mem =
    [(0x10014, 0xAA), (0x10015, 0xBB)] := by decide
/-- V-BUS-11. -/
theorem test_bus_parameters : (stepped (idle [hostRead Config.vector .cfgCap])).resp = some ⟨false, 0x00400008⟩ ∧
    (stepped (idle [hostRead Config.vector .cfgMagic])).resp = some ⟨false, 0xFFFFFEC0⟩ := by decide
/-- V-BUS-12: W1C clears the named bit only. -/
theorem test_bus_w1c : let t := stepped { idle [hostWrite Config.vector .status 4] with done := true, errBusy := true }
    t.done = true ∧ t.errBusy = false := by decide
/-- V-CMD-8: SOFT_RESET, and the IRQ_EN bit of the same word is discarded. -/
theorem test_soft_reset : stepped (stepped { idle [hostWrite Config.vector .ctrl 3, .engine] with
    arg0 := 5, irqEn := true, res3 := 9 }) = { State.reset with resp := some ⟨false, 0⟩ } := by decide
/-- `wrbuf` and `do` expand as R116 and R117 say (the lines of program P1). -/
theorem test_host_notation : hostWriteBuf Config.vector 8 [0x46, 0x47] = [.host (.write 0x10008 .w4 0x00004746)] ∧
    hostDo Config.vector (.encAddData 2) 2 8 = [.host (.write 0x018 .w4 2), .host (.write 0x01C .w4 8),
      .host (.write 0x014 .w4 0x00020002), .wait] := by decide
/-- The host's way to run one command after reset (log 13). -/
theorem test_withFetchWord : (stepped (State.reset.withFetchWord 32 0x00000013)).res0 = 3 := by decide

/-! ### Witnesses: states and operands that meet the hypotheses of the statements, clause by clause -/

/-- DecodeOfEncodeIsTheCommand. -/
theorem witness_wf : (Instr.encGetParity 0).wf = true ∧ (Instr.frameParse 65535).wf = true := by decide
/-- EncodeOfDecodeIsTheWord. -/
theorem witness_decode : decodeWord 0x00020017 = .ok (.decGetData 2) := by decide
/-- CommandWriteIsAcceptedOrRecorded, both clauses. -/
theorem witness_cmd_write : let s := idle [hostWrite Config.vector .cmd 3]
    s.cfg.wf = true ∧ s.resetting = false ∧ s.agenda = hostWrite s.cfg .cmd 3 :: [] ∧ s.pending = none := by decide
theorem witness_cmd_write_running : let s := running 3 [hostWrite Config.vector .cmd 5]
    s.cfg.wf = true ∧ s.resetting = false ∧ s.agenda = hostWrite s.cfg .cmd 5 :: [] ∧ s.pending ≠ none := by decide
/-- StepExecutesTheDecodedCommand, EveryAcceptedCommandCompletes: a legal word, with and without a listed turn. -/
theorem witness_step : let s := running 0x00010002 [.engine]
    s.cfg.wf = true ∧ s.resetting = false ∧ s.pending = some 0x00010002 ∧
      decodeWord 0x00010002 = .ok (.encAddData 1) ∧ s.agenda = .engine :: [] := by decide
theorem witness_step_idle : let s := running 0x00010002 []
    s.cfg.wf = true ∧ s.resetting = false ∧ s.pending = some 0x00010002 ∧
      decodeWord 0x00010002 = .ok (.encAddData 1) ∧ s.agenda = [] := by decide
/-- IllegalWordCompletesWithErrIllegalCmd: a reserved bit, and an unassigned opcode. -/
theorem witness_illegal : let w : Word := 0x00000101
    let s := idle [hostWrite Config.vector .cmd w, .engine]
    s.cfg.wf = true ∧ s.pending = none ∧ s.resetting = false ∧ w.toNat / 256 % 256 ≠ 0 ∧
    s.agenda = hostWrite s.cfg .cmd w :: .engine :: [] := ⟨by decide, rfl, rfl, by decide, rfl⟩
theorem witness_illegal_opcode (w : Word) (h : w = 0x00000005 ∨ w = 0x000000FF) : w.toNat % 256 ∉
    [0x00, 0x01, 0x02, 0x03, 0x04, 0x10, 0x11, 0x12, 0x13, 0x14, 0x15, 0x16, 0x17, 0x20] := by
  rcases h with rfl | rfl <;> simp
/-- NopCompletesAndChangesNothingElse, second clause. -/
theorem witness_nop (w : Word) : let s := idle [hostWrite Config.vector .cmd w, .engine]
    s.cfg.wf = true ∧ s.pending = none ∧ s.resetting = false ∧ s.agenda = hostWrite s.cfg .cmd w :: .engine :: [] :=
  ⟨by show Config.vector.wf = true; decide, rfl, rfl, rfl⟩
theorem witness_nop_word : (0xFFFF0000 : Word).toNat % 65536 = 0 := by decide
/-- PollingLoopEnds: nothing runs, a command runs, a reset clear runs. -/
theorem witness_poll : (idle [.wait]).busy = false ∧ (running 3 [.wait]).busy = true ∧ (clearing [.wait]).busy = true ∧
    ∀ s ∈ [idle [.wait], running 3 [.wait], clearing [.wait]], s.cfg.wf = true ∧ s.agenda = .wait :: [] := by decide
/-- FailedCommandChangesNothing, both clauses. -/
theorem witness_failure : ∃ t, exec (.encGetParity 0) State.reset = .next t ∧ t.result ≠ .ok := ⟨_, rfl, by decide⟩
theorem witness_failure_illegal : let s := running 0x00000101 [.engine]
    s.cfg.wf = true ∧ s.resetting = false ∧ s.pending = some 0x00000101 ∧
      decodeWord 0x00000101 = .error .reservedBits ∧ s.agenda = .engine :: [] := by decide
/-- CommandsGiveOnlyTheirResults, CommandsKeepTheHostsSide, OnlyNamedCommandsChangeState (each clause excludes some
command, and this one is in none of the first, second, fourth). -/
theorem witness_command : ∃ t, exec (.encGetParity 1) (engines encReady decABC) = .next t ∧ t.result = .ok :=
  ⟨_, rfl, rfl⟩
theorem witness_command_frame : ∃ t, exec (.nop 1) (engines encReady decABC) = .next t := ⟨_, rfl⟩
/-- HostTurnsNeverReachTheEngines. -/
theorem witness_host_turn : ∃ t, step (idle [hostWrite Config.vector .arg0 7]) = .next t ∧
    (idle [hostWrite Config.vector .arg0 7]).agenda = hostWrite Config.vector .arg0 7 :: [] ∧
    hostWrite Config.vector .arg0 7 ≠ .engine := ⟨_, rfl, by decide, by decide⟩
/-- EncAddDataStoresOrRejects, DecAddDataStoresOrRejects, DecAddParityStoresOrRejects: sizes, each bound, and the edges
inside it. -/
theorem witness_shaped : State.reset.enc.shaped State.reset.cfg = true ∧ State.reset.dec.shaped State.reset.cfg = true ∧
    encReady.shaped Config.vector = true ∧ decABC.shaped Config.vector = true := by decide
theorem witness_add_bounds : State.reset.cfg.k ≤ 3 ∧ State.reset.cfg.m ≤ 2 ∧
    (loaded 9 0 []).cfg.cap < (loaded 9 0 []).arg0.toNat ∧
    (loaded 8 15 []).cfg.cap + 14 < (loaded 8 15 []).arg1.toNat + (loaded 8 15 []).arg0.toNat := by decide
theorem witness_add_ok : 2 < State.reset.cfg.k ∧ 1 < State.reset.cfg.m ∧
    ∀ s ∈ [loaded 8 14 [], loaded 0 22 []], s.arg0.toNat ≤ s.cfg.cap ∧ s.arg1.toNat + s.arg0.toNat ≤ s.cfg.cap + 14 := by
  decide
/-- EncComputeParityEncodesEveryColumn: the first and the last column of the worked example, and one past MPL. -/
theorem witness_column : ∀ x ∈ [(0, [(0x41 : Byte), 0x44, 0x46]), (2, [0x43, 0x00, 0x00])],
    x.1 < Config.vector.cap ∧ x.1 < encABC.mpl ∧ x.2.length = Config.vector.k ∧
      ∀ i < Config.vector.k, x.2.getD i 0 = if x.1 < encABC.dataLen i then encABC.dataByte i x.1 else 0 := by decide
theorem witness_column_past : 1 < Config.vector.m ∧ 3 < Config.vector.cap ∧ encABC.mpl ≤ 3 := by decide
/-- EncGetParityWritesTheFrame, its three clauses; EncGetParityIsRepeatable (with `witness_command`). -/
theorem witness_get_parity : (engines encReady decABC).mem.wf ∧ State.reset.enc.ready = false ∧ encReady.ready = true ∧
    Config.vector.m ≤ 2 ∧ 1 < Config.vector.m ∧ [(0xA0 : Byte), 0xB6, 0xB5].length = encReady.mpl ∧
    ∀ p < encReady.mpl, [(0xA0 : Byte), 0xB6, 0xB5].getD p 0 = encReady.parityByte 1 p := by decide
/-- ParityLanesAreIndependent: two encoders that agree in column 0 only. -/
theorem witness_lanes :
    let s := engines encABC decABC
    let s' := engines { encABC with data := encABC.data.set 0 ⟨[0x41, 0x99, 0, 0, 0, 0, 0, 0], 2⟩, mpl := 2 } decABC
    s'.cfg = s.cfg ∧ 0 < s.cfg.cap ∧ 0 < s.enc.mpl ∧ 0 < s'.enc.mpl ∧
    (∀ i < s.cfg.k, (if 0 < s.enc.dataLen i then s.enc.dataByte i 0 else 0) =
      (if 0 < s'.enc.dataLen i then s'.enc.dataByte i 0 else 0)) ∧ s.enc.column s.cfg 1 ≠ s'.enc.column s'.cfg 1 := by decide
theorem witness_lanes_run (e : Encoder) : ∃ t, exec (.encComputeParity 0) (engines e decABC) = .next t :=
  ⟨_, execEncComputeParity_eq 0 (engines e decABC)⟩
/-- StaleParityCannotBeRead. -/
theorem witness_stale : ∃ t, exec (.encAddData 1) { engines encReady decABC with arg0 := 1 } = .next t ∧ t.result = .ok :=
  ⟨_, rfl, rfl⟩
/-- DecBeginClearsOrRejects, both sides of CAP. -/
theorem witness_dec_begin : (loaded 7 9 []).cfg.cap < (loaded 7 9 []).arg1.toNat ∧
    (loaded 7 8 []).arg1.toNat ≤ (loaded 7 8 []).cfg.cap := by decide
/-- TooFewFramesAreRefused: M + 1 slots not received. -/
theorem witness_too_few : let s := engines encABC { decABC with parity := decABC.parity.set 1 ⟨[], 0, false⟩ }
    s.cfg.m < ((List.range s.cfg.k).filter fun i => s.dec.dataRx i = false).length +
      ((List.range s.cfg.m).filter fun j => s.dec.parityRx j = false).length := by decide

/-- A decoder of one column, 41 44 46, with every data slot and parity slot 0 received: parity byte `b`. -/
def decOne (b : Byte) : Decoder where
  data := [⟨[0x41, 0, 0, 0, 0, 0, 0, 0], 1, true⟩, ⟨[0x44, 0, 0, 0, 0, 0, 0, 0], 1, true⟩,
    ⟨[0x46, 0, 0, 0, 0, 0, 0, 0], 1, true⟩]
  parity := [⟨[b, 0, 0, 0, 0, 0, 0, 0], 1, true⟩, ⟨[0, 0, 0, 0, 0, 0, 0, 0], 0, false⟩]
  mpl := 1
  totalLen := 0
  decoded := false

/-- DecodeOfConsistentColumnsSucceeds, StepKeepsTheDecoderPad: V-RS-E3's first parity byte. -/
theorem witness_consistent : (decOne 0xE3).mpl ≤ Config.vector.cap ∧ (decOne 0xE3).canDecode Config.vector = true ∧
    (decOne 0xE3).Consistent Config.vector := by
  refine ⟨by decide, by decide, fun p hp => ⟨[0x41, 0x44, 0x46], ?_⟩⟩
  have hp : p = 0 := by have : p < 1 := hp; omega
  subst hp
  exact ⟨rfl, by decide⟩
/-- DecodeOfConsistentColumnsSucceeds with exactly M slots lost (R200's example), and the first column of it. -/
theorem witness_consistent_lost : let d := { decABC with mpl := 1 }
    d.mpl ≤ Config.vector.cap ∧ d.canDecode Config.vector = true ∧ d.Consistent Config.vector := by
  refine ⟨by decide, by decide, fun p hp => ⟨[0x41, 0x44, 0x46], ?_⟩⟩
  have hp : p = 0 := by have : p < 1 := hp; omega
  subst hp
  exact ⟨rfl, by decide⟩
/-- RepeatedDecodeChangesNothing. -/
theorem witness_repeated : ∃ t, exec (.decDecode 0) (engines encABC (decOne 0xE3)) = .next t :=
  ⟨_, rfl⟩
/-- DecodeOfInconsistentColumnsIsADraw: the three data bytes fix the codeword, whose first parity byte is E3, not E2. -/
theorem witness_inconsistent : (decOne 0xE2).canDecode Config.vector = true ∧
    ¬ (decOne 0xE2).Consistent Config.vector := by
  refine ⟨by decide, fun h => ?_⟩
  have hs := solve_spec Config.vector ((decOne 0xE2).column Config.vector 0) ((decOne 0xE2).erasures Config.vector)
  have hn : solve Config.vector ((decOne 0xE2).column Config.vector 0) ((decOne 0xE2).erasures Config.vector) = none := by
    decide
  rw [hn] at hs
  exact hs (h 0 (by decide))
/-- DecGetDataWritesThePayload, its three clauses. -/
theorem witness_get_data : State.reset.mem.wf ∧ Config.vector.k ≤ 3 ∧ 2 < Config.vector.k ∧
    State.reset.dec.dataRx 2 = false ∧ (decOne 0xE3).dataRx 2 = true := by decide

/-! #### A small block: K = 2, M = 1 with the reference code -/

/-- K = 2, M = 1: single parity. -/
def small : Config := { Config.vector with k := 2, m := 1 }

/-- AnyKPositionsDetermineTheCodeword: configurations that exist, one with the reference code and one with a matrix, and
one that does not, whose matrix lacks the distance. -/
theorem witness_lawful : small.wf = true ∧ { small with code := .matrix 0x1D [[1], [1]] }.wf = true ∧
    { small with code := .matrix 0x1D [[1], [0]] }.wf = false := by decide
/-- AnyKPositionsDetermineTheCodeword, the clauses on positions: the last K positions, and M erasures. -/
theorem witness_positions : [1, 2].Nodup ∧ [1, 2].length = small.k ∧ (∀ t ∈ [1, 2], t < small.k + small.m) ∧
    [0].Nodup ∧ (∀ t ∈ [0], t < small.k + small.m) ∧ [0].length = small.m := by decide

/-- One payload byte 41 in slot 0 of a K = 2 block, before its parity is computed. -/
def smallLoad : State := { State.resetOf small with arg0 := 1, mem := [(0x10000, 0x41)] }

/-- The encoder of that block with its parity computed. -/
def smallEnc : Encoder :=
  let e := smallLoad.enc.addData 0 (smallLoad.slotImage 1 0) 1
  e.commitParity small (tabulate e.mpl fun p => codewordOf small (e.column small p))

/-- The decoder that lost data slot 0 and received data slot 1 (empty) and parity slot 0 (one byte, 41). -/
def smallDec : Decoder where
  data := [⟨[0, 0, 0, 0, 0, 0, 0, 0], 0, false⟩, ⟨[0, 0, 0, 0, 0, 0, 0, 0], 0, true⟩]
  parity := [⟨[0x41, 0, 0, 0, 0, 0, 0, 0], 1, true⟩]
  mpl := 1
  totalLen := 0
  decoded := false

/-- Both engines. -/
def smallState : State := { State.resetOf small with enc := smallEnc, dec := smallDec }

theorem getD_of_forall {α : Type} {P : α → Prop} {l : List α} {d : α} (hd : P d) (h : ∀ x ∈ l, P x) (i : Nat) :
    P (l.getD i d) := by
  rw [List.getD_eq_getElem?_getD]
  cases hi : l[i]? with
  | none => exact hd
  | some x => exact h x (List.mem_of_getElem? hi)

theorem small_dec_inv : smallDec.Inv small where
  shape := by decide
  dataLenLeMpl i := getD_of_forall (P := fun x : DecSlot => x.len ≤ 1) (by decide) (by decide) i
  parityLenLeMpl i := getD_of_forall (P := fun x : DecSlot => x.len ≤ 1) (by decide) (by decide) i
  mplLeCap := by decide
  dataPad i p _ := by
    have := getD_of_forall (l := smallDec.data) (d := ⟨[], 0, false⟩) (P := fun x : DecSlot => ∀ y ∈ x.bytes, y = 0)
      (by decide) (by decide) i
    exact getD_of_forall (P := fun y : Byte => y = 0) rfl this p
  parityPad j p h := by
    have := getD_of_forall (l := smallDec.parity) (d := ⟨[], 0, false⟩)
      (P := fun x : DecSlot => x.len ≤ p → ∀ y ∈ x.bytes.drop x.len, y = 0) (by simp)
      (by simp [smallDec]) j
    have hd : smallDec.parityByte j p = ((smallDec.parity.getD j ⟨[], 0, false⟩).bytes.drop
        (smallDec.parityLen j)).getD (p - smallDec.parityLen j) 0 := by
      simp only [List.getD_eq_getElem?_getD, List.getElem?_drop, Decoder.parityByte]
      rw [show smallDec.parityLen j + (p - smallDec.parityLen j) = p by omega]
    rw [hd]
    exact getD_of_forall (P := fun y : Byte => y = 0) rfl (this h) _
  dataFresh i _ := by
    have h0 := getD_of_forall (l := smallDec.data) (d := ⟨[], 0, false⟩)
      (P := fun x : DecSlot => x.len = 0 ∧ ∀ y ∈ x.bytes, y = 0) (by decide) (by decide) i
    exact ⟨h0.1, fun p => getD_of_forall (P := fun y : Byte => y = 0) rfl h0.2 p⟩
  parityFresh j h := by
    have h0 := getD_of_forall (l := smallDec.parity) (d := ⟨[], 0, false⟩)
      (P := fun x : DecSlot => x.received = false → x.len = 0 ∧ ∀ y ∈ x.bytes, y = 0) (by decide) (by decide) j
    have h1 := h0 h
    exact ⟨h1.1, fun p => getD_of_forall (P := fun y : Byte => y = 0) rfl h1.2 p⟩

theorem small_enc_inv : smallEnc.Inv small := by
  have h0 : smallLoad.enc.Inv smallLoad.cfg := by
    show (Encoder.atReset small).Inv small
    rw [enc_inv_atReset]
    exact enc_inv_begin small 0
  exact enc_inv_compute (enc_inv_add (s := smallLoad) h0 (n := 0) (by decide) (by decide))

/-- The invariant of a state with a READY encoder and a decoder that lost a slot. -/
theorem witness_inv_small : smallState.Inv where
  cfgOk := by decide
  memWf := by decide
  memMapped := fun x h => by cases h
  encOk := small_enc_inv
  decOk := small_dec_inv
  runningNotDone := fun h => absurd rfl h
  resettingNotRunning := fun h => by cases h

/-- AnyMLossesAreRecovered. -/
theorem witness_losses : smallState.enc.ready = true ∧ smallState.enc.mpl ≤ smallState.dec.mpl ∧
    (∀ i < smallState.cfg.k, smallState.dec.dataRx i = true → ∀ p < smallState.dec.mpl,
      smallState.dec.dataByte i p = smallState.enc.dataByte i p) ∧
    (∀ j < smallState.cfg.m, smallState.dec.parityRx j = true → ∀ p < smallState.dec.mpl,
      smallState.dec.parityByte j p = smallState.enc.parityByte j p) ∧
    ((List.range smallState.cfg.k).filter fun i => smallState.dec.dataRx i = false).length +
      ((List.range smallState.cfg.m).filter fun j => smallState.dec.parityRx j = false).length ≤ smallState.cfg.m := by
  decide

/-! #### Frames, codec, bus, reset, invariants -/

/-- BuiltFrameHasTheWireLayout. -/
theorem witness_built : Config.vector.wf = true ∧ 1 < Config.vector.m := by decide
/-- FrameParseChecksInOrder, its five clauses: V-FR-10, V-FR-9, V-FR-5, V-FR-8, V-FR-4. -/
theorem witness_parse_bounds : (loaded 17 8 []).cfg.cap + 14 < (loaded 17 8 []).arg1.toNat + 17 := by decide
theorem witness_parse : ∀ f ∈ [frame0.take 13, frame0.set 12 0xE2,
      [0x12, 0x34, 0x00, 0x00, 0x00, 0x07, 0x00, 0x00, 0x00, 0x02, 0x00, 0x03, 0xE3, 0xF6, 0xF6, 0x28, 0xB4], frame1],
    let s := loaded (BitVec.ofNat 32 f.length) 0 f
    f.length = s.arg0.toNat ∧ s.arg1.toNat + f.length ≤ s.cfg.cap + 14 ∧
      ∀ p < f.length, f.getD p 0 = s.mem.read (0x10000 + (s.arg1.toNat + p)) := by decide
theorem witness_parse_cases : (frame0.take 13).length < 14 ∧
    checksumOk Config.vector (frame0.set 12 0xE2) = false ∧
    checksumOk Config.vector [0x12, 0x34, 0x00, 0x00, 0x00, 0x07, 0x00, 0x00, 0x00, 0x02, 0x00, 0x03, 0xE3, 0xF6, 0xF6,
      0x28, 0xB4] = true ∧
    checksumOk Config.vector frame1 = true ∧ rdBe16 frame1 0 = Config.vector.parityMagic.toNat := by decide
/-- ParseOfBuiltFrameGivesItsFields: the frame of `smallState`, copied to IN_BUF at offset 3. -/
theorem witness_parse_built :
    let t := after (.encGetParity 0) smallState
    let u := { smallState with arg0 := t.res0, arg1 := 3, mem := Memory.writeBytes [] 0x10003 ((List.range 15).map t.outByte) }
    t.result = .ok ∧ u.cfg = smallState.cfg ∧ u.arg0 = t.res0 ∧
      u.arg1.toNat + t.res0.toNat ≤ smallState.cfg.cap + 14 ∧
      ∀ o < t.res0.toNat, u.mem.read (0x10000 + (u.arg1.toNat + o)) = t.mem.read (0x20000 + o) := by decide
/-- EverySingleBitFlipIsDetected: bit 7 of the last checksum byte of F0. -/
theorem witness_flip :
    let s := loaded 17 0 frame0
    let s' := loaded 17 0 (frame0.set 16 0x90)
    (after (.frameParse 0) s).result = .ok ∧ s'.cfg = s.cfg ∧ s'.arg0 = s.arg0 ∧ s'.arg1 = s.arg1 ∧
    16 < s.arg0.toNat ∧ 7 < 8 ∧
    s'.mem.read (0x10000 + (s.arg1.toNat + 16)) = s.mem.read (0x10000 + (s.arg1.toNat + 16)) ^^^ BitVec.ofNat 8 (2 ^ 7) ∧
    ∀ o < s.arg0.toNat, o ≠ 16 →
      s'.mem.read (0x10000 + (s.arg1.toNat + o)) = s.mem.read (0x10000 + (s.arg1.toNat + o)) := by decide
theorem witness_flip_runs : ∃ t, exec (.frameParse 0) (loaded 17 0 frame0) = .next t := ⟨_, rfl⟩
/-- EncoderIsSystematicAndLinear, ReferenceCodewordsVanishAtTheRoots. -/
theorem witness_columns : [(0x41 : Byte), 0x44, 0x46].length = Config.vector.k ∧ Config.vector.code = .reference ∧
    1 < Config.vector.m ∧ [(0x41 : Byte)].length ≠ Config.vector.k := by decide
/-- DecoderFindsTheAgreeingCodeword: over M erasures; M erasures that fit; no erasure and no fit (V-RS-D10). -/
theorem witness_rsDec_over : Config.vector.m < [0, 1, 2].length ∧ [0, 2].length ≤ Config.vector.m := by decide
theorem witness_rsDec_fits : FitsMessage Config.vector [0x00, 0x44, 0x00, 0xE3, 0xA0] [0, 2] [0x41, 0x44, 0x46] :=
  ⟨rfl, by decide⟩
theorem witness_rsDec_none : ¬ ∃ msg, FitsMessage Config.vector [0x41, 0x44, 0x46, 0xE3, 0xA1] [] msg := by
  have hs := solve_spec Config.vector [0x41, 0x44, 0x46, 0xE3, 0xA1] []
  have hn : solve Config.vector [0x41, 0x44, 0x46, 0xE3, 0xA1] [] = none := by decide
  rwa [hn] at hs
theorem witness_rsDec_placeholders : ∀ t < 5, t ∉ [0, 2] →
    [(0x99 : Byte), 0x44, 0x77, 0xE3, 0xA0].getD t 0 = [(0x00 : Byte), 0x44, 0x00, 0xE3, 0xA0].getD t 0 := by decide
/-- BadAccessIsABusError: misaligned in each region, narrow in the register region, reads and writes. -/
theorem witness_bad_access : ∀ x ∈ [(0x10002, Width.w4), (0x3FFFF, .w2), (0x00002, .w4), (0x00010, .w1), (0x0FFFE, .w2)],
    (let s := idle [.host (.read (Config.vector.base + x.1) x.2)]
     s.cfg.wf = true ∧ s.resetting = false ∧ x.1 < 0x40000 ∧ (x.1 % x.2.bytes ≠ 0 ∨ x.1 < 0x10000 ∧ x.2 ≠ .w4) ∧
      s.agenda = .host (.read (s.cfg.base + x.1) x.2) :: []) ∧
    (let s := running 3 [.host (.write (Config.vector.base + x.1) x.2 5)]
     s.cfg.wf = true ∧ s.resetting = false ∧ s.agenda = .host (.write (s.cfg.base + x.1) x.2 5) :: []) := by decide
/-- UnmappedAccessReadsZero: both ends of both unmapped ranges. -/
theorem witness_unmapped : ∀ x ∈ [(0x00040, Width.w4), (0x0FFFC, .w4), (0x30000, .w4), (0x3FFFF, .w1)],
    (let s := idle [.host (.read (Config.vector.base + x.1) x.2)]
     s.cfg.wf = true ∧ s.resetting = false ∧ x.1 % x.2.bytes = 0 ∧
      (0x40 ≤ x.1 ∧ x.1 < 0x10000 ∧ x.2 = .w4 ∨ 0x30000 ≤ x.1 ∧ x.1 < 0x40000) ∧
      s.agenda = .host (.read (s.cfg.base + x.1) x.2) :: []) ∧
    (let s := running 3 [.host (.write (Config.vector.base + x.1) x.2 5)]
     s.cfg.wf = true ∧ s.resetting = false ∧ s.agenda = .host (.write (s.cfg.base + x.1) x.2 5) :: []) := by decide
/-- InBufWriteStoresLittleEndian: across FRAME_MAX, and wholly past it at the end of the window. -/
theorem witness_in_write : ∀ x ∈ [(20, Width.w4), (21, .w1), (0xFFFC, .w4)],
    let s := idle [.host (.write (Config.vector.base + (0x10000 + x.1)) x.2 0xDDCCBBAA)]
    s.cfg.wf = true ∧ s.mem.wf ∧ s.busy = false ∧ x.1 < 0x10000 ∧ x.1 % x.2.bytes = 0 ∧
      s.agenda = .host (.write (s.cfg.base + (0x10000 + x.1)) x.2 0xDDCCBBAA) :: [] := by decide
/-- BufferReadIsLittleEndian: both windows, across FRAME_MAX. -/
theorem witness_buffer_read : ∀ b ∈ [0x10000, 0x20000], ∀ x ∈ [(20, Width.w4), (0xFFFE, .w2)],
    let s := idle [.host (.read (Config.vector.base + (b + x.1)) x.2)]
    s.cfg.wf = true ∧ s.busy = false ∧ (b = 0x10000 ∨ b = 0x20000) ∧ x.1 < 0x10000 ∧ x.1 % x.2.bytes = 0 ∧
      s.agenda = .host (.read (s.cfg.base + (b + x.1)) x.2) :: [] := by decide
/-- WritesWhileRunning, its five clauses. -/
theorem witness_write_running : ∀ s ∈ [running 3 [hostWrite Config.vector .cmd 5],
      running 3 [.host (.write (Config.vector.base + (0x10000 + 0xFFFC)) .w4 5)], running 3 [hostWrite Config.vector .ctrl 1],
      running 3 [hostWrite Config.vector .ctrl 2], running 3 [hostWrite Config.vector .status 4]],
    s.cfg.wf = true ∧ s.pending ≠ none ∧ s.resetting = false := by decide
theorem witness_write_running_ops : (1 : Word).getLsbD 1 = false ∧ (2 : Word).getLsbD 1 = true ∧ 0xFFFC < 0x10000 ∧
    0xFFFC % Width.w4.bytes = 0 := by decide
/-- ReadOnlyWritesAreIgnored: a register of the list and OUT_BUF. -/
theorem witness_read_only : Reg.decTotalLen ∈ [Reg.cfgKm, .cfgCap, .cfgMagic, .res0, .res1, .res2, .res3, .encMpl,
      .encTotalLen, .decMpl, .decTotalLen] ∧
    (clearing [hostWrite Config.vector .decTotalLen 1]).agenda = hostWrite Config.vector .decTotalLen 1 :: [] ∧
    (idle [.host (.write (Config.vector.base + (0x20000 + 2)) .w2 5)]).agenda =
      .host (.write (Config.vector.base + (0x20000 + 2)) .w2 5) :: [] ∧ 2 % Width.w2.bytes = 0 := by decide
/-- OperandAndStatusWrites: ARG0 and ARG1 with nothing running, STATUS while a command runs. -/
theorem witness_operand_write : ∀ r ∈ [Reg.arg0, .arg1],
    let s := idle [hostWrite Config.vector r 7]
    s.cfg.wf = true ∧ s.resetting = false ∧ s.pending = none ∧ s.agenda = hostWrite s.cfg r 7 :: [] := by decide
theorem witness_status_write : let s := running 3 [hostWrite Config.vector .status 6]
    s.cfg.wf = true ∧ s.resetting = false ∧ s.agenda = hostWrite s.cfg .status 6 :: [] := by decide
/-- The invariant at reset, with turns to come and with a command in flight (RegisterReadsWhenIdle, ReadsWhileRunning,
StepKeepsTheInvariant, StepKeepsTheDecoderPad). -/
theorem witness_inv_reset : State.reset.Inv where
  cfgOk := by decide
  memWf := by decide
  memMapped := fun x h => by cases h
  encOk := by
    show (Encoder.atReset Config.vector).Inv Config.vector
    rw [enc_inv_atReset]; exact enc_inv_begin _ _
  decOk := by
    show (Decoder.atReset Config.vector).Inv Config.vector
    rw [dec_inv_atReset]; exact dec_inv_begin _ _ (Nat.zero_le _)
  runningNotDone := fun h => absurd rfl h
  resettingNotRunning := fun h => by cases h
theorem witness_inv_idle (a : List Move) : (idle a).Inv ∧ (idle a).busy = false :=
  ⟨⟨witness_inv_reset.1, witness_inv_reset.2, witness_inv_reset.3, witness_inv_reset.4, witness_inv_reset.5,
    witness_inv_reset.6, witness_inv_reset.7⟩, rfl⟩
theorem witness_inv_running (w : Word) (a : List Move) : (running w a).Inv ∧ (running w a).pending ≠ none :=
  ⟨⟨witness_inv_reset.1, witness_inv_reset.2, witness_inv_reset.3, witness_inv_reset.4, witness_inv_reset.5,
    fun _ => rfl, fun h => by cases h⟩, by simp [running]⟩
theorem witness_register_reads : (idle [hostRead Config.vector .status]).agenda = hostRead Config.vector .status :: [] ∧
    (idle [hostRead Config.vector .decMpl]).agenda = hostRead Config.vector .decMpl :: [] ∧
    (running 3 [hostRead Config.vector .res0]).agenda = hostRead Config.vector .res0 :: [] ∧
    (running 3 [.host (.read (Config.vector.base + (0x10000 + 21)) .w1)]).agenda =
      .host (.read (Config.vector.base + (0x10000 + 21)) .w1) :: [] ∧ 21 < Config.vector.cap + 14 := by decide
theorem witness_running_reads (w : Word) : (running 3 [.host (.read (Config.vector.base + (0x10000 + 20)) .w4)]).agenda =
      .host (.read (Config.vector.base + (0x10000 + 20)) .w4) :: [] ∧
    (running 3 [.host (.read (Config.vector.base + (0x20000 + 0xFFFE)) .w2)]).agenda =
      .host (.read (Config.vector.base + (0x20000 + 0xFFFE)) .w2) :: [] ∧ 20 % Width.w4.bytes = 0 ∧
      0xFFFE % Width.w2.bytes = 0 ∧ (Reg.arg1, w) ∈ [(Reg.arg1, w)] := by simp [running, Width.bytes]
/-- ParametersAreHardwired: while a reset clear runs, and for a step of any state. -/
theorem witness_parameters : let s := clearing [hostRead Config.vector .cfgKm]
    s.cfg.wf = true ∧ s.agenda = hostRead s.cfg .cfgKm :: [] := by decide
theorem witness_steps : ∃ t, step (clearing [.engine]) = .next t := ⟨_, rfl⟩
/-- ReadsHaveNoSideEffect: an address outside the block as well. -/
theorem witness_read_anywhere : let s := running 3 [.host (.read 0x50000 .w2)]
    s.cfg.wf = true ∧ s.agenda = .host (.read 0x50000 .w2) :: [] := by decide
/-- InterruptFollowsCompletion. -/
theorem witness_interrupt : (∃ t, exec (.nop 0) (running 0 []) = .next t) ∧ (running 0 []).resetting = false ∧
    (∃ t, step { idle [hostAck Config.vector] with done := true, irqEn := true } = .next t) ∧
    (∃ t, step { idle [hostWrite Config.vector .cmd 0] with done := true, irqEn := true } = .next t) ∧
    (clearing []).resetting = true := ⟨⟨_, rfl⟩, rfl, ⟨_, rfl⟩, ⟨_, rfl⟩, rfl⟩
/-- ControlWriteStartsAReset, both clauses. -/
theorem witness_control (w : Word) : let s := idle [hostWrite Config.vector .ctrl w, .engine]
    s.cfg.wf = true ∧ s.resetting = false ∧ s.agenda = hostWrite s.cfg .ctrl w :: .engine :: [] :=
  ⟨by show Config.vector.wf = true; decide, rfl, rfl⟩
theorem witness_control_bits : (3 : Word).getLsbD 1 = true ∧ (1 : Word).getLsbD 1 = false := by decide
/-- ResetClearIgnoresWrites, ResetClearEndsInTheResetState. -/
theorem witness_reset : let s := running 3 [.resetPin]
    s.cfg.wf = true ∧ s.agenda = .resetPin :: [] := by decide
theorem witness_clearing (a : List Move) : (clearing a).cfg.wf = true ∧ (clearing a).resetting = true :=
  ⟨by show Config.vector.wf = true; decide, rfl⟩
/-- InvariantHoldsAtReset: K + M = 255. -/
theorem witness_config : { Config.vector with k := 253, m := 2 }.wf = true := by decide
/-- StepKeepsTheDecoderPad: a NOP where the columns are inconsistent and the decoder is any lawful one. -/
theorem witness_padded_inconsistent : (decOne 0xE2).Padded ∧ ¬ (decOne 0xE2).Consistent Config.vector ∧
    Config.vector.decoder = .lawful ∧ (∃ t, step { running 0 [] with dec := decOne 0xE2 } = .next t) ∧
    decodeWord 0 ≠ .ok (.decDecode 0) := by
  refine ⟨?_, witness_inconsistent.2, rfl, ⟨_, rfl⟩, by decide⟩
  intro i p
  match i with
  | 0 => match p with
    | 0 => intro h; exact absurd h (by decide)
    | p + 1 => intro _; show (List.replicate 7 (0 : Byte)).getD p 0 = 0; exact getD_zeros 7 p
  | 1 => match p with
    | 0 => intro h; exact absurd h (by decide)
    | p + 1 => intro _; show (List.replicate 7 (0 : Byte)).getD p 0 = 0; exact getD_zeros 7 p
  | 2 => match p with
    | 0 => intro h; exact absurd h (by decide)
    | p + 1 => intro _; show (List.replicate 7 (0 : Byte)).getD p 0 = 0; exact getD_zeros 7 p
  | i + 3 => intro _; rfl
/-- StepKeepsTheInvariant, StepKeepsTheDecoderPad: a step that runs DEC_DECODE on received columns. -/
theorem witness_padded : smallState.dec.Padded := by
  intro i p h
  have := getD_of_forall (l := smallDec.data) (d := ⟨[], 0, false⟩) (P := fun x : DecSlot => ∀ y ∈ x.bytes, y = 0)
    (by decide) (by decide) i
  exact getD_of_forall (P := fun y : Byte => y = 0) rfl this p
theorem witness_small_consistent : smallState.dec.Consistent smallState.cfg := by
  intro p hp
  have hp : p = 0 := by have : p < 1 := hp; omega
  subst hp
  exact ⟨[0x41, 0x00], rfl, by decide⟩
theorem witness_small_steps : ∃ t, step { smallState with pending := some 0x16 } = .next t := ⟨_, rfl⟩

end Sys2Proof.Tests
end

section
/-! PROOFS of 00_scope.md. Which configurations exist (R7, R12, R242), and that in their codes any K positions are an
information set (R247): reading a codeword's symbols at K positions is injective on messages by the distance, and a map of
the finite set of K-byte sequences into itself that is injective reaches every sequence. -/

namespace Sys2Proof.Machine

/-! ### The configurations that exist -/

/-- x^8 + x^4 + x^3 + x^2 + 1 is irreducible (R241). -/
theorem irreducible_gfPoly : irreducible gfPoly = true := by decide

/-- K + M is at most 255 (R7). -/
theorem codewordLength_le_of_sized {c : Config} (h : c.sized = true) : c.k + c.m ≤ 255 := by
  simp only [Config.sized, Bool.and_eq_true, decide_eq_true_eq] at h
  omega

/-- The check of RS_CODE is its law; the reference code, which is not checked, meets it at every size of R7 (R12, R242). -/
theorem codeLawful_iff {c : Config} (hn : c.k + c.m ≤ 255) :
    codeLawful c = true ↔ irreducible (fieldPoly c) = true ∧ codeDistance c := by
  cases hc : c.code with
  | reference =>
    simp only [codeLawful, fieldPoly, hc, true_iff]
    exact ⟨irreducible_gfPoly, referenceCode_distance hc hn⟩
  | matrix p t => simp only [codeLawful, fieldPoly, hc, Bool.and_eq_true, distanceHolds_iff]

theorem wf_iff_sized_and_lawful (c : Config) :
    c.wf = true ↔ c.sized = true ∧ irreducible (fieldPoly c) = true ∧ codeDistance c := by
  rw [Config.wf, Bool.and_eq_true]
  exact and_congr_right fun hs => codeLawful_iff (codewordLength_le_of_sized hs)

/-- A configuration that does not exist takes no step (U7). -/
theorem step_refused {s : State} (h : s.cfg.wf = false) : step s = .refused .badConfiguration :=
  if_neg (by simp [h])

/-! ### Information sets (R247) -/

/-- The symbols of a sequence at a list of positions. -/
def symbolsAt (S : List Nat) (w : List Byte) : List Byte := S.map fun t => w.getD t 0

@[simp] theorem length_symbolsAt (S : List Nat) (w : List Byte) : (symbolsAt S w).length = S.length := List.length_map _

theorem symbolsAt_eq_iff {S : List Nat} {v w : List Byte} :
    symbolsAt S v = symbolsAt S w ↔ ∀ t ∈ S, v.getD t 0 = w.getD t 0 := List.map_inj_left

/-- The sequences of `n` bytes are finitely many. -/
theorem finite_sequences (n : Nat) : {w : List Byte | w.length = n}.Finite :=
  have : Finite Byte := Finite.of_injective BitVec.toFin fun _ _ => BitVec.eq_of_toFin_eq
  List.finite_length_eq Byte n

/-- Any values at K positions are those of some codeword (R247). -/
theorem exists_message_at {c : Config} (hd : codeDistance c) {S : List Nat} (hS : S.Nodup)
    (hr : ∀ t ∈ S, t < c.k + c.m) (hl : S.length = c.k) (r : List Byte) :
    ∃ msg : List Byte, msg.length = c.k ∧ ∀ t ∈ S, (codewordOf c msg).getD t 0 = r.getD t 0 := by
  have hmaps : Set.MapsTo (fun msg => symbolsAt S (codewordOf c msg)) {w | w.length = c.k} {w | w.length = c.k} :=
    fun msg _ => (length_symbolsAt S _).trans hl
  have hinj : Set.InjOn (fun msg => symbolsAt S (codewordOf c msg)) {w | w.length = c.k} := fun a ha b hb h =>
    codeword_unique hd hS hr hl.ge ha hb (symbolsAt_eq_iff.mp h)
  have hbij := ((finite_sequences c.k).injOn_iff_bijOn_of_mapsTo hmaps).mp hinj
  obtain ⟨msg, hm, h⟩ := hbij.surjOn (show (symbolsAt S r).length = c.k from (length_symbolsAt S r).trans hl)
  exact ⟨msg, hm, symbolsAt_eq_iff.mp h⟩

/-- K positions with any values determine exactly one message (R247). -/
theorem existsUnique_message_at {c : Config} (hd : codeDistance c) {S : List Nat} (hS : S.Nodup)
    (hr : ∀ t ∈ S, t < c.k + c.m) (hl : S.length = c.k) (r : List Byte) :
    ∃! msg : List Byte, msg.length = c.k ∧ ∀ t ∈ S, (codewordOf c msg).getD t 0 = r.getD t 0 := by
  obtain ⟨msg, hm, h⟩ := exists_message_at hd hS hr hl r
  exact ⟨msg, ⟨hm, h⟩, fun a ⟨ha, h'⟩ =>
    codeword_unique hd hS hr hl.ge ha hm fun t ht => (h' t ht).trans (h t ht).symm⟩

/-! ### Erasures: the same, said of the positions left out -/

/-- The positions of a codeword that are not erased. -/
def knownPositions (c : Config) (E : List Nat) : List Nat := (List.range (c.k + c.m)).filter fun t => decide (t ∉ E)

theorem mem_knownPositions {c : Config} {E : List Nat} {t : Nat} :
    t ∈ knownPositions c E ↔ t < c.k + c.m ∧ t ∉ E := by
  simp [knownPositions]

theorem knownPositions_lt {c : Config} {E : List Nat} : ∀ t ∈ knownPositions c E, t < c.k + c.m :=
  fun _ ht => (mem_knownPositions.mp ht).1

theorem nodup_knownPositions (c : Config) (E : List Nat) : (knownPositions c E).Nodup := List.nodup_range.filter _

theorem length_knownPositions {c : Config} {E : List Nat} (hE : E.Nodup) (hr : ∀ t ∈ E, t < c.k + c.m) :
    (knownPositions c E).length + E.length = c.k + c.m := complement_length hE hr

theorem fitsMessage_iff {c : Config} {r : List Byte} {E : List Nat} {msg : List Byte} : FitsMessage c r E msg ↔
    msg.length = c.k ∧ ∀ t ∈ knownPositions c E, (codewordOf c msg).getD t 0 = r.getD t 0 := by
  simp only [FitsMessage, mem_knownPositions, and_imp]

/-- With at most M erasures at most one message fits (R242). -/
theorem fitsMessage_unique {c : Config} (hd : codeDistance c) {E : List Nat} (hE : E.Nodup)
    (hr : ∀ t ∈ E, t < c.k + c.m) (hl : E.length ≤ c.m) {r a b : List Byte} (ha : FitsMessage c r E a)
    (hb : FitsMessage c r E b) : a = b := by
  obtain ⟨hal, ha⟩ := fitsMessage_iff.mp ha
  obtain ⟨hbl, hb⟩ := fitsMessage_iff.mp hb
  have hk := length_knownPositions hE hr
  exact codeword_unique hd (nodup_knownPositions c E) knownPositions_lt (by omega) hal hbl fun t ht =>
    (ha t ht).trans (hb t ht).symm

/-- With exactly M erasures a message fits, whatever the known symbols are (R247). -/
theorem exists_fitsMessage {c : Config} (hd : codeDistance c) {E : List Nat} (hE : E.Nodup)
    (hr : ∀ t ∈ E, t < c.k + c.m) (hl : E.length = c.m) (r : List Byte) : ∃ msg, FitsMessage c r E msg := by
  have hk := length_knownPositions hE hr
  obtain ⟨msg, h⟩ := exists_message_at hd (nodup_knownPositions c E) knownPositions_lt (by omega) r
  exact ⟨msg, fitsMessage_iff.mpr h⟩

/-- Settles O39: the distance makes K positions an information set, by injectivity on a finite set. -/
theorem anyKPositionsDetermineTheCodeword : Obligations.AnyKPositionsDetermineTheCodeword := by
  refine ⟨wf_iff_sized_and_lawful, fun _ => step_refused, fun c hw => ?_⟩
  have hd := codeDistance_of_wf hw
  exact ⟨fun S r hS hl hr => existsUnique_message_at hd hS hr hl r, fun E r hE hr hl =>
    ⟨fun _ _ => fitsMessage_unique hd hE hr hl, fun hm => exists_fitsMessage hd hE hr hm r⟩⟩

end Sys2Proof.Machine
end

section
/-! PROOFS of 10_state.md. The turns of the host and of the pin keep the engines and write no OUT_BUF byte; a command keeps
the host's side; and what every step keeps follows from one lemma, `step_keeps`, by the four things a step is made of: a
turn's effect, a command's effect, a completion, the end of a reset clear. -/

namespace Sys2Proof.Machine

/-! ### What a command leaves unchanged -/

/-- A command that has run is complete: it failed with no effect but on the draw counter, or it succeeded with its
effect. -/
theorem exec_next {i : Instr} {s t : State} (h : exec i s = .next t) :
    (∃ c n, t = State.complete c { s with draws := n }) ∨ ∃ s', Effect i s s' ∧ t = s'.complete .ok := by
  rcases exec_cases i s with ⟨c, _, _, he | he⟩ | ⟨s', hs', he⟩ <;> rw [he] at h <;> cases h
  · exact .inl ⟨c, s.draws, rfl⟩
  · exact .inl ⟨c, s.draws + 1, rfl⟩
  · exact .inr ⟨s', hs', rfl⟩

/-- The fields an effect may write; all others keep their values (R31, R154). -/
theorem Effect.frame {i : Instr} {s s' : State} (h : Effect i s s') :
    s' = { s with res0 := s'.res0, res1 := s'.res1, res2 := s'.res2, res3 := s'.res3, enc := s'.enc, dec := s'.dec,
                  mem := s'.mem, draws := s'.draws } := by
  cases h <;> rfl

theorem Effect.cfg_eq {i : Instr} {s s' : State} (h : Effect i s s') : s'.cfg = s.cfg := by rw [h.frame]

/-- The only memory a command writes is OUT_BUF (R87). -/
theorem Effect.read_eq {i : Instr} {s s' : State} (h : Effect i s s') {a : Nat} (ha : a < outBase) :
    s'.mem.read a = s.mem.read a := by
  cases h with
  | encGetParity | decGetData => exact writeOut_read_out s _ (.inl ha)
  | _ => rfl

theorem Effect.enc_eq {i : Instr} {s s' : State} (h : Effect i s s')
    (hi : ∀ n, i ≠ .encBegin n ∧ i ≠ .encAddData n ∧ i ≠ .encComputeParity n) : s'.enc = s.enc := by
  cases h with
  | encBegin n | encAddData n | encComputeParity n => exact absurd (hi n) (by simp)
  | _ => rfl

theorem Effect.dec_eq {i : Instr} {s s' : State} (h : Effect i s s')
    (hi : ∀ n, i ≠ .decBegin n ∧ i ≠ .decAddData n ∧ i ≠ .decAddParity n ∧ i ≠ .decDecode n) : s'.dec = s.dec := by
  cases h with
  | decBegin n | decAddData n | decAddParity n | decode n | decodeDraw n => exact absurd (hi n) (by simp)
  | _ => rfl

theorem Effect.mem_eq {i : Instr} {s s' : State} (h : Effect i s s')
    (hi : ∀ n, i ≠ .encGetParity n ∧ i ≠ .decGetData n) : s'.mem = s.mem := by
  cases h with
  | encGetParity n | decGetData n => exact absurd (hi n) (by simp)
  | _ => rfl

theorem Effect.res123_eq {i : Instr} {s s' : State} (h : Effect i s s') (hi : ∀ n, i ≠ .frameParse n) :
    s'.res1 = s.res1 ∧ s'.res2 = s.res2 ∧ s'.res3 = s.res3 := by
  cases h with
  | frameParse n => exact absurd rfl (hi n)
  | _ => exact ⟨rfl, rfl, rfl⟩

theorem Effect.res0_eq {i : Instr} {s s' : State} (h : Effect i s s')
    (hi : ∀ n, i ≠ .encGetParity n ∧ i ≠ .decCountMissing n ∧ i ≠ .decCountParity n ∧ i ≠ .decCanDecode n ∧
      i ≠ .decDecode n ∧ i ≠ .decGetData n ∧ i ≠ .frameParse n) : s'.res0 = s.res0 := by
  cases h with
  | count _ _ _ hc => rcases hc with ⟨n, rfl⟩ | ⟨n, rfl⟩ | ⟨n, rfl⟩ <;> exact absurd (hi n) (by simp)
  | encGetParity n | decode n | decodeDraw n | decGetData n | frameParse n => exact absurd (hi n) (by simp)
  | _ => rfl

/-- Settles O12: a failure writes the completion fields and the draw counter, a success its effect's fields besides. -/
theorem commandsKeepTheHostsSide : Obligations.CommandsKeepTheHostsSide := by
  intro i s t h
  rcases exec_next h with ⟨c, n, rfl⟩ | ⟨s', he, rfl⟩
  · exact ⟨rfl, fun _ _ => rfl⟩
  · refine ⟨?_, fun a ha => he.read_eq ha⟩
    rw [he.frame]
    rfl

/-- Settles O13: a failure has no effect, and a success writes only what its command's effect names. -/
theorem onlyNamedCommandsChangeState : Obligations.OnlyNamedCommandsChangeState := by
  intro i s t h
  rcases exec_next h with ⟨c, n, rfl⟩ | ⟨s', he, rfl⟩
  · exact ⟨fun _ => rfl, fun _ => rfl, fun _ => rfl, fun _ => ⟨rfl, rfl, rfl⟩, fun _ => rfl⟩
  · exact ⟨he.enc_eq, he.dec_eq, he.mem_eq, he.res123_eq, he.res0_eq⟩

/-! ### What a turn of the host or of the pin leaves unchanged -/

/-- The fields a turn may write; all others keep their values (R32, R40, R153). -/
theorem TurnEffect.frame {s u : State} (h : TurnEffect s u) :
    u = { s with arg0 := u.arg0, arg1 := u.arg1, cmd := u.cmd, irqEn := u.irqEn, done := u.done, errBusy := u.errBusy,
                 pending := u.pending, resetting := u.resetting, mem := u.mem } := by
  cases h <;> rfl

theorem TurnEffect.cfg_eq {s u : State} (h : TurnEffect s u) : u.cfg = s.cfg := by rw [h.frame]
theorem TurnEffect.enc_eq {s u : State} (h : TurnEffect s u) : u.enc = s.enc := by rw [h.frame]
theorem TurnEffect.dec_eq {s u : State} (h : TurnEffect s u) : u.dec = s.dec := by rw [h.frame]

/-- A host write to IN_BUF lies below FRAME_MAX of the window, so below OUT_BUF (R80, R86). -/
theorem storeIn_read_out {s : State} (hf : s.cfg.frameMax ≤ 65535) (w : Word) (a n : Nat) {x : Nat}
    (hx : outBase ≤ x) : (s.storeIn w a n).mem.read x = s.mem.read x := by
  refine Memory.read_writeBytes_of_outside s.mem _ ?_
  rw [length_tabulate]
  unfold inBase
  unfold outBase at hx
  omega

theorem TurnEffect.read_out {s u : State} (h : TurnEffect s u) (hf : s.cfg.frameMax ≤ 65535) {x : Nat}
    (hx : outBase ≤ x) : u.mem.read x = s.mem.read x := by
  cases h with
  | store _ w a n => exact storeIn_read_out hf w a n hx
  | _ => rfl

/-- Settles O14: by the fields a turn may write, and the bounds of a write to IN_BUF. -/
theorem hostTurnsNeverReachTheEngines : Obligations.HostTurnsNeverReachTheEngines := by
  intro s t m rest ha hm h
  have hw := (step_cases h).1
  rw [step_turn hw ha hm] at h
  obtain ⟨u, hu, a, r, d, ht⟩ := takeTurn_effect s m rest
  rw [ht] at h
  cases h
  have hf := (wf_frameMax hw).1
  refine ⟨hu.enc_eq, hu.dec_eq, ?_, ?_, ?_, ?_, ?_, fun x hx => hu.read_out hf hx⟩ <;> rw [hu.frame] <;> rfl

/-! ### What every step keeps -/

/-- A property is kept by a step from `s` if turns, completions, the end of a reset clear, and the command that is pending
in `s` keep it, and it is not about the model's own fields. -/
theorem step_keeps {P : State → Prop} {s t : State} (hs : P s) (h : step s = .next t)
    (hown : ∀ u a r d, P u → P { u with agenda := a, resp := r, draws := d })
    (hturn : ∀ u v, TurnEffect u v → P u → P v)
    (hcomplete : ∀ u c, P u → P (u.complete c))
    (hreset : ∀ u, P u → P u.finishReset)
    (heffect : ∀ rest w i u, EngineTurn s rest → s.pending = some w → decodeWord w = .ok i →
      Effect i (s.withAgenda rest) u → P u) : P t := by
  have hagenda : ∀ rest, P (s.withAgenda rest) := fun rest => hown s rest s.resp s.draws hs
  obtain ⟨_, ⟨rest, hrest, he⟩ | ⟨m, rest, _, _, rfl⟩⟩ := step_cases h
  · rcases engineStep_cases he with ⟨_, rfl⟩ | ⟨_, _, rfl⟩ | ⟨_, _, rfl⟩ | ⟨_, w, i, hp, hi, hx⟩
    · exact hreset _ (hagenda rest)
    · exact hagenda rest
    · exact hcomplete _ _ (hagenda rest)
    · rcases exec_next hx with ⟨c, n, rfl⟩ | ⟨u, hu, rfl⟩
      · exact hcomplete _ c (hown s rest s.resp n hs)
      · exact hcomplete _ _ (heffect rest w i u hrest hp hi hu)
  · obtain ⟨u, hu, a, r, d, ht⟩ := takeTurn_effect s m rest
    rw [ht]
    exact hown u a r d (hturn _ u hu (hagenda rest))

/-- No step changes the parameters (R35). -/
theorem step_cfg {s t : State} (h : step s = .next t) : t.cfg = s.cfg :=
  step_keeps (P := fun u => u.cfg = s.cfg) rfl h (fun _ _ _ _ hu => hu) (fun _ _ he hu => he.cfg_eq.trans hu)
    (fun _ _ hu => hu) (fun _ hu => hu) fun _ _ _ _ _ _ _ he => he.cfg_eq

/-! ### The invariant -/

/-- The invariant speaks of the parameters, memory, the engines and the life of a command only. -/
theorem State.Inv.of_eq {s t : State} (h : s.Inv) (hc : t.cfg = s.cfg) (hm : t.mem = s.mem) (he : t.enc = s.enc)
    (hd : t.dec = s.dec) (hdone : t.pending ≠ none → t.done = false) (hreset : t.resetting = true → t.pending = none) :
    t.Inv where
  cfgOk := hc ▸ h.cfgOk
  memWf := hm ▸ h.memWf
  memMapped := by rw [hm, hc]; exact h.memMapped
  encOk := by rw [he, hc]; exact h.encOk
  decOk := by rw [hd, hc]; exact h.decOk
  runningNotDone := hdone
  resettingNotRunning := hreset

/-- The invariant says nothing of the model's own fields. -/
theorem State.Inv.withOwn {s : State} (h : s.Inv) (a : List Move) (r : Option BusResponse) (d : Nat) :
    State.Inv { s with agenda := a, resp := r, draws := d } :=
  h.of_eq rfl rfl rfl rfl h.runningNotDone h.resettingNotRunning

/-- A byte stored by a host write to IN_BUF lies in IN_BUF (R86). -/
theorem mapped_storeIn {s : State} (h : ∀ x ∈ s.mem, buffered s.cfg x.1 = true) (w : Word) {a : Nat} (ha : inBase ≤ a)
    (n : Nat) : ∀ x ∈ (s.storeIn w a n).mem, buffered s.cfg x.1 = true := by
  intro x hx
  rcases Memory.mem_writeBytes hx with ⟨h1, h2⟩ | hx
  · rw [length_tabulate] at h2
    have : inBase ≤ x.1 ∧ x.1 < inBase + s.cfg.frameMax := by omega
    simp [buffered, this]
  · exact h x hx

theorem idle_of_not_busy {s : State} (h : s.busy = false) : s.pending = none ∧ s.resetting = false := by
  simpa [State.busy] using h

/-- A turn of the host or of the pin keeps the invariant (R86, R93, R302). -/
theorem TurnEffect.inv {s u : State} (he : TurnEffect s u) (h : s.Inv) : u.Inv := by
  cases he with
  | none => exact h
  | reset => exact h.of_eq rfl rfl rfl rfl (fun hp => absurd rfl hp) fun _ => rfl
  | status _ w =>
    exact h.of_eq rfl rfl rfl rfl (fun hp => by simp [h.runningNotDone hp]) h.resettingNotRunning
  | accept hb w =>
    exact h.of_eq rfl rfl rfl rfl (fun _ => rfl) fun hr => by simp [(idle_of_not_busy hb).2] at hr
  | store _ w a n ha =>
    exact { h with memWf := storeIn_wf h.memWf w a n, memMapped := mapped_storeIn h.memMapped w ha n }
  | errBusy | irqEn | arg0 | arg1 => exact h.of_eq rfl rfl rfl rfl h.runningNotDone h.resettingNotRunning

/-- No command runs after a completion. -/
theorem State.Inv.complete {s : State} (h : s.Inv) (c : ResultCode) : (s.complete c).Inv :=
  h.of_eq rfl rfl rfl rfl (fun hp => absurd rfl hp) fun _ => rfl

/-- A command keeps the encoder's invariants (R43). -/
theorem Effect.enc_inv {i : Instr} {s s' : State} (he : Effect i s s') (h : s.enc.Inv s.cfg) : s'.enc.Inv s.cfg := by
  cases he with
  | encBegin => exact enc_inv_begin _ _
  | encAddData n _ hn hl => exact enc_inv_add h hn hl
  | encComputeParity => exact enc_inv_compute h
  | _ => exact h

/-- A command keeps the decoder's invariants, a decode of inconsistent columns included (R47). -/
theorem Effect.dec_inv {i : Instr} {s s' : State} (he : Effect i s s') (h : s.dec.Inv s.cfg) : s'.dec.Inv s.cfg := by
  cases he with
  | decBegin _ _ hl => exact dec_inv_begin _ _ hl
  | decAddData n _ hn hl => exact dec_inv_addData h hn hl
  | decAddParity n _ hn hl => exact dec_inv_addParity h hn hl
  | decode | decodeDraw => exact dec_inv_commit h _
  | _ => exact h

/-- A command keeps memory in its canonical form. -/
theorem Effect.mem_wf {i : Instr} {s s' : State} (he : Effect i s s') (h : s.mem.wf) : s'.mem.wf := by
  cases he with
  | encGetParity | decGetData => exact writeOut_wf h _
  | _ => exact h

/-- A frame and a payload fit OUT_BUF, because MPL is at most CAP (R86). -/
theorem Effect.mem_mapped {i : Instr} {s s' : State} (he : Effect i s s') (h : s.Inv) :
    ∀ x ∈ s'.mem, buffered s.cfg x.1 = true := by
  cases he with
  | encGetParity n =>
    refine mapped_writeOut h.memMapped _ ?_
    rw [length_buildFrame, length_parityPayload, Nat.add_comm]
    exact Nat.add_le_add_right h.encOk.mplLeCap _
  | decGetData n =>
    refine mapped_writeOut h.memMapped _ ?_
    rw [Decoder.dataPayload, length_tabulate]
    exact h.decOk.mplLeCap.trans (Nat.le_add_right _ _)
  | _ => exact h.memMapped

/-- A command keeps the invariant. -/
theorem Effect.inv {i : Instr} {s s' : State} (he : Effect i s s') (h : s.Inv) : s'.Inv where
  cfgOk := he.cfg_eq ▸ h.cfgOk
  memWf := he.mem_wf h.memWf
  memMapped := he.cfg_eq ▸ he.mem_mapped h
  encOk := he.cfg_eq ▸ he.enc_inv h.encOk
  decOk := he.cfg_eq ▸ he.dec_inv h.decOk
  runningNotDone := by rw [he.frame]; exact h.runningNotDone
  resettingNotRunning := by rw [he.frame]; exact h.resettingNotRunning

/-- The reset state of a configuration that exists meets the invariant (R53). -/
theorem resetOf_inv {c : Config} (hc : c.wf = true) : (State.resetOf c).Inv where
  cfgOk := hc
  memWf := reset_mem_wf c
  memMapped := fun _ hx => by cases hx
  encOk := by
    show (Encoder.atReset c).Inv c
    rw [enc_inv_atReset]
    exact enc_inv_begin c 0
  decOk := by
    show (Decoder.atReset c).Inv c
    rw [dec_inv_atReset]
    exact dec_inv_begin c 0 (Nat.zero_le _)
  runningNotDone := fun hp => absurd rfl hp
  resettingNotRunning := fun _ => rfl

theorem beginDecoder_padded (c : Config) (w : Word) (n : Nat) : (beginDecoder c w n).Padded :=
  fun i p _ => (beginDecoder_data c w n i).2.2 p

theorem atReset_padded (c : Config) : (Decoder.atReset c).Padded := dec_inv_atReset c ▸ beginDecoder_padded c 0 0

/-- Settles O58: the engines at reset are those their BEGIN commands leave. -/
theorem invariantHoldsAtReset : Obligations.InvariantHoldsAtReset :=
  fun c hc => ⟨resetOf_inv hc, atReset_padded c⟩

/-- The end of a reset clear reaches the invariant again (R303). -/
theorem State.Inv.finishReset {s : State} (h : s.Inv) : s.finishReset.Inv := (resetOf_inv h.cfgOk).withOwn _ _ _

/-- Settles O59: turns, completions, the end of a reset clear and commands each keep the invariant. -/
theorem stepKeepsTheInvariant : Obligations.StepKeepsTheInvariant := fun s _ hs h =>
  step_keeps hs h (fun _ a r d hu => hu.withOwn a r d) (fun _ _ => TurnEffect.inv) (fun _ c hu => hu.complete c)
    (fun _ => State.Inv.finishReset) fun rest _ _ _ _ _ _ he => he.inv (hs.withOwn rest s.resp s.draws)

/-! ### The decoder's zero pad -/

/-- DEC_ADD_DATA stores zeros beyond the payload (R192). -/
theorem padded_addData {s : State} (h : s.dec.Padded) {n : Nat} (hn : n < s.dec.data.length) :
    (s.dec.addData n (s.slotImage s.a0 s.a1) s.a0).Padded := by
  intro i p hp
  obtain ⟨hlen, _, hbyte⟩ := decAddData_slot s.dec (s.slotImage s.a0 s.a1) s.a0 i hn
  rw [hlen] at hp
  rw [hbyte]
  split at hp
  · rw [if_pos ‹_›, getD_slotImage, if_neg (by omega)]
  · rw [if_neg ‹_›]
    exact h i p hp

/-- Where a message fits the column, a received slot's symbol of its codeword is the slot's byte (R200, R202). -/
theorem fits_received_byte {c : Config} {d : Decoder} {p i : Nat} {msg : List Byte} (hi : i < c.k)
    (hr : d.dataRx i = true) (h : FitsMessage c (d.column c p) (d.erasures c) msg) :
    (codewordOf c msg).getD i 0 = d.dataByte i p := by
  have hE : i ∉ d.erasures c := by
    rw [mem_erasures]
    rintro (⟨_, h0⟩ | ⟨j, _, hj, _⟩)
    · rw [hr] at h0; cases h0
    · omega
  rw [h.2 i (by omega) hE, decColumn_data c d p hi, if_pos hr]

/-- A decode that keeps the bytes of the received slots keeps the pad (R47, R200). -/
theorem padded_commit {c : Config} {d : Decoder} (hd : d.Inv c) (h : d.Padded) {new : Nat → Nat → Byte}
    (hnew : ∀ i < c.k, d.dataRx i = true → ∀ p < d.mpl, new i p = d.dataByte i p) : (d.commitData c new).Padded := by
  intro i p hp
  by_cases hi : i < c.k
  · by_cases hpc : p < c.cap
    · obtain ⟨hlen, _, hbyte⟩ := commitData_slot c d new hi
      rw [hlen] at hp
      rw [hbyte p hpc]
      split at hp
      · split
        · rw [hnew i hi ‹_› p ‹_›]
          exact h i p hp
        · exact h i p hp
      · rw [if_neg (by omega)]
        exact hd.dataPad i p hp
    · exact commitData_byte_cap c d new hi hpc
  · exact (commitData_out c d new hi).2.2 p

/-- A command keeps the pad, but for a DEC_DECODE whose bytes are free (R47, R203). -/
theorem Effect.padded {i : Instr} {s s' : State} (he : Effect i s s') (hd : s.dec.Inv s.cfg) (h : s.dec.Padded)
    (hfree : (∃ n, i = .decDecode n) → s.cfg.decoder = .reference ∨ s.dec.Consistent s.cfg) : s'.dec.Padded := by
  cases he with
  | decBegin => exact beginDecoder_padded _ _ _
  | decAddData n _ hn => exact padded_addData h ((Decoder.shaped_iff.mp hd.shape).1.symm ▸ hn)
  | decAddParity => exact h
  | decode n _ cws hfits =>
    refine padded_commit hd h fun i hi hr p hp => ?_
    obtain ⟨msg, hm, hcw⟩ := hfits p hp
    rw [hcw]
    exact fits_received_byte hi hr hm
  | decodeDraw n _ hl hn =>
    rcases hfree ⟨n, rfl⟩ with hf | hf
    · rw [hl] at hf; cases hf
    · exact absurd hf hn
  | _ => exact h

theorem EngineTurn.head {s : State} {rest : List Move} (h : EngineTurn s rest) :
    s.agenda = [] ∨ s.agenda.head? = some .engine := by
  rcases h with ⟨h, _⟩ | h
  · exact .inl h
  · exact .inr (by rw [h]; rfl)

/-- Settles O60: the turns do not reach the decoder, and the pending command's effect keeps the pad. -/
theorem stepKeepsTheDecoderPad : Obligations.StepKeepsTheDecoderPad := fun _ _ hs hpad h hfree =>
  step_keeps (P := fun u => u.dec.Padded) hpad h (fun _ _ _ _ hu => hu) (fun _ _ he hu => he.dec_eq ▸ hu)
    (fun _ _ hu => hu) (fun u _ => atReset_padded u.cfg) fun _ w _ _ hrest hp hi he =>
      he.padded hs.decOk hpad fun ⟨n, hn⟩ => hfree ⟨w, n, hp, hn ▸ hi, hrest.head⟩

/-! ### Register reads -/

/-- A host read of a register while nothing runs answers with what the register holds (R33). -/
theorem step_hostRead_idle {s : State} {rest : List Move} {r : Reg} (hw : s.cfg.wf = true) (hb : s.busy = false)
    (h : s.agenda = hostRead s.cfg r :: rest) :
    step s = .next { s with agenda := rest, resp := some ⟨false, s.regValue r⟩ } := by
  obtain ⟨hp, hr⟩ := idle_of_not_busy hb
  have hb' : (s.withAgenda rest).busy = false := hb
  have hv : (s.withAgenda rest).readReg (Config.freeWord s.draws) r = s.regValue r := by
    simp only [State.readReg, State.withAgenda_resetting, hr, State.withAgenda_pending, hp, Option.isSome_none,
      Bool.false_eq_true, if_false]
    cases r <;> rfl
  rw [step_hostRead hw h, busRead_reg, if_neg (by simp [hb']), State.withAgenda_draws, hv]
  rfl

/-- The upper half of an MPL register is 0, and its lower half is exact (R33). -/
theorem pairWord_zero {n : Nat} (h : n ≤ 65535) : pairWord n 0 = BitVec.ofNat 32 n := by
  rw [pairWord, Nat.mod_eq_of_lt (a := n) (by omega)]
  simp

theorem pairWord_eq {lo hi : Nat} (hlo : lo ≤ 65535) (hhi : hi ≤ 65535) :
    pairWord lo hi = BitVec.ofNat 32 (hi * 65536 + lo) := by
  rw [pairWord, Nat.mod_eq_of_lt (a := lo) (by omega), Nat.mod_eq_of_lt (a := hi) (by omega)]

/-- The ten codes of R120. -/
theorem code_mem (r : ResultCode) :
    (r, r.code.toNat) ∈ [(ResultCode.ok, 0x00), (.errBounds, 0x01), (.errNotReady, 0x02), (.errNotReceived, 0x03),
      (.errInsufficient, 0x04), (.errCodec, 0x05), (.errMagic, 0x06), (.errCrc, 0x07), (.errFrameLen, 0x08),
      (.errIllegalCmd, 0x09)] := by
  cases r <;> decide

theorem mpl_le_of_inv {s : State} (h : s.Inv) : s.enc.mpl ≤ 65535 ∧ s.dec.mpl ≤ 65535 := by
  have hf := (wf_frameMax h.cfgOk).1
  have he := h.encOk.mplLeCap
  have hd := h.decOk.mplLeCap
  unfold Config.frameMax at hf
  omega

/-- Settles O49: an idle register reads as what it holds, and STATUS holds its fields at their bits. -/
theorem registerReadsWhenIdle : Obligations.RegisterReadsWhenIdle := by
  refine ⟨fun s rest hs hb ha => ?_, fun s rest r v hs hb ha hv => ?_⟩
  · obtain ⟨h0, h1, h2, h3, h4⟩ := statusBits s.busy s.done s.errBusy s.enc.ready s.dec.decoded s.result.code
    obtain ⟨hres, hzero⟩ := statusByte s.busy s.done s.errBusy s.enc.ready s.dec.decoded s.result.code
    exact ⟨s.status, step_hostRead_idle hs.cfgOk hb ha, h0.trans hb, h1, h2, h3, h4, hres, hzero,
      by rw [State.status, hres]; exact code_mem s.result⟩
  · obtain ⟨he, hd⟩ := mpl_le_of_inv hs
    have hval : s.regValue r = v := by
      refine (?_ : ∀ x : Reg × Word, x ∈ (_ : List (Reg × Word)) → s.regValue x.1 = x.2) (r, v) hv
      simp only [List.forall_mem_cons]
      exact ⟨rfl, rfl, rfl, rfl, rfl, rfl, rfl, rfl, rfl, pairWord_zero he, pairWord_zero hd, rfl, nofun⟩
    rw [step_hostRead_idle hs.cfgOk hb ha, hval]

/-- The parameters read as themselves whatever runs, a reset clear included (R35). -/
theorem readReg_parameter {r : Reg} (hr : r = .cfgKm ∨ r = .cfgCap ∨ r = .cfgMagic) (s : State) (free : Word) :
    s.readReg free r = s.regValue r := by
  unfold State.readReg
  split
  · rcases hr with rfl | rfl | rfl <;> rfl
  · split
    · rcases hr with rfl | rfl | rfl <;> rfl
    · rfl

/-- The words of the parameter registers, whose fields fit because the configuration exists (R7 to R9, R33). -/
theorem regValue_parameter {s : State} (hw : s.cfg.wf = true) :
    ∀ x ∈ [(Reg.cfgKm, s.cfg.m * 256 + s.cfg.k), (.cfgCap, s.cfg.mtu * 65536 + s.cfg.cap),
        (.cfgMagic, s.cfg.crcInit.toNat * 65536 + s.cfg.parityMagic.toNat)],
      s.regValue x.1 = BitVec.ofNat 32 x.2 := by
  obtain ⟨hf, hk, hm, hmtu, -, -⟩ := wf_frameMax hw
  have hcap : s.cfg.cap ≤ 65535 := (Nat.le_add_right _ _).trans hf
  have hkm : cfgKmWord s.cfg = BitVec.ofNat 32 (s.cfg.m * 256 + s.cfg.k) := by
    rw [cfgKmWord, Nat.mod_eq_of_lt (a := s.cfg.m) (by omega), Nat.mod_eq_of_lt (a := s.cfg.k) (by omega)]
  simp only [List.forall_mem_cons]
  exact ⟨hkm, pairWord_eq hcap hmtu,
    pairWord_eq (Nat.le_of_lt_succ s.cfg.parityMagic.isLt) (Nat.le_of_lt_succ s.cfg.crcInit.isLt), nofun⟩

/-- Settles O50: a parameter's read is exact in all three modes of the bus, and `step_cfg`. -/
theorem parametersAreHardwired : Obligations.ParametersAreHardwired := by
  refine ⟨fun s rest r v hw ha hv => ?_, fun s t => step_cfg⟩
  have hr : r = .cfgKm ∨ r = .cfgCap ∨ r = .cfgMagic := by
    simp only [List.mem_cons, Prod.mk.injEq, List.not_mem_nil, or_false] at hv
    tauto
  have hval : (s.withAgenda rest).readReg (Config.freeWord s.draws) r = BitVec.ofNat 32 v :=
    (readReg_parameter hr _ _).trans (regValue_parameter (s := s.withAgenda rest) hw (r, v) hv)
  rw [step_hostRead hw ha, busRead_reg, State.withAgenda_draws, hval]
  split
  · exact ⟨s.draws + 1, rfl⟩
  · exact ⟨s.draws, rfl⟩

/-! ### Register writes -/

theorem writeReg_readOnly {r : Reg} (hr : r ∈ [Reg.cfgKm, .cfgCap, .cfgMagic, .res0, .res1, .res2, .res3, .encMpl,
    .encTotalLen, .decMpl, .decTotalLen]) (w : Word) (s : State) : s.writeReg w r = s := by
  cases r with
  | ctrl | status | cmd | arg0 | arg1 => exact absurd hr (by decide)
  | _ => rfl

/-- A write from OUT_BUF on stores nothing (R84, R87). -/
theorem writeData_outBuf {a : Nat} (ha : outBase ≤ a) (w : Word) (n : Nat) (s : State) : s.writeData w a n = s := by
  have h : inBase < outBase := by decide
  rw [State.writeData, if_neg (by omega), if_neg (by omega)]

/-- Settles O47: neither kind of write reaches the block, inside a reset clear or outside. -/
theorem readOnlyWritesAreIgnored : Obligations.ReadOnlyWritesAreIgnored := by
  refine fun s rest o wd w r hw => ⟨fun hr ha => ?_, fun ho hal ha => ?_⟩
  · rw [step_hostWrite hw ha, writeReg_readOnly hr, ite_self]
    rfl
  · have herr : busError (0x20000 + o) wd = false :=
      busError_ok (by rw [Nat.add_mod, (width_bytes wd).2.2.2, hal, Nat.zero_add, Nat.zero_mod])
        (.inl (by unfold inBase; omega))
    have hdata := writeData_outBuf (a := 0x20000 + o) (Nat.le_add_right _ _) w wd.bytes (s.withAgenda rest)
    rw [step_write hw (by omega) ha, busWrite, herr, hdata, ite_self]
    rfl

/-- Settles O48: by the register's own update, and for STATUS its two write-one-to-clear bits. -/
theorem operandAndStatusWrites : Obligations.OperandAndStatusWrites := by
  intro s rest w hw hr
  have hstep : ∀ r, s.agenda = hostWrite s.cfg r w :: rest →
      step s = .next (((s.withAgenda rest).writeReg w r).respond ⟨false, 0⟩) := fun r ha => by
    rw [step_hostWrite hw ha, if_neg (by simp [hr])]
  have hidle : s.pending = none → (s.withAgenda rest).busy = false := fun hp => by simp [State.busy, hp, hr]
  refine ⟨fun hp ha => ?_, fun hp ha => ?_, fun ha => ?_⟩
  · rw [hstep _ ha, State.writeReg, if_neg (by simp [hidle hp])]
    rfl
  · rw [hstep _ ha, State.writeReg, if_neg (by simp [hidle hp])]
    rfl
  · rw [hstep _ ha, State.writeReg, writeStatus_eq]
    rfl

/-! ### The reset state -/

/-- DEC_BEGIN where the estimate is in bounds (R190). -/
theorem execDecBegin_ok {s : State} (h : s.a1 ≤ s.cfg.cap) (idx : Nat) :
    exec (.decBegin idx) s = succeed (s.withDec (beginDecoder s.cfg s.arg0 s.a1)) := if_neg (Nat.not_lt.mpr h)

/-- Settles O57: the fields by definition, the engines as those their BEGIN commands leave. -/
theorem resetStateHoldsItsValues : Obligations.ResetStateHoldsItsValues := fun c =>
  ⟨rfl, rfl, rfl, rfl, rfl, rfl, rfl, rfl, rfl, rfl, rfl, rfl, rfl, rfl, rfl, rfl, Memory.read_nil,
    fun _ => ⟨_, rfl, (enc_inv_atReset c).symm⟩,
    fun idx => ⟨_, execDecBegin_ok (Nat.zero_le _) idx, (dec_inv_atReset c).symm⟩⟩

end Sys2Proof.Machine
end

section
/-! PROOFS of 20_memory.md. Every host access to the block is, outside a reset clear, one of three state equations (a bus
error, a read of `readData`, a write by `writeData`); what is left are the lanes of a buffer read, the bytes of an IN_BUF
write, and the two kinds of registers while a command runs. -/

namespace Sys2Proof.Machine

/-! ### Accesses that are bus errors -/

/-- The two bus errors: a misaligned access, and a narrow one in the register region (R84, R88). -/
theorem busError_iff {a : Nat} {wd : Width} : busError a wd = true ↔ a % wd.bytes ≠ 0 ∨ a < inBase ∧ wd ≠ .w4 := by
  simp only [busError, Bool.or_eq_true, Bool.and_eq_true, decide_eq_true_eq]

/-- An access to a buffer window aligned within the window is aligned on the bus (R84, R86). -/
theorem busError_buffer {b o : Nat} {wd : Width} (hb : b = inBase ∨ b = outBase) (ho : o % wd.bytes = 0) :
    busError (b + o) wd = false := by
  obtain ⟨-, -, hin, hout⟩ := width_bytes wd
  have hbase : b % wd.bytes = 0 ∧ inBase ≤ b := by
    rcases hb with rfl | rfl
    · exact ⟨hin, le_rfl⟩
    · exact ⟨hout, by decide⟩
  exact busError_ok (by rw [Nat.add_mod, hbase.1, ho, Nat.zero_add, Nat.zero_mod])
    (.inl (hbase.2.trans (Nat.le_add_right b o)))

theorem busRead_error {a : Nat} {wd : Width} (h : busError a wd = true) (s : State) :
    busRead a wd s = s.respond ⟨true, 0⟩ := if_pos h

theorem busWrite_error {a : Nat} {wd : Width} (h : busError a wd = true) (w : Word) (s : State) :
    busWrite a wd w s = s.respond ⟨true, 0⟩ := if_pos h

/-- Settles O42: both kinds of access answer a bus error before they reach the block. -/
theorem badAccessIsABusError : Obligations.BadAccessIsABusError := by
  intro s rest off wd w hw _ hoff hbad
  have herr : busError off wd = true := busError_iff.mpr hbad
  refine ⟨fun ha => ?_, fun ha => ?_⟩
  · rw [step_read hw hoff ha, busRead_error herr]
    rfl
  · rw [step_write hw hoff ha, busWrite_error herr]
    rfl

/-! ### Accesses that are no bus errors -/

/-- The turns to come do not show in what a read returns. -/
theorem readData_withAgenda (rest : List Move) (s : State) (free : Word) (a : Nat) (wd : Width) :
    (s.withAgenda rest).readData free a wd = s.readData free a wd := rfl

/-- A good read answers with `readData`; a free value counts as drawn while BUSY is 1 (R91, R93). -/
theorem step_read_ok {s : State} {rest : List Move} {off : Nat} {wd : Width} (hw : s.cfg.wf = true)
    (ho : off < 0x40000) (herr : busError off wd = false)
    (h : s.agenda = .host (.read (s.cfg.base + off) wd) :: rest) :
    step s = .next { s with agenda := rest, resp := some ⟨false, s.readData (Config.freeWord s.draws) off wd⟩,
                            draws := if s.busy then s.draws + 1 else s.draws } := by
  have hbusy : (s.withAgenda rest).busy = s.busy := rfl
  rw [step_read hw ho h, busRead, if_neg (ne_true_of_eq_false herr), hbusy, State.withAgenda_draws, readData_withAgenda]
  split <;> rfl

/-- A good write outside a reset clear is `writeData`, answered without error (R84, R85). -/
theorem step_write_ok {s : State} {rest : List Move} {off : Nat} {wd : Width} {w : Word} (hw : s.cfg.wf = true)
    (hr : s.resetting = false) (ho : off < 0x40000) (herr : busError off wd = false)
    (h : s.agenda = .host (.write (s.cfg.base + off) wd w) :: rest) :
    step s = .next (((s.withAgenda rest).writeData w off wd.bytes).respond ⟨false, 0⟩) := by
  rw [step_write hw ho h, busWrite, if_neg (ne_true_of_eq_false herr), State.withAgenda_resetting,
    if_neg (ne_true_of_eq_false hr)]

/-- Settles O51: a read inside the block answers and counts a draw at most, one outside does not reach it. -/
theorem readsHaveNoSideEffect : Obligations.ReadsHaveNoSideEffect := by
  intro s rest addr wd hw ha
  rw [step_turn hw ha (by simp), takeTurn, hostAccess]
  cases busOffset (s.withAgenda rest).cfg addr with
  | some off =>
    obtain ⟨r, d, h⟩ := busRead_eq off wd (s.withAgenda rest)
    exact ⟨some r, d, congrArg _ h⟩
  | none => exact ⟨s.resp, s.draws, rfl⟩

/-! ### The lanes of a read -/

theorem readData_unmappedReg {s : State} (hr : s.resetting = false) {a : Nat} (h1 : 0x40 ≤ a) (h2 : a < inBase)
    (free : Word) (wd : Width) : s.readData free a wd = 0 := by
  rw [State.readData, if_pos h2, regAt_none h1, hr]
  rfl

theorem readData_buffer {a : Nat} (h : inBase ≤ a) (s : State) (free : Word) (wd : Width) :
    s.readData free a wd = wordOfLanes (tabulate wd.bytes fun k => s.readLane free (a + k) k) :=
  if_neg (Nat.not_lt.mpr h)

/-- Byte `k` of a read outside the register region is lane `k` (R82). -/
theorem laneOf_readData {a : Nat} (h : inBase ≤ a) (s : State) (free : Word) {wd : Width} {k : Nat} (hk : k < wd.bytes) :
    laneOf (s.readData free a wd) k = s.readLane free (a + k) k := by
  rw [readData_buffer h, laneOf_wordOfLanes _ _ (hk.trans_le (width_bytes wd).1), getD_tabulate_of_lt _ _ hk]

/-- The lanes above a narrow read are 0 (log 8). -/
theorem readData_lt {a : Nat} (h : inBase ≤ a) (s : State) (free : Word) (wd : Width) :
    (s.readData free a wd).toNat < 2 ^ (8 * wd.bytes) := by
  have hlt := toNat_wordOfLanes (tabulate wd.bytes fun k => s.readLane free (a + k) k)
    ((length_tabulate _ _).trans_le (width_bytes wd).1)
  rwa [length_tabulate, ← readData_buffer h] at hlt

/-- Every byte of an aligned access that starts in a window lies in it: the window's size is a multiple of every width
(R81, R86). -/
theorem aligned_byte_lt {o k : Nat} {wd : Width} (ho : o < 0x10000) (hal : o % wd.bytes = 0) (hk : k < wd.bytes) :
    o + k < 0x10000 := by
  cases wd <;> simp only [Width.bytes] at hal hk <;> omega

/-- IN_BUF's window ends where OUT_BUF's begins (R80). -/
theorem inBuf_lt_outBase {o : Nat} (ho : o < 0x10000) : inBase + o < outBase := Nat.add_lt_add_left ho inBase

/-- A lane in IN_BUF is exact, whether or not a command runs (R86, R93). -/
theorem readLane_inBuf {s : State} (hr : s.resetting = false) {o : Nat} (ho : o < 0x10000) (free : Word) (k : Nat) :
    s.readLane free (inBase + o) k = if o < s.cfg.frameMax then s.mem.read (inBase + o) else 0 := by
  rw [State.readLane, if_neg (ne_true_of_eq_false hr), if_neg (by omega), if_pos (inBuf_lt_outBase ho),
    Nat.add_sub_cancel_left]

/-- A lane in OUT_BUF is exact with no command running, and free while one runs (R86, R93). -/
theorem readLane_outBuf {s : State} (hr : s.resetting = false) (o : Nat) (free : Word) (k : Nat) :
    s.readLane free (outBase + o) k =
      if o < s.cfg.frameMax then (if s.pending.isSome then laneOf free k else s.mem.read (outBase + o)) else 0 := by
  have hlt : inBase < outBase := by decide
  rw [State.readLane, if_neg (ne_true_of_eq_false hr), if_neg (by omega), if_neg (by omega), Nat.add_sub_cancel_left]

/-- The unmapped region above the buffer windows reads 0 (R84). -/
theorem readData_above {s : State} (hr : s.resetting = false) (hf : s.cfg.frameMax ≤ 65535) {a : Nat}
    (h : 0x30000 ≤ a) (free : Word) (wd : Width) : s.readData free a wd = 0 := by
  have hlane : ∀ k < wd.bytes, s.readLane free (a + k) k = 0 := fun k _ => by
    have hsplit : a + k = outBase + (a + k - outBase) := by unfold outBase; omega
    rw [hsplit, readLane_outBuf hr, if_neg (by unfold outBase; omega)]
  rw [readData_buffer (by unfold inBase; omega), tabulate_congr hlane, wordOfLanes_zero]

theorem writeData_unmapped {a : Nat} (h : 0x40 ≤ a ∧ a < inBase ∨ outBase ≤ a) (w : Word) (n : Nat) (s : State) :
    s.writeData w a n = s := by
  rcases h with ⟨h1, h2⟩ | h
  · rw [State.writeData, if_pos h2, regAt_none h1]
  · exact writeData_outBuf h w n s

/-- Settles O43: no register is mapped there, and no byte from 0x30000 on lies below FRAME_MAX of a window. -/
theorem unmappedAccessReadsZero : Obligations.UnmappedAccessReadsZero := by
  intro s rest off wd w hw hr hal hoff
  have hlt : off < 0x40000 := by omega
  have hbuf : inBase ≤ off ∨ wd = .w4 := hoff.symm.imp (fun h => le_trans (by decide) h.1) fun h => h.2.2
  have herr : busError off wd = false := busError_ok hal hbuf
  refine ⟨fun ha => ?_, fun ha => ?_⟩
  · have hdata : s.readData (Config.freeWord s.draws) off wd = 0 := by
      rcases hoff with ⟨h1, h2, _⟩ | ⟨h, _⟩
      · exact readData_unmappedReg hr h1 h2 _ wd
      · exact readData_above hr (wf_frameMax hw).1 h _ wd
    exact ⟨_, by rw [step_read_ok hw hlt herr ha, hdata]⟩
  · rw [step_write_ok hw hr hlt herr ha, writeData_unmapped (by unfold inBase outBase; omega)]
    rfl

/-- An aligned read of a buffer window: byte `k` of the answer is lane `k`, and nothing lies above the lanes (R82, R91). -/
theorem step_read_buffer {s : State} {rest : List Move} {b o : Nat} {wd : Width} (hw : s.cfg.wf = true)
    (hbase : b = inBase ∨ b = outBase) (ho : o < 0x10000) (hal : o % wd.bytes = 0)
    (h : s.agenda = .host (.read (s.cfg.base + (b + o)) wd) :: rest) :
    ∃ d : Word, step s = .next { s with agenda := rest, resp := some ⟨false, d⟩,
                                        draws := if s.busy then s.draws + 1 else s.draws } ∧
      (∀ k < wd.bytes, laneOf d k = s.readLane (Config.freeWord s.draws) (b + (o + k)) k) ∧
      d.toNat < 2 ^ (8 * wd.bytes) := by
  have hwindow : inBase ≤ b + o ∧ b + o < 0x40000 := by
    unfold inBase outBase at *
    omega
  refine ⟨_, step_read_ok hw hwindow.2 (busError_buffer hbase hal) h, fun k hk => ?_, readData_lt hwindow.1 s _ wd⟩
  rw [laneOf_readData hwindow.1 s _ hk, Nat.add_assoc]

/-- Settles O45: byte `k` is its lane, which with nothing running is the buffer's byte. -/
theorem bufferReadIsLittleEndian : Obligations.BufferReadIsLittleEndian := by
  intro s rest base o wd hw hb hbase ho hal ha
  obtain ⟨hp, hr⟩ := idle_of_not_busy hb
  obtain ⟨d, hstep, hlane, hd⟩ := step_read_buffer hw hbase ho hal ha
  rw [if_neg (ne_true_of_eq_false hb)] at hstep
  refine ⟨d, hstep, fun k hk => (hlane k hk).trans ?_, hd⟩
  rcases hbase with rfl | rfl
  · exact readLane_inBuf hr (aligned_byte_lt ho hal hk) _ k
  · exact (readLane_outBuf hr (o + k) _ k).trans (by rw [hp]; rfl)

/-! ### Writes to IN_BUF -/

theorem writeData_inBuf {o : Nat} (ho : o < 0x10000) (w : Word) (n : Nat) (s : State) :
    s.writeData w (inBase + o) n = if s.busy then s.recordErrBusy else s.storeIn w (inBase + o) n := by
  rw [State.writeData, if_neg (by omega), if_pos (inBuf_lt_outBase ho)]

/-- An aligned host write to IN_BUF outside a reset clear: BUSY records it, otherwise it is `storeIn` (R87, R92). -/
theorem step_write_inBuf {s : State} {rest : List Move} {o : Nat} {wd : Width} {w : Word} (hw : s.cfg.wf = true)
    (hr : s.resetting = false) (ho : o < 0x10000) (hal : o % wd.bytes = 0)
    (h : s.agenda = .host (.write (s.cfg.base + (inBase + o)) wd w) :: rest) :
    step s = .next ((if s.busy then (s.withAgenda rest).recordErrBusy
      else (s.withAgenda rest).storeIn w (inBase + o) wd.bytes).respond ⟨false, 0⟩) := by
  rw [step_write_ok hw hr ((inBuf_lt_outBase ho).trans (by decide)) (busError_buffer (.inl rfl) hal) h,
    writeData_inBuf ho]
  rfl

/-- A read after a write to IN_BUF: the byte of the word, little-endian, at each of its addresses below FRAME_MAX, and what
was there at every other address (R82, R86). -/
theorem storeIn_read {s : State} (h : s.mem.wf) (w : Word) (o n x : Nat) :
    (s.storeIn w (inBase + o) n).mem.read x =
      if inBase + o ≤ x ∧ x < inBase + o + n ∧ x < inBase + s.cfg.frameMax then laneOf w (x - (inBase + o))
      else s.mem.read x := by
  rw [State.storeIn, Memory.read_writeBytes h, length_tabulate]
  split
  · rw [getD_tabulate_of_lt _ _ (by omega), if_pos (by omega)]
  · rw [if_neg (by omega)]

/-- Settles O44: the write is `storeIn`, and `storeIn_read` says what each address holds after it. -/
theorem inBufWriteStoresLittleEndian : Obligations.InBufWriteStoresLittleEndian := by
  intro s rest o wd w hw hm hb ho hal ha
  have hr := (idle_of_not_busy hb).2
  have hread := storeIn_read (s := s.withAgenda rest) hm w o wd.bytes
  refine ⟨((s.withAgenda rest).storeIn w (inBase + o) wd.bytes).respond ⟨false, 0⟩, ?_, rfl, storeIn_wf hm w _ _,
    fun k hk hin => ?_, fun x hx => ?_⟩
  · rw [step_write_inBuf hw hr ho hal ha, if_neg (ne_true_of_eq_false hb)]
  · have hfm : o + k < s.cfg.frameMax := hin
    refine (hread (inBase + (o + k))).trans ?_
    rw [if_pos ⟨by omega, by omega, Nat.add_lt_add_left hfm inBase⟩, ← Nat.add_assoc, Nat.add_sub_cancel_left]
    rfl
  · refine (hread x).trans (if_neg fun ⟨h1, h2, h3⟩ => ?_)
    have hfm : x < inBase + (s.cfg.cap + 14) := h3
    exact hx (x - (inBase + o)) (by omega) (by omega) (by show x = inBase + _; omega)

/-! ### Accesses while a command runs -/

theorem busy_of_running {s : State} (h : s.pending ≠ none) : s.busy = true := by
  simp [State.busy, Option.isSome_iff_ne_none.mpr h]

/-- BUSY turns an operand or command write into a record in ERR_BUSY (R36, R92). -/
theorem writeReg_busy {s : State} (hb : s.busy = true) {r : Reg} (hr : r = .cmd ∨ r = .arg0 ∨ r = .arg1) (w : Word) :
    s.writeReg w r = s.recordErrBusy := by
  rcases hr with rfl | rfl | rfl <;> exact if_pos hb

/-- Settles O46: BUSY ignores the operand, command and buffer writes; CTRL and STATUS do not look at it. -/
theorem writesWhileRunning : Obligations.WritesWhileRunning := by
  intro s rest o wd w r hw hp hr
  have hb : (s.withAgenda rest).busy = true := busy_of_running (s := s.withAgenda rest) hp
  have hstep : ∀ r, s.agenda = hostWrite s.cfg r w :: rest →
      step s = .next (((s.withAgenda rest).writeReg w r).respond ⟨false, 0⟩) := fun r ha => by
    rw [step_hostWrite hw ha, if_neg (ne_true_of_eq_false hr)]
  refine ⟨fun hreg ha => ?_, fun ho hal ha => ?_, fun ha hw1 => ?_, fun ha hw1 => ?_,
    (operandAndStatusWrites s rest w hw hr).2.2⟩
  · rw [hstep r ha, writeReg_busy hb hreg]
    rfl
  · rw [step_write_inBuf hw hr ho hal ha, if_pos (busy_of_running hp)]
    rfl
  · rw [hstep _ ha, State.writeReg, State.writeCtrl, if_neg (ne_true_of_eq_false hw1)]
    rfl
  · rw [hstep _ ha, State.writeReg, State.writeCtrl, if_pos hw1]
    rfl

/-- A register read while a command runs answers with `regRunning` and counts a draw (R93). -/
theorem step_hostRead_running {s : State} {rest : List Move} {r : Reg} (hw : s.cfg.wf = true) (hp : s.pending ≠ none)
    (hr : s.resetting = false) (h : s.agenda = hostRead s.cfg r :: rest) :
    step s = .next { s with agenda := rest, resp := some ⟨false, s.regRunning (Config.freeWord s.draws) r⟩,
                            draws := s.draws + 1 } := by
  have hb : (s.withAgenda rest).busy = true := busy_of_running (s := s.withAgenda rest) hp
  have hv : (s.withAgenda rest).readReg (Config.freeWord s.draws) r = s.regRunning (Config.freeWord s.draws) r := by
    rw [State.readReg, State.withAgenda_resetting, if_neg (ne_true_of_eq_false hr), State.withAgenda_pending,
      if_pos (Option.isSome_iff_ne_none.mpr hp)]
    rfl
  rw [step_hostRead hw h, busRead_reg, if_pos hb, State.withAgenda_draws, hv]
  rfl

/-- Byte 1 of a word, as a number. -/
theorem toNat_laneOf_one (w : Word) : (laneOf w 1).toNat = w.toNat / 256 % 256 := by
  rw [laneOf, BitVec.toNat_setWidth, BitVec.toNat_ushiftRight, Nat.shiftRight_eq_div_pow]

/-- STATUS while a command runs: the three exact bits, and the free value's in the others that are not reserved (R93). -/
theorem statusRunning_fields (s : State) (free : Word) :
    let d := s.statusRunning free
    d.getLsbD 0 = true ∧ d.getLsbD 1 = s.done ∧ d.getLsbD 2 = s.errBusy ∧ d.getLsbD 3 = free.getLsbD 3 ∧
      d.getLsbD 4 = free.getLsbD 4 ∧ d.toNat / 256 = free.toNat / 256 % 256 := by
  obtain ⟨h0, h1, h2, h3, h4⟩ := statusBits true s.done s.errBusy (free.getLsbD 3) (free.getLsbD 4) (laneOf free 1)
  exact ⟨h0, h1, h2, h3, h4, (statusByte _ _ _ _ _ _).1.trans (toNat_laneOf_one free)⟩

/-- Settles O52: STATUS by its bits, the other registers by `regRunning`, the buffers lane by lane. -/
theorem readsWhileRunning : Obligations.ReadsWhileRunning := by
  intro s rest r v o wd hs hp
  have hw := hs.cfgOk
  have hr : s.resetting = false := Bool.eq_false_iff.mpr fun h => hp (hs.resettingNotRunning h)
  refine ⟨fun ha => ?_, fun ha hv => ?_, fun ho hal ha => ?_, fun ho hal ha => ?_⟩
  · obtain ⟨h0, h1, h2, h3, h4, hres⟩ := statusRunning_fields s (Config.freeWord s.draws)
    exact ⟨_, step_hostRead_running hw hp hr ha, h0, h1.trans (hs.runningNotDone hp), h2, h3, h4, hres⟩
  · have hval : s.regRunning (Config.freeWord s.draws) r = v := by
      refine (?_ : ∀ x : Reg × Word, x ∈ (_ : List (Reg × Word)) →
        s.regRunning (Config.freeWord s.draws) x.1 = x.2) (r, v) hv
      simp only [List.forall_mem_cons]
      exact ⟨rfl, rfl, rfl, rfl, rfl, rfl, rfl, rfl, rfl, rfl, rfl, rfl, nofun⟩
    rw [step_hostRead_running hw hp hr ha, hval]
  · obtain ⟨d, hstep, hlane, -⟩ := step_read_buffer hw (.inl rfl) ho hal ha
    rw [if_pos (busy_of_running hp)] at hstep
    exact ⟨d, hstep, fun k hk => (hlane k hk).trans (readLane_inBuf hr (aligned_byte_lt ho hal hk) _ k)⟩
  · obtain ⟨d, hstep, hlane, -⟩ := step_read_buffer hw (.inr rfl) ho hal ha
    rw [if_pos (busy_of_running hp)] at hstep
    refine ⟨d, hstep, fun k hk => (hlane k hk).trans ?_⟩
    rw [readLane_outBuf hr, if_pos (Option.isSome_iff_ne_none.mpr hp)]
    rfl

end Sys2Proof.Machine
end

section
/-! PROOFS of 30_encoding.md. The decoder undoes the encoder field by field, in both directions; a poll of STATUS ends
because an engine turn leaves a busy block idle; a failed command has no effect; a decode of consistent columns commits the
messages of the codewords that fit them; and a built frame holds each field where the layout puts it. -/

namespace Sys2Proof.Machine

/-! ### Command words -/

/-- The bound of a well-formed command's slot index (R112). -/
theorem wf_iff_idx_lt {i : Instr} : i.wf = true ↔ i.idx < 65536 := decide_eq_true_iff

theorem decodeWord_encode {i : Instr} (h : i.wf = true) : decodeWord (encode i) = .ok i :=
  decodeWord_fields (wf_iff_idx_lt.mp h) (opcode_lt i) (instrOf_opcodeOf i)

/-- The front of a byte list decodes as the word it holds in bus order (R82). -/
theorem decodeBytes_bytesOfWord {w : Word} {i : Instr} (h : decodeWord w = .ok i) (rest : List Byte) :
    decodeBytes (bytesOfWord w ++ rest) = .ok (i, rest) := by
  rw [bytesOfWord, List.cons_append, List.cons_append, List.cons_append, List.cons_append, List.nil_append, decodeBytes,
    word_bytes, h]

/-- Settles O1: the opcode map inverts `opcodeOf`, and the four bytes of a word are the word again. -/
theorem decodeOfEncodeIsTheCommand : Obligations.DecodeOfEncodeIsTheCommand := fun _ h =>
  ⟨decodeWord_encode h, decodeBytes_bytesOfWord (decodeWord_encode h)⟩

/-- The opcode map gives a command of that opcode and that slot index (R114). -/
theorem opcodeOf_of_instrOf {opc n : Nat} {i : Instr} (h : instrOf opc n = some i) : opcodeOf i = opc ∧ i.idx = n := by
  unfold instrOf at h
  split at h <;> cases h <;> exact ⟨rfl, rfl⟩

/-- A word that decodes has RSV = 0 and the opcode and slot index of its command (R110, R115). -/
theorem fields_of_decodeWord {w : Word} {i : Instr} (h : decodeWord w = .ok i) :
    rsvOf w = 0 ∧ opcodeOf i = opcOf w ∧ i.idx = idxOf w := by
  unfold decodeWord at h
  split at h
  · cases h
  · next hr =>
    split at h
    · next hi =>
      cases h
      exact ⟨not_not.mp hr, opcodeOf_of_instrOf hi⟩
    · cases h

theorem idxOf_lt (w : Word) : idxOf w < 65536 := Nat.div_lt_of_lt_mul w.isLt

/-- A word is its three fields (R110). -/
theorem toNat_eq_fields (w : Word) : w.toNat = idxOf w * 65536 + rsvOf w * 256 + opcOf w := by
  unfold idxOf rsvOf opcOf
  omega

/-- Settles O2: RSV is 0, and the other two fields are the command's. -/
theorem encodeOfDecodeIsTheWord : Obligations.EncodeOfDecodeIsTheWord := by
  intro w i h
  obtain ⟨hrsv, hopc, hidx⟩ := fields_of_decodeWord h
  have hw := toNat_eq_fields w
  rw [hrsv, Nat.zero_mul, Nat.add_zero] at hw
  refine ⟨wf_iff_idx_lt.mpr (hidx ▸ idxOf_lt w), ?_⟩
  rw [encode, hidx, hopc, ← hw, BitVec.ofNat_toNat, BitVec.setWidth_eq]

/-- Settles O3: each word is evaluated. -/
theorem sampleWordsDecode : Obligations.SampleWordsDecode := ⟨rfl, rfl, rfl, rfl, rfl, rfl⟩

/-! ### The engine's turn -/

/-- An illegal word is executed by `execIllegal` (R115, R158). -/
theorem engineStep_illegal {s : State} {w : Word} {e : DecodeError} (hr : s.resetting = false) (hp : s.pending = some w)
    (he : decodeWord w = .error e) : engineStep s = execIllegal s := by
  simp only [engineStep, hr, hp, he, Bool.false_eq_true, if_false]

theorem engineStep_legal {s : State} {w : Word} {i : Instr} (hr : s.resetting = false) (hp : s.pending = some w)
    (hi : decodeWord w = .ok i) : engineStep s = exec i s := by
  simp only [engineStep, hr, hp, hi, Bool.false_eq_true, if_false]

theorem engineStep_resetting {s : State} (hr : s.resetting = true) : engineStep s = .next s.finishReset := if_pos hr

/-- Settles O10: a failure is a completion of the unchanged state, and an illegal word is a failure. -/
theorem failedCommandChangesNothing : Obligations.FailedCommandChangesNothing := by
  refine ⟨fun i s t h hne => ?_, fun s w rest hw hr hp ⟨e, he⟩ ha => ?_⟩
  · rcases exec_next h with ⟨c, n, rfl⟩ | ⟨s', -, rfl⟩
    · rfl
    · exact absurd rfl hne
  · rw [step_engine hw (.inr ha), engineStep_illegal (s := s.withAgenda rest) hr hp he]
    rfl

/-- Every command reaches its completion (R155). -/
theorem exec_completes (i : Instr) (s : State) : ∃ t, exec i s = .next t ∧ t.done = true ∧ t.pending = none := by
  rcases exec_cases i s with ⟨c, _, _, h | h⟩ | ⟨s', _, h⟩ <;> exact ⟨_, h, rfl, rfl⟩

/-- A turn of the engine ends a reset clear or a command, and takes no turn of another agent (R156, R303). -/
theorem engineStep_of_busy {s : State} (hb : s.busy = true) :
    ∃ t, engineStep s = .next t ∧ t.busy = false ∧ t.agenda = s.agenda := by
  cases hr : s.resetting with
  | true => exact ⟨_, engineStep_resetting hr, rfl, rfl⟩
  | false =>
    have hidle : ∀ t : State, t.pending = none → t.resetting = s.resetting → t.busy = false := fun t hp ht => by
      rw [State.busy, hp, ht, hr]
      rfl
    obtain ⟨w, hp⟩ := Option.ne_none_iff_exists'.mp (pending_of_busy hb hr)
    cases hi : decodeWord w with
    | error e => exact ⟨_, engineStep_illegal hr hp hi, hidle _ rfl rfl, rfl⟩
    | ok i =>
      obtain ⟨t, ht, -, hnone⟩ := exec_completes i s
      have hframe := (commandsKeepTheHostsSide i s t ht).1
      exact ⟨t, (engineStep_legal hr hp hi).trans ht, hidle t hnone (congrArg State.resetting hframe :),
        (congrArg State.agenda hframe :)⟩

/-! ### The poll of STATUS -/

/-- With nothing running a register reads as what it holds (R33). -/
theorem readReg_idle {s : State} (hb : s.busy = false) (free : Word) (r : Reg) : s.readReg free r = s.regValue r := by
  obtain ⟨hp, hr⟩ := idle_of_not_busy hb
  rw [State.readReg, if_neg (ne_true_of_eq_false hr), hp]
  rfl

/-- A poll that reads BUSY as 0 is over (R117). -/
theorem step_wait_idle {s : State} {rest : List Move} (hw : s.cfg.wf = true) (hb : s.busy = false)
    (h : s.agenda = .wait :: rest) :
    step s = .next { s with agenda := rest, resp := some ⟨false, s.status⟩ } := by
  rw [step_turn hw h (by simp), takeTurn, pollStatus, busRead_reg, if_neg (ne_true_of_eq_false hb),
    if_neg (ne_true_of_eq_false hb), readReg_idle hb]
  rfl

/-- A poll that reads BUSY as 1 leaves the next turn to the engine and then polls again (R117, log 12). -/
theorem step_wait_busy {s : State} {rest : List Move} (hw : s.cfg.wf = true) (hb : s.busy = true)
    (h : s.agenda = .wait :: rest) :
    ∃ r d, step s = .next { s with agenda := .engine :: .wait :: rest, resp := some r, draws := d } := by
  obtain ⟨r, d, hread⟩ := busRead_eq Reg.status.offset .w4 s
  refine ⟨r, d, ?_⟩
  rw [step_turn hw h (by simp), takeTurn, pollStatus, hread, if_pos hb]
  rfl

/-- Bit 0 of STATUS is BUSY (R33, R38). -/
theorem status_bit0 (s : State) : s.status.getLsbD 0 = s.busy := (statusBits _ _ _ _ _ _).1

/-- Settles O9: a poll of an idle block is over, and a busy block is idle after the engine's turn. -/
theorem pollingLoopEnds : Obligations.PollingLoopEnds := by
  refine fun s rest hw ha => ⟨fun hb => ⟨_, _, step_wait_idle hw hb ha, rfl, (status_bit0 s).trans hb⟩, fun hb => ?_⟩
  obtain ⟨r, d, hu⟩ := step_wait_busy hw hb ha
  obtain ⟨v, hv, hvb, hva⟩ :=
    engineStep_of_busy (s := { s with agenda := .wait :: rest, resp := some r, draws := d }) hb
  have hstep := (step_engine (s := { s with agenda := .engine :: .wait :: rest, resp := some r, draws := d }) hw
    (.inr rfl)).trans hv
  have hvw : v.cfg.wf = true := (step_cfg hstep).symm ▸ hw
  exact ⟨_, v, _, _, hu, hstep, step_wait_idle hvw hvb hva, hvb, rfl, (status_bit0 v).trans hvb⟩

/-! ### DEC_DECODE of consistent columns -/

/-- DEC_DECODE of consistent columns: every column becomes the message of a codeword that fits it (R200, R202). -/
theorem execDecDecode_of_consistent {s : State} (hc : s.dec.canDecode s.cfg = true) (h : s.dec.Consistent s.cfg)
    (idx : Nat) : ∃ new : Nat → Nat → Byte, exec (.decDecode idx) s = succeed (s.decodeTo new) ∧
      ∀ p < s.dec.mpl, ∃ msg, FitsMessage s.cfg (s.dec.column s.cfg p) (s.dec.erasures s.cfg) msg ∧
        ∀ i < s.cfg.k, new i p = msg.getD i 0 := by
  obtain ⟨cws, hcols, hfits⟩ := decodeColumns_of_consistent hc h
  refine ⟨fun i p => (cws.getD p []).getD i 0, ?_, fun p hp => ?_⟩
  · rw [exec, execDecDecode, if_neg (by simp [hc]), hcols]
  · obtain ⟨msg, hm, hcw⟩ := hfits p hp
    exact ⟨msg, hm, fun i hi =>
      (congrArg (·.getD i 0) hcw).trans (codewordOf_getD_data _ (hm.1.symm ▸ hi))⟩

/-- Settles O28: the staged bytes are messages that fit, and on a received slot such a message has the slot's bytes. -/
theorem decodeOfConsistentColumnsSucceeds : Obligations.DecodeOfConsistentColumnsSucceeds := by
  refine ⟨fun n hn => decodeWord_fields hn (by decide) rfl, fun idx s hcap hc hcons => ?_⟩
  obtain ⟨new, hexec, hnew⟩ := execDecDecode_of_consistent hc hcons idx
  have hslot := fun i (hi : i < s.cfg.k) => commitData_slot s.cfg s.dec new hi
  refine ⟨(s.decodeTo new).complete .ok, hexec, ?_, rfl, fun p hp => ?_, fun i hi => ?_⟩
  · rw [← missing_eq]
    rfl
  · obtain ⟨msg, hm, hbytes⟩ := hnew p hp
    exact ⟨msg, hm, fun i hi => ((hslot i hi).2.2 p (hp.trans_le hcap)).trans ((if_pos hp).trans (hbytes i hi))⟩
  · obtain ⟨hlen, hrx, hbyte⟩ := hslot i hi
    refine ⟨hrx, hlen, fun p hp hkeep => (hbyte p hp).trans ?_⟩
    by_cases hpm : p < s.dec.mpl
    · obtain ⟨msg, hm, hbytes⟩ := hnew p hpm
      have hreceived := hkeep.resolve_left (Nat.not_le.mpr hpm)
      rw [if_pos hpm, hbytes i hi, ← codewordOf_getD_data s.cfg (hm.1.symm ▸ hi), fits_received_byte hi hreceived hm]
    · exact if_neg hpm

/-! ### The layout of a frame -/

/-- A 16-bit field, where a frame has it after `n` bytes (R15). -/
theorem rdBe16_of_split {f a b : List Byte} {v : Half} {n : Nat} (h : f = a ++ (be16 v ++ b)) (hn : a.length = n) :
    rdBe16 f n = v.toNat := by
  rw [h, ← hn, rdBe16_at]

/-- A 32-bit field, where a frame has it after `n` bytes (R15). -/
theorem rdBe32_of_split {f a b : List Byte} {v : Word} {n : Nat} (h : f = a ++ (be32 v ++ b)) (hn : a.length = n) :
    rdBe32 f n = v.toNat := by
  rw [h, ← hn, rdBe32_at]

/-- A number of two bytes is its own 16-bit field. -/
theorem toNat_half {n : Nat} (h : n < 65536) : (BitVec.ofNat 16 n).toNat = n := Nat.mod_eq_of_lt h

/-- The five header fields of a body, whatever follows it (R130). -/
theorem frameBody_header (c : Config) (w : Word) {idx : Nat} (payload rest : List Byte) (hi : idx < 65536)
    (hm : c.m < 65536) (hk : c.k < 65536) :
    let f := frameBody c w idx payload ++ rest
    rdBe16 f 0 = c.parityMagic.toNat ∧ rdBe32 f 2 = w.toNat ∧ rdBe16 f 6 = idx ∧ rdBe16 f 8 = c.m ∧
      rdBe16 f 10 = c.k := by
  intro f
  have hf : f = be16 c.parityMagic ++ (be32 w ++ (be16 (BitVec.ofNat 16 idx) ++ (be16 (BitVec.ofNat 16 c.m) ++
      (be16 (BitVec.ofNat 16 c.k) ++ (payload ++ rest))))) := by
    simp only [f, frameBody, List.append_assoc]
  refine ⟨rdBe16_of_split (a := []) hf rfl, rdBe32_of_split hf rfl, ?_, ?_, ?_⟩
  · exact (rdBe16_of_split (a := be16 _ ++ be32 _) (by rw [hf, List.append_assoc]) rfl).trans (toNat_half hi)
  · exact (rdBe16_of_split (a := be16 _ ++ (be32 _ ++ be16 _)) (by rw [hf, List.append_assoc, List.append_assoc])
      rfl).trans (toNat_half hm)
  · exact (rdBe16_of_split (a := be16 _ ++ (be32 _ ++ (be16 _ ++ be16 _)))
      (by rw [hf, List.append_assoc, List.append_assoc, List.append_assoc]) rfl).trans (toNat_half hk)

/-- The payload follows the header of 12 bytes (R130). -/
theorem frameBody_payload (c : Config) (w : Word) (idx : Nat) (payload rest : List Byte) {p : Nat}
    (hp : p < payload.length) : (frameBody c w idx payload ++ rest).getD (hdrLen + p) 0 = payload.getD p 0 := by
  rw [frameBody, List.append_assoc _ payload]
  exact (getD_append_right _ (payload ++ rest) 0 p).trans (getD_append_left _ _ _ hp)

/-- The last two bytes of a sealed frame are the checksum of the rest (R221). -/
theorem sealFrame_checksum (c : Config) {body : List Byte} {n : Nat} (h : body.length = n) :
    rdBe16 (sealFrame c body) n = (crc16 c.crcInit ((sealFrame c body).take n)).toNat := by
  rw [sealFrame, List.take_left' h]
  exact rdBe16_of_split (b := []) (by rw [List.append_nil]) h

/-- Settles O33: the header and the payload are the body's, and the checksum seals it. -/
theorem builtFrameHasTheWireLayout : Obligations.BuiltFrameHasTheWireLayout := by
  intro c w idx payload hw hi
  obtain ⟨-, hk, hm, -⟩ := wf_frameMax hw
  obtain ⟨hmagic, htotal, hidx, hfm, hfk⟩ := frameBody_header c w payload
    (be16 (crc16 c.crcInit (frameBody c w idx payload))) (show idx < 65536 by omega) (by omega) (by omega)
  exact ⟨length_buildFrame c w idx payload, hmagic, htotal, hidx, hfm, hfk, fun p => frameBody_payload c w idx payload _,
    sealFrame_checksum c (length_frameBody c w idx payload)⟩

end Sys2Proof.Machine
end

section
/-! PROOFS of 40_command.md. A word written to CMD is accepted or recorded in ERR_BUSY, by whether BUSY is set; an
accepted word is executed by the engine's next turn, which completes it whether it is legal or not; and a reset abandons
it, with every write of the host ignored until the clear is over. -/

namespace Sys2Proof.Machine

/-! ### Acceptance and execution -/

/-- Settles O4: BUSY decides between acceptance and ERR_BUSY, and outside a reset clear BUSY is a pending command. -/
theorem commandWriteIsAcceptedOrRecorded : Obligations.CommandWriteIsAcceptedOrRecorded := by
  refine fun s w rest hw hr ha => ⟨fun hp => ?_, fun hp => ?_⟩
  · have hb : (s.withAgenda rest).busy = false := by simp [State.busy, hp, hr]
    rw [step_hostWrite hw ha, if_neg (ne_true_of_eq_false hr), State.writeReg, if_neg (ne_true_of_eq_false hb)]
    rfl
  · exact (writesWhileRunning s rest 0 .w4 w .cmd hw hp hr).1 (.inl rfl) ha

/-- Settles O5: a listed turn and an empty agenda are both the engine's, whose turn executes a legal pending word. -/
theorem stepExecutesTheDecodedCommand : Obligations.StepExecutesTheDecodedCommand := by
  intro s w i rest hw hr hp hi
  have hturn : ∀ rest, EngineTurn s rest → step s = exec i (s.withAgenda rest) := fun rest h =>
    (step_engine hw h).trans (engineStep_legal (s := s.withAgenda rest) hr hp hi)
  refine ⟨fun ha => ?_, fun ha => hturn rest (.inr ha)⟩
  rw [hturn [] (.inl ⟨ha, rfl⟩), ← ha, withAgenda_self]

/-- A word accepted while nothing runs, whose execution only completes with the result `c`: the write sets BUSY and
clears DONE, and the engine's turn after it leaves nothing changed but CMD, RESULT and DONE (R150, R154). -/
theorem step_accept_complete {s : State} {w : Word} {rest : List Move} {c : ResultCode} (hw : s.cfg.wf = true)
    (hp : s.pending = none) (hr : s.resetting = false) (ha : s.agenda = hostWrite s.cfg .cmd w :: .engine :: rest)
    (hexec : ∀ u : State, u.resetting = false → u.pending = some w → engineStep u = .next (u.complete c)) :
    ∃ t, step s = .next t ∧ t.busy = true ∧ t.done = false ∧ t.cmd = w ∧
      step t = .next { s with agenda := rest, cmd := w, result := c, done := true, resp := some ⟨false, 0⟩ } := by
  refine ⟨_, (commandWriteIsAcceptedOrRecorded s w _ hw hr ha).1 hp, rfl, rfl, rfl, ?_⟩
  refine (step_engine (rest := rest) ?_ (.inr rfl)).trans ((hexec _ ?_ rfl).trans ?_)
  · exact hw
  · exact hr
  · rw [hp]
    rfl

/-! ### Illegal words and NOP -/

/-- The fourteen opcodes of R114. -/
theorem opcodeOf_mem (i : Instr) :
    opcodeOf i ∈ [0x00, 0x01, 0x02, 0x03, 0x04, 0x10, 0x11, 0x12, 0x13, 0x14, 0x15, 0x16, 0x17, 0x20] := by
  cases i <;> simp [opcodeOf]

/-- R115's illegal words are words the decoder rejects. -/
theorem decodeWord_illegal {w : Word} (h : w.toNat / 256 % 256 ≠ 0 ∨
    w.toNat % 256 ∉ [0x00, 0x01, 0x02, 0x03, 0x04, 0x10, 0x11, 0x12, 0x13, 0x14, 0x15, 0x16, 0x17, 0x20]) :
    ∃ e, decodeWord w = .error e := by
  cases hd : decodeWord w with
  | error e => exact ⟨e, rfl⟩
  | ok i =>
    obtain ⟨hrsv, hopc, -⟩ := fields_of_decodeWord hd
    rcases h with h | h
    · exact absurd hrsv h
    · have hmem := opcodeOf_mem i
      rw [hopc] at hmem
      exact absurd hmem h

/-- Settles O6: the decoder rejects the word, so the engine's turn only completes it with ERR_ILLEGAL_CMD. -/
theorem illegalWordCompletesWithErrIllegalCmd : Obligations.IllegalWordCompletesWithErrIllegalCmd := by
  intro s w rest hw hp hr hill ha
  obtain ⟨e, he⟩ := decodeWord_illegal hill
  exact step_accept_complete hw hp hr ha fun u hur hup => engineStep_illegal hur hup he

/-- A word whose low half is 0 is a NOP, whatever its IDX (R114). -/
theorem decodeWord_nop {w : Word} (h : w.toNat % 65536 = 0) : decodeWord w = .ok (.nop (idxOf w)) := by
  have hrsv : rsvOf w = 0 := by unfold rsvOf; omega
  have hopc : opcOf w = 0 := by unfold opcOf; omega
  rw [decodeWord, hrsv, if_neg (not_not.mpr rfl), hopc]
  rfl

theorem exec_nop (idx : Nat) (s : State) : exec (.nop idx) s = .next (s.complete .ok) := rfl

/-- Settles O7: NOP only completes with OK, and so does the engine's turn on a word that is a NOP. -/
theorem nopCompletesAndChangesNothingElse : Obligations.NopCompletesAndChangesNothingElse := by
  refine ⟨fun n hn => decodeWord_fields hn (by decide) rfl, exec_nop, fun s w rest hw hp hr hlow ha => ?_⟩
  exact step_accept_complete hw hp hr ha fun u hur hup =>
    (engineStep_legal hur hup (decodeWord_nop hlow)).trans (exec_nop _ u)

/-! ### Completion -/

/-- The engine's turn on a pending word sets DONE, legal word or not (R154, R158). -/
theorem done_of_engineStep {s t : State} (hr : s.resetting = false) (hp : s.pending ≠ none)
    (h : engineStep s = .next t) : t.done = true := by
  rcases engineStep_cases h with ⟨hr', _⟩ | ⟨_, hp', _⟩ | ⟨_, _, rfl⟩ | ⟨_, w, i, _, _, hx⟩
  · exact absurd hr' (ne_true_of_eq_false hr)
  · exact absurd hp' hp
  · rfl
  · obtain ⟨u, hu, hdone, -⟩ := exec_completes i s
    cases hu.symm.trans hx
    exact hdone

/-- Settles O8: by `exec_completes`, and since the engine's turn on a busy block ends what runs. -/
theorem everyAcceptedCommandCompletes : Obligations.EveryAcceptedCommandCompletes := by
  refine ⟨exec_completes, fun s w rest hw hr hp ha => ?_⟩
  have hp' : (s.withAgenda rest).pending ≠ none := by simp [hp]
  obtain ⟨t, ht, hb, hta⟩ := engineStep_of_busy (busy_of_running hp')
  exact ⟨t, (step_engine hw (.inr ha)).trans ht, done_of_engineStep (s := s.withAgenda rest) hr hp' ht,
    (idle_of_not_busy hb).1, hb, hta⟩

/-! ### The reset clear -/

/-- During a reset clear a host write inside the block changes only the bus response (R85, R302). -/
theorem step_write_resetting {s : State} {rest : List Move} {off : Nat} {wd : Width} {w : Word} (hw : s.cfg.wf = true)
    (hr : s.resetting = true) (ho : off < 0x40000)
    (h : s.agenda = .host (.write (s.cfg.base + off) wd w) :: rest) :
    step s = .next { s with agenda := rest, resp := some ⟨busError off wd, 0⟩ } := by
  rw [step_write hw ho h, busWrite, State.withAgenda_resetting, if_pos hr]
  cases busError off wd <;> rfl

/-- During a reset clear a register read answers with `regResetting` and counts a draw (R302). -/
theorem step_hostRead_resetting {s : State} {rest : List Move} {r : Reg} (hw : s.cfg.wf = true)
    (hr : s.resetting = true) (h : s.agenda = hostRead s.cfg r :: rest) :
    step s = .next { s with agenda := rest, resp := some ⟨false, s.regResetting (Config.freeWord s.draws) r⟩,
                            draws := s.draws + 1 } := by
  have hb : (s.withAgenda rest).busy = true := by simp [State.busy, hr]
  have hv : (s.withAgenda rest).readReg (Config.freeWord s.draws) r = s.regResetting (Config.freeWord s.draws) r := by
    rw [State.readReg, State.withAgenda_resetting, if_pos hr]
    cases r <;> rfl
  rw [step_hostRead hw h, busRead_reg, if_pos hb, State.withAgenda_draws, hv]
  rfl

/-- STATUS during a reset clear: BUSY reads 1 whatever the free bits are (R302). -/
theorem regResetting_status_bit0 (s : State) (free : Word) : (s.regResetting free .status).getLsbD 0 = true := by
  simp [State.regResetting]

/-- Settles O55: the pin's turn is `startReset`, and the bus of a reset clear drops writes and reads STATUS as busy. -/
theorem resetClearIgnoresWrites : Obligations.ResetClearIgnoresWrites := by
  refine ⟨fun s rest hw ha => step_turn hw ha (by simp), fun s rest off wd w hw hr => ?_⟩
  refine ⟨?_, fun ho ha => ?_, fun ha => ?_⟩
  · simp [State.irq, hr]
  · exact ⟨_, step_write_resetting hw hr ho ha⟩
  · exact ⟨_, _, step_hostRead_resetting hw hr ha, regResetting_status_bit0 s _⟩

end Sys2Proof.Machine
end

section
/-! PROOFS of 41_encoder.md. Each encoder command is its one equation of Laws/Exec.lean, read slot by slot. Recovery rests
on three facts: while READY is 1 the slots hold, in every column and past MPL too, the codeword of the data column; so that
column fits whatever the decoder has received of it; and by the code's distance no other message does. -/

namespace Sys2Proof.Machine

/-! ### ENC_BEGIN and ENC_ADD_DATA -/

theorem exec_encBegin (idx : Nat) (s : State) :
    exec (.encBegin idx) s = succeed (s.withEnc (beginEncoder s.cfg s.arg0)) := rfl

/-- Settles O15: the encoder becomes `beginEncoder`, which depends on what the command keeps only. -/
theorem encBeginClearsTheEncoder : Obligations.EncBeginClearsTheEncoder :=
  ⟨fun _ hn => decodeWord_fields hn (by decide) rfl, fun idx s =>
    ⟨_, exec_encBegin idx s, rfl, rfl, rfl, rfl, beginEncoder_shaped _ _, beginEncoder_dataLen _ _,
      beginEncoder_dataByte _ _, beginEncoder_parityByte _ _, fun idx' => exec_encBegin idx' _⟩⟩

/-- Settles O16: the payload form rejects on the three bounds, and otherwise replaces one slot. -/
theorem encAddDataStoresOrRejects : Obligations.EncAddDataStoresOrRejects := by
  refine ⟨fun n hn => decodeWord_fields hn (by decide) rfl, fun idx s hshape =>
    ⟨execEncAddData_reject, fun hidx hlen hrange => ?_⟩⟩
  have hslot : idx < s.enc.data.length := (Encoder.shaped_iff.mp hshape).1.symm ▸ hidx
  refine ⟨_, execEncAddData_store hidx hlen hrange, rfl, rfl, ?_, fun p hp => ?_, fun i hi => ⟨?_, fun p => ?_⟩⟩
  · exact (addData_dataLen _ _ _ _ _ hslot).trans (if_pos rfl)
  · refine (addData_dataByte _ _ _ _ _ _ hslot).trans ?_
    rw [if_pos rfl, getD_slotImage]
    simp only [hp, true_and]
    rfl
  · exact (addData_dataLen _ _ _ _ _ hslot).trans (if_neg hi)
  · exact (addData_dataByte _ _ _ _ _ _ hslot).trans (if_neg hi)

/-! ### ENC_COMPUTE_PARITY -/

/-- A list with the entries of column `p` is that column (R174). -/
theorem eq_column {c : Config} {e : Encoder} {p : Nat} {col : List Byte} (hl : col.length = c.k)
    (h : ∀ i < c.k, col.getD i 0 = if p < e.dataLen i then e.dataByte i p else 0) : col = e.column c p :=
  ext_getD 0 (hl.trans (length_column c e p).symm) fun i hi =>
    (h i (hl ▸ hi)).trans (getD_column c e p (hl ▸ hi)).symm

/-- Settles O17: the committed parity is that of the data columns, below MPL and nowhere else. -/
theorem encComputeParityEncodesEveryColumn : Obligations.EncComputeParityEncodesEveryColumn := by
  refine ⟨fun n hn => decodeWord_fields hn (by decide) rfl, fun idx s =>
    ⟨_, execEncComputeParity_eq idx s, rfl, rfl, fun j hj p hp hmpl => ?_, fun p hp hmpl col hl hcol => ?_⟩⟩
  · exact (commitParity_parityByte _ _ hj hp).trans (if_neg (Nat.not_lt.mpr hmpl))
  · rw [eq_column hl hcol]
    exact ⟨_, rsEnc_of_length _ (length_column _ _ _), fun j hj =>
      (commitParity_parityByte _ _ hj hp).trans (if_pos hmpl)⟩

/-- A computed parity byte below MPL is a symbol of its column's codeword (R174). -/
theorem parityByte_of_computed {idx : Nat} {s t : State} (h : exec (.encComputeParity idx) s = .next t) {j p : Nat}
    (hj : j < s.cfg.m) (hp : p < s.cfg.cap) (hmpl : p < s.enc.mpl) :
    t.enc.parityByte j p = (codewordOf s.cfg (s.enc.column s.cfg p)).getD (s.cfg.k + j) 0 := by
  cases (execEncComputeParity_eq idx s).symm.trans h
  exact (commitParity_parityByte _ _ hj hp).trans (if_pos hmpl)

/-- Settles O19: equal columns have equal codewords. -/
theorem parityLanesAreIndependent : Obligations.ParityLanesAreIndependent := by
  intro idx p s s' t t' hcfg hp hmpl hmpl' hcol h h' j hj
  have hcolumn : s'.enc.column s'.cfg p = s.enc.column s.cfg p := by
    rw [hcfg]
    exact tabulate_congr fun i hi => (hcol i hi).symm
  rw [parityByte_of_computed h hj hp hmpl, parityByte_of_computed h' (hcfg ▸ hj) (hcfg ▸ hp) hmpl', hcolumn, hcfg]

/-! ### ENC_GET_PARITY -/

theorem exec_encGetParity_notReady {idx : Nat} {s : State} (hr : s.enc.ready = false) :
    exec (.encGetParity idx) s = fail .errNotReady s := if_pos hr

theorem exec_encGetParity_bounds {idx : Nat} {s : State} (hr : s.enc.ready = true) (hi : s.cfg.m ≤ idx) :
    exec (.encGetParity idx) s = fail .errBounds s := (if_neg (by simp [hr])).trans (if_pos hi)

/-- A list with the first MPL bytes of a parity slot is its payload (R176). -/
theorem eq_parityPayload {e : Encoder} {j : Nat} {payload : List Byte} (hl : payload.length = e.mpl)
    (h : ∀ p < e.mpl, payload.getD p 0 = e.parityByte j p) : payload = e.parityPayload j :=
  ext_getD 0 (hl.trans (length_parityPayload e j).symm) fun p hp =>
    (h p (hl ▸ hp)).trans (getD_tabulate_of_lt _ _ (hl ▸ hp)).symm

/-- The frame of ENC_GET_PARITY (R176), irreducible so that no check ever evaluates it. -/
@[irreducible] def State.parityFrame (s : State) (idx : Nat) : List Byte :=
  buildFrame s.cfg s.enc.totalLen idx (s.enc.parityPayload idx)

theorem length_parityFrame (s : State) (idx : Nat) : (s.parityFrame idx).length = 14 + s.enc.mpl := by
  rw [State.parityFrame, length_buildFrame, length_parityPayload]
  rfl

theorem parityFrame_congr {s t : State} (hcfg : t.cfg = s.cfg) (henc : t.enc = s.enc) (idx : Nat) :
    t.parityFrame idx = s.parityFrame idx := by
  rw [State.parityFrame, State.parityFrame, hcfg, henc]

/-- Stated over variables, so that no check unfolds the values written. -/
theorem succeed_writeOut_withRes0 (f : List Byte) (v : Word) (s : State) : succeed ((s.writeOut f).withRes0 v) =
    .next { s with mem := s.mem.writeBytes outBase f, res0 := v, result := .ok, done := true, pending := none } := rfl

/-- ENC_GET_PARITY where it succeeds, as one update (R176). -/
theorem exec_encGetParity_ok {idx : Nat} {s : State} (hr : s.enc.ready = true) (hi : idx < s.cfg.m) :
    exec (.encGetParity idx) s =
      .next { s with mem := s.mem.writeBytes outBase (s.parityFrame idx), res0 := BitVec.ofNat 32 (14 + s.enc.mpl),
                     result := .ok, done := true, pending := none } := by
  rw [execEncGetParity_ok hr hi, ← State.parityFrame]
  exact succeed_writeOut_withRes0 _ _ s

/-- A read inside the written range. -/
theorem Memory.read_writeBytes_inside {m : Memory} (h : m.wf) (a : Nat) {bs : List Byte} {o : Nat} (ho : o < bs.length) :
    (m.writeBytes a bs).read (a + o) = bs.getD o 0 := by
  rw [Memory.read_writeBytes h, if_pos ⟨Nat.le_add_right _ _, Nat.add_lt_add_left ho _⟩, Nat.add_sub_cancel_left]

/-- Writing the same bytes again leaves every address as it was. -/
theorem Memory.read_writeBytes_again {m : Memory} (h : m.wf) (a : Nat) (bs : List Byte) (x : Nat) :
    ((m.writeBytes a bs).writeBytes a bs).read x = (m.writeBytes a bs).read x := by
  rw [Memory.read_writeBytes (Memory.writeBytes_wf h a bs), Memory.read_writeBytes h]
  split <;> rfl

/-- Settles O18: the checks in order, then a write of 14 + MPL bytes to OUT_BUF. -/
theorem encGetParityWritesTheFrame : Obligations.EncGetParityWritesTheFrame := by
  refine ⟨fun n hn => decodeWord_fields hn (by decide) rfl, fun idx s hwf =>
    ⟨exec_encGetParity_notReady, exec_encGetParity_bounds, fun hr hi payload hl hbytes => ?_⟩⟩
  have hlen := length_parityFrame s idx
  rw [eq_parityPayload hl hbytes, ← State.parityFrame]
  refine ⟨_, exec_encGetParity_ok hr hi, rfl, fun o ho => ?_, fun a ha => ?_⟩
  · exact Memory.read_writeBytes_inside hwf outBase (hlen.symm ▸ ho)
  · exact Memory.read_writeBytes_of_outside s.mem _ (hlen.symm ▸ ha)

/-- A command that completes with OK has had its effect (R154, R272). -/
theorem effect_of_exec_ok {i : Instr} {s t : State} (h : exec i s = .next t) (hok : t.result = .ok) :
    ∃ s', Effect i s s' ∧ t = s'.complete .ok := by
  rcases exec_cases i s with ⟨c, -, hc, he | he⟩ | ⟨s', hs', he⟩ <;> cases he.symm.trans h
  · exact absurd hok hc
  · exact absurd hok hc
  · exact ⟨s', hs', rfl⟩

/-- ENC_GET_PARITY completes with OK only where it has passed both checks (R176). -/
theorem checked_of_encGetParity_ok {idx : Nat} {s t : State} (h : exec (.encGetParity idx) s = .next t)
    (hok : t.result = .ok) : s.enc.ready = true ∧ idx < s.cfg.m := by
  obtain ⟨s', he, -⟩ := effect_of_exec_ok h hok
  cases he with
  | encGetParity _ _ hr hi => exact ⟨hr, hi⟩
  | count _ _ _ hc => simp at hc

/-- Settles O20: the first command keeps all that the frame is built from, so the second writes the same frame. -/
theorem encGetParityIsRepeatable : Obligations.EncGetParityIsRepeatable := by
  intro idx s t hwf h hok
  obtain ⟨hr, hi⟩ := checked_of_encGetParity_ok h hok
  have ht := Host.Outcome.next.inj (h.symm.trans (exec_encGetParity_ok hr hi))
  have hcfg : t.cfg = s.cfg := by rw [ht]
  have henc : t.enc = s.enc := by rw [ht]
  have hmem : t.mem = s.mem.writeBytes outBase (s.parityFrame idx) := by rw [ht]
  have hres : t.res0 = BitVec.ofNat 32 (14 + s.enc.mpl) := by rw [ht]
  refine ⟨_, exec_encGetParity_ok (henc ▸ hr) (hcfg ▸ hi), rfl, ?_, fun a => ?_⟩
  · rw [hres, henc]
  · rw [parityFrame_congr hcfg henc, hmem]
    exact Memory.read_writeBytes_again hwf _ _ a

/-! ### The erasure set of a decoder -/

theorem erasures_lt {c : Config} {d : Decoder} : ∀ t ∈ d.erasures c, t < c.k + c.m := by
  intro t ht
  rcases mem_erasures.mp ht with ⟨ht, -⟩ | ⟨j, hj, rfl, -⟩ <;> omega

/-- The positions of the slots not received are distinct (R201). -/
theorem nodup_erasures (c : Config) (d : Decoder) : (d.erasures c).Nodup := by
  refine List.Nodup.append (List.nodup_range.filter _)
    ((List.nodup_range.filter _).map (add_right_injective c.k)) fun t hdata hparity => ?_
  obtain ⟨j, -, rfl⟩ := List.mem_map.mp hparity
  have hlt := List.mem_range.mp (List.mem_filter.mp hdata).1
  omega

/-- The erasures are the data slots and the parity slots not received (R201). -/
theorem length_erasures_eq_filters (c : Config) (d : Decoder) : (d.erasures c).length =
    ((List.range c.k).filter fun i => d.dataRx i = false).length +
      ((List.range c.m).filter fun j => d.parityRx j = false).length := by
  simp [Decoder.erasures]

/-- A position that is not erased is a received data slot or a received parity slot (R201). -/
theorem received_of_not_erased {c : Config} {d : Decoder} {t : Nat} (ht : t < c.k + c.m) (hE : t ∉ d.erasures c) :
    (t < c.k ∧ d.dataRx t = true) ∨ ∃ j < c.m, t = c.k + j ∧ d.parityRx j = true := by
  rw [mem_erasures, not_or] at hE
  obtain ⟨hdata, hparity⟩ := hE
  by_cases htk : t < c.k
  · exact .inl ⟨htk, by simpa [htk] using hdata⟩
  · refine .inr ⟨t - c.k, by omega, by omega, ?_⟩
    by_contra hr
    exact hparity ⟨t - c.k, by omega, by omega, by simpa using hr⟩

/-! ### Recovery -/

/-- The zero-padded columns hold the data slots' bytes (R43). -/
theorem Encoder.Inv.column_data {c : Config} {e : Encoder} (h : e.Inv c) {i : Nat} (hi : i < c.k) (p : Nat) :
    (e.column c p).getD i 0 = e.dataByte i p := by
  rw [getD_column c e p hi]
  split
  · rfl
  · exact (h.dataPad i p (by omega)).symm

/-- Past MPL every data slot is 0 (R43). -/
theorem Encoder.Inv.dataByte_of_mpl_le {c : Config} {e : Encoder} (h : e.Inv c) (i : Nat) {p : Nat} (hp : e.mpl ≤ p) :
    e.dataByte i p = 0 := h.dataPad i p ((h.lenLeMpl i).trans hp)

/-- Past MPL a column is the zero message (R43). -/
theorem Encoder.Inv.column_of_mpl_le {c : Config} {e : Encoder} (h : e.Inv c) {p : Nat} (hp : e.mpl ≤ p) :
    e.column c p = List.replicate c.k 0 := by
  rw [← tabulate_const]
  exact tabulate_congr fun i _ => if_neg (Nat.not_lt.mpr ((h.lenLeMpl i).trans hp))

/-- While READY is 1 the parity slots hold the codewords of all columns, the zero ones past MPL included (R43, R178). -/
theorem Encoder.Inv.parityByte_eq {c : Config} {e : Encoder} (h : e.Inv c) (hr : e.ready = true) {j : Nat} (hj : j < c.m)
    (p : Nat) : e.parityByte j p = (codewordOf c (e.column c p)).getD (c.k + j) 0 := by
  by_cases hp : p < e.mpl
  · exact h.parityCoded hr j hj p hp
  · have hp : e.mpl ≤ p := Nat.not_lt.mp hp
    rw [h.parityPad j p hp, h.column_of_mpl_le hp, codewordOf_zero, getD_zeros]

/-- Where the received slots hold an encoder's bytes, the encoder's data column fits (R202, R205). -/
theorem Encoder.Inv.column_fits {c : Config} {e : Encoder} {d : Decoder} {p : Nat} (h : e.Inv c) (hr : e.ready = true)
    (hdata : ∀ i < c.k, d.dataRx i = true → d.dataByte i p = e.dataByte i p)
    (hparity : ∀ j < c.m, d.parityRx j = true → d.parityByte j p = e.parityByte j p) :
    FitsMessage c (d.column c p) (d.erasures c) (e.column c p) := by
  refine ⟨length_column c e p, fun t ht hE => ?_⟩
  rcases received_of_not_erased ht hE with ⟨hi, hrx⟩ | ⟨j, hj, rfl, hrx⟩
  · rw [codewordOf_getD_data c ((length_column c e p).symm ▸ hi), h.column_data hi, decColumn_data c d p hi, if_pos hrx,
      hdata t hi hrx]
  · rw [← h.parityByte_eq hr hj, decColumn_parity c d p hj, if_pos hrx, hparity j hj hrx]

/-- Settles O32: the encoder's columns fit, so the decode succeeds, and by the distance it commits no other message. -/
theorem anyMLossesAreRecovered : Obligations.AnyMLossesAreRecovered := by
  intro idx s hs hr hmpl hdata hparity hlosses
  rw [← length_erasures_eq_filters] at hlosses
  have hfits : ∀ p < s.dec.mpl,
      FitsMessage s.cfg (s.dec.column s.cfg p) (s.dec.erasures s.cfg) (s.enc.column s.cfg p) := fun p hp =>
    hs.encOk.column_fits hr (fun i hi hrx => hdata i hi hrx p hp) fun j hj hrx => hparity j hj hrx p hp
  obtain ⟨new, hexec, hnew⟩ := execDecDecode_of_consistent ((canDecode_iff _ _).mpr hlosses)
    (fun p hp => ⟨_, hfits p hp⟩) idx
  refine ⟨_, hexec, rfl, rfl, fun i hi => ?_⟩
  obtain ⟨-, hrx, hbyte⟩ := commitData_slot s.cfg s.dec new hi
  refine ⟨hrx, fun p hp => (hbyte p hp).trans ?_⟩
  split
  · next hpm =>
    obtain ⟨msg, hmsg, hbytes⟩ := hnew p hpm
    have hunique : msg = s.enc.column s.cfg p := fitsMessage_unique (codeDistance_of_wf hs.cfgOk)
      (nodup_erasures _ _) erasures_lt hlosses hmsg (hfits p hpm)
    rw [hbytes i hi, hunique, hs.encOk.column_data hi]
  · next hpm =>
    have hpm : s.dec.mpl ≤ p := Nat.not_lt.mp hpm
    rw [hs.decOk.dataPad i p hpm, hs.encOk.dataByte_of_mpl_le i (hmpl.trans hpm)]

end Sys2Proof.Machine
end

section
/-! PROOFS of 42_decoder.md. Each decoder command is its one equation of Laws/Exec.lean, read slot by slot. A decode whose
columns do not fit is a draw that keeps every byte from MPL on; a second decode finds every data slot received, so what fits
its columns is the data it already holds. -/

namespace Sys2Proof.Machine

/-! ### DEC_BEGIN -/

/-- Settles O22: the decoder becomes `beginDecoder`, in which every slot is empty. -/
theorem decBeginClearsOrRejects : Obligations.DecBeginClearsOrRejects :=
  ⟨fun _ hn => decodeWord_fields hn (by decide) rfl, fun idx _ =>
    ⟨fun hcap => if_pos hcap, fun hcap => ⟨_, execDecBegin_ok hcap idx, rfl, rfl, rfl, rfl, beginDecoder_shaped _ _ _,
      beginDecoder_data _ _ _, beginDecoder_parity _ _ _⟩⟩⟩

/-! ### DEC_ADD_DATA and DEC_ADD_PARITY -/

/-- What an ADD command leaves in the slots, from the reads after its one replacement: the payload and zeros in slot `idx`,
which is received, and every other slot as it was (R192, R194). -/
theorem slots_of_payload_stored {s : State} {idx : Nat} {len len' : Nat → Nat} {rx rx' : Nat → Bool}
    {byte byte' : Nat → Nat → Byte}
    (h : ∀ i, len' i = (if i = idx then s.a0 else len i) ∧ rx' i = (if i = idx then true else rx i) ∧
      ∀ p, byte' i p = if i = idx then (s.slotImage s.a0 s.a1).getD p 0 else byte i p) :
    len' idx = s.arg0.toNat ∧ rx' idx = true ∧
    (∀ p < s.cfg.cap, byte' idx p =
      if p < s.arg0.toNat then s.mem.read (0x10000 + (s.arg1.toNat + p)) else 0) ∧
    ∀ i, i ≠ idx → len' i = len i ∧ rx' i = rx i ∧ ∀ p, byte' i p = byte i p := by
  obtain ⟨hlen, hrx, hbyte⟩ := h idx
  refine ⟨hlen.trans (if_pos rfl), hrx.trans (if_pos rfl), fun p hp => ?_, fun i hi => ?_⟩
  · exact ((hbyte p).trans (if_pos rfl)).trans (getD_tabulate_of_lt _ _ hp)
  · obtain ⟨hlen, hrx, hbyte⟩ := h i
    exact ⟨hlen.trans (if_neg hi), hrx.trans (if_neg hi), fun p => (hbyte p).trans (if_neg hi)⟩

/-- Settles O23: the payload form rejects on the three bounds, and otherwise replaces one data slot. -/
theorem decAddDataStoresOrRejects : Obligations.DecAddDataStoresOrRejects := by
  refine ⟨fun n hn => decodeWord_fields hn (by decide) rfl, fun idx s hshape =>
    ⟨execDecAddData_reject, fun hidx hlen hrange => ⟨_, execDecAddData_store hidx hlen hrange, rfl, rfl, ?_⟩⟩⟩
  have hslots : s.dec.data.length = s.cfg.k := (Decoder.shaped_iff.mp hshape).1
  exact slots_of_payload_stored fun i => decAddData_slot s.dec _ _ i (hslots.symm ▸ hidx)

/-- Settles O24: the payload form rejects on the three bounds, and otherwise replaces one parity slot. -/
theorem decAddParityStoresOrRejects : Obligations.DecAddParityStoresOrRejects := by
  refine ⟨fun n hn => decodeWord_fields hn (by decide) rfl, fun idx s hshape =>
    ⟨execDecAddParity_reject, fun hidx hlen hrange => ⟨_, execDecAddParity_store hidx hlen hrange, rfl, rfl, ?_⟩⟩⟩
  obtain ⟨-, -, hslots, -⟩ := Decoder.shaped_iff.mp hshape
  exact slots_of_payload_stored fun j => decAddParity_slot s.dec _ _ j (hslots.symm ▸ hidx)

/-! ### The counts and the decodability test -/

/-- A command that succeeds with a value in RES0 and no other effect. -/
theorem succeed_withRes0 (v : Word) (s : State) : succeed (s.withRes0 v) =
    .next { s with res0 := v, result := .ok, done := true, pending := none } := rfl

theorem exec_decCountMissing (idx : Nat) (s : State) : exec (.decCountMissing idx) s =
    .next { s with res0 := BitVec.ofNat 32 (s.dec.missing s.cfg), result := .ok, done := true, pending := none } :=
  succeed_withRes0 _ s

theorem exec_decCountParity (idx : Nat) (s : State) : exec (.decCountParity idx) s =
    .next { s with res0 := BitVec.ofNat 32 (s.dec.parityCount s.cfg), result := .ok, done := true, pending := none } :=
  succeed_withRes0 _ s

theorem exec_decCanDecode (idx : Nat) (s : State) : exec (.decCanDecode idx) s =
    .next { s with res0 := if s.dec.canDecode s.cfg = true then 1 else 0, result := .ok, done := true,
                   pending := none } :=
  succeed_withRes0 _ s

theorem canDecode_iff_counts (c : Config) (d : Decoder) :
    d.canDecode c = true ↔ c.k ≤ (c.k - d.missing c) + d.parityCount c := decide_eq_true_iff

/-- Settles O25: each value is a count of the decoder's flags, or a comparison of the two counts. -/
theorem decCountsAreExact : Obligations.DecCountsAreExact := by
  refine ⟨fun n hn => decodeWord_fields hn (by decide) rfl, fun n hn => decodeWord_fields hn (by decide) rfl,
    fun n hn => decodeWord_fields hn (by decide) rfl, fun idx s => ?_⟩
  simp only [← missing_eq, ← parityCount_eq, ← canDecode_iff_counts]
  exact ⟨exec_decCountMissing idx s, exec_decCountParity idx s, exec_decCanDecode idx s⟩

/-- Settles O26: at most K data slots are missing, so the test compares the two counts, and |E| is linear in them. -/
theorem canDecodeIsTheErasureLimit : Obligations.CanDecodeIsTheErasureLimit := by
  refine fun c d => ⟨?_, canDecode_iff c d, length_erasures c d, nodup_erasures c d, fun _ => mem_erasures⟩
  have hmissing := missing_le c d
  rw [canDecode_iff_counts]
  omega

/-! ### Too few frames -/

theorem exec_decDecode_insufficient {s : State} (hc : s.dec.canDecode s.cfg = false) (idx : Nat) :
    exec (.decDecode idx) s = fail .errInsufficient s := if_pos hc

/-- Settles O27: the slots not received are the erasures, and `canDecode` is the limit of M on them. -/
theorem tooFewFramesAreRefused : Obligations.TooFewFramesAreRefused := by
  intro idx s hlost
  rw [← length_erasures_eq_filters, ← Nat.not_le, ← canDecode_iff] at hlost
  exact ⟨(exec_decCanDecode idx s).trans (by rw [if_neg hlost]),
    exec_decDecode_insufficient (Bool.eq_false_of_not_eq_true hlost) idx⟩

/-! ### DEC_DECODE of inconsistent columns -/

theorem exec_decDecode_of_inconsistent {s : State} (hc : s.dec.canDecode s.cfg = true) (h : ¬ s.dec.Consistent s.cfg)
    (idx : Nat) : exec (.decDecode idx) s = decodeInconsistent s := by
  rw [exec, execDecDecode, if_neg (by simp [hc]), decodeColumns_of_inconsistent hc h]

/-- Everything a decode of inconsistent columns can do (R203, R249). -/
theorem decodeInconsistent_cases (s : State) :
    decodeInconsistent s = fail .errCodec s ∨ s.cfg.decoder = .lawful ∧
      (decodeInconsistent s = fail .errCodec s.countDraw ∨
        ∃ new, decodeInconsistent s = succeed (s.countDraw.decodeTo new)) := by
  unfold decodeInconsistent
  cases s.cfg.decoder with
  | reference => exact .inl rfl
  | lawful =>
    dsimp only
    split
    · exact .inr ⟨rfl, .inl rfl⟩
    · exact .inr ⟨rfl, .inr ⟨_, rfl⟩⟩

/-- Settles O29: a failure keeps all but the draw counter, and a success commits the drawn bytes below MPL only. -/
theorem decodeOfInconsistentColumnsIsADraw : Obligations.DecodeOfInconsistentColumnsIsADraw := by
  intro idx s hc hn
  rw [exec_decDecode_of_inconsistent hc hn, ← missing_eq]
  rcases decodeInconsistent_cases s with hfail | ⟨hlawful, hfail | ⟨new, hok⟩⟩
  · exact ⟨_, hfail, .inl rfl⟩
  · exact ⟨_, hfail, .inl rfl⟩
  · refine ⟨_, hok, .inr ⟨hlawful, rfl, rfl, fun i hi => ?_⟩⟩
    obtain ⟨hlen, hrx, hbyte⟩ := commitData_slot s.cfg s.dec new hi
    exact ⟨hrx, hlen, fun p hp hmpl => (hbyte p hp).trans (if_neg (Nat.not_lt.mpr hmpl))⟩

/-! ### DEC_GET_DATA -/

theorem exec_decGetData_bounds {idx : Nat} {s : State} (hi : s.cfg.k ≤ idx) :
    exec (.decGetData idx) s = fail .errBounds s := if_pos hi

theorem exec_decGetData_notReceived {idx : Nat} {s : State} (hi : idx < s.cfg.k) (hr : s.dec.dataRx idx = false) :
    exec (.decGetData idx) s = fail .errNotReceived s := (if_neg (Nat.not_le.mpr hi)).trans (if_pos hr)

/-- DEC_GET_DATA where it succeeds, as one update (R206). -/
theorem exec_decGetData_ok {idx : Nat} {s : State} (hi : idx < s.cfg.k) (hr : s.dec.dataRx idx = true) :
    exec (.decGetData idx) s =
      .next { s with mem := s.mem.writeBytes outBase (s.dec.dataPayload idx), res0 := BitVec.ofNat 32 s.dec.mpl,
                     result := .ok, done := true, pending := none } :=
  (if_neg (Nat.not_le.mpr hi)).trans ((if_neg (by simp [hr])).trans (succeed_writeOut_withRes0 _ _ s))

theorem length_dataPayload (d : Decoder) (i : Nat) : (d.dataPayload i).length = d.mpl := length_tabulate _ _

/-- Settles O30: the checks in order, then a write of MPL bytes to OUT_BUF. -/
theorem decGetDataWritesThePayload : Obligations.DecGetDataWritesThePayload := by
  refine ⟨fun n hn => decodeWord_fields hn (by decide) rfl, fun idx s hwf =>
    ⟨exec_decGetData_bounds, exec_decGetData_notReceived, fun hi hr => ?_⟩⟩
  have hlen := length_dataPayload s.dec idx
  refine ⟨_, exec_decGetData_ok hi hr, rfl, fun p hp => ?_, fun a ha => ?_⟩
  · exact (Memory.read_writeBytes_inside hwf outBase (hlen.symm ▸ hp)).trans (getD_tabulate_of_lt _ _ hp)
  · exact Memory.read_writeBytes_of_outside s.mem _ (hlen.symm ▸ ha)

/-! ### The second DEC_DECODE -/

/-- After a decode no data slot is missing (R200). -/
theorem missing_commitData (c : Config) (d : Decoder) (new : Nat → Nat → Byte) : (d.commitData c new).missing c = 0 := by
  rw [Decoder.missing, List.countP_eq_zero]
  intro i hi
  obtain ⟨-, hrx, -⟩ := commitData_slot c d new (List.mem_range.mp hi)
  simp [hrx]

theorem canDecode_commitData (c : Config) (d : Decoder) (new : Nat → Nat → Byte) :
    (d.commitData c new).canDecode c = true := by
  rw [canDecode_iff_counts, missing_commitData]
  omega

@[simp] theorem commitData_parityRx (c : Config) (d : Decoder) (new : Nat → Nat → Byte) (j : Nat) :
    (d.commitData c new).parityRx j = d.parityRx j := rfl

@[simp] theorem commitData_parityByte (c : Config) (d : Decoder) (new : Nat → Nat → Byte) (j p : Nat) :
    (d.commitData c new).parityByte j p = d.parityByte j p := rfl

/-- Where a message fits the column, a received parity slot holds the codeword's symbol (R200, R202). -/
theorem fits_received_parity {c : Config} {d : Decoder} {p j : Nat} {msg : List Byte} (hj : j < c.m)
    (hr : d.parityRx j = true) (h : FitsMessage c (d.column c p) (d.erasures c) msg) :
    (codewordOf c msg).getD (c.k + j) 0 = d.parityByte j p := by
  have hE : c.k + j ∉ d.erasures c := by
    rw [mem_erasures]
    rintro (⟨hlt, -⟩ | ⟨j', -, hpos, hlost⟩)
    · omega
    · obtain rfl : j = j' := Nat.add_left_cancel hpos
      exact absurd hr (by simp [hlost])
  rw [h.2 _ (by omega) hE, decColumn_parity c d p hj, if_pos hr]

/-- A message that fits a column before a decode, and whose bytes the decode commits there, fits it afterwards: the parity
slots are kept, and the data symbols are the message (R202, R208). -/
theorem fitsMessage_commitData {c : Config} {d : Decoder} {new : Nat → Nat → Byte} {p : Nat} {msg : List Byte}
    (hp : p < d.mpl) (hcap : p < c.cap) (h : FitsMessage c (d.column c p) (d.erasures c) msg)
    (hnew : ∀ i < c.k, new i p = msg.getD i 0) :
    FitsMessage c ((d.commitData c new).column c p) ((d.commitData c new).erasures c) msg := by
  refine ⟨h.1, fun t ht hE => ?_⟩
  rcases received_of_not_erased ht hE with ⟨hi, hrx⟩ | ⟨j, hj, rfl, hrx⟩
  · obtain ⟨-, -, hbyte⟩ := commitData_slot c d new hi
    rw [codewordOf_getD_data c (h.1.symm ▸ hi), decColumn_data c _ p hi, if_pos hrx, hbyte p hcap, if_pos hp, hnew t hi]
  · rw [decColumn_parity c _ p hj, if_pos hrx, commitData_parityByte]
    exact fits_received_parity hj hrx h

/-- To commit the bytes that a decode has committed already changes nothing (R208). -/
theorem commitData_again {c : Config} {d : Decoder} {new new' : Nat → Nat → Byte}
    (h : ∀ i < c.k, ∀ p < c.cap, p < d.mpl → new' i p = (d.commitData c new).dataByte i p) :
    (d.commitData c new).commitData c new' = d.commitData c new := by
  have hdata : ((d.commitData c new).commitData c new').data = (d.commitData c new).data := by
    refine tabulate_congr fun i hi => ?_
    obtain ⟨hlen, hrx, hbyte⟩ := commitData_slot c d new hi
    rw [if_pos hrx, hlen]
    congr 1
    refine tabulate_congr fun p hp => ?_
    rw [← hbyte p hp]
    split
    · next hpm => exact h i hi p hp hpm
    · rfl
  calc (d.commitData c new).commitData c new'
      = { d.commitData c new with data := ((d.commitData c new).commitData c new').data } := rfl
    _ = d.commitData c new := by rw [hdata]

/-- A decode that finds every data slot received and commits what they hold changes RES0 only (R208). -/
theorem decodeTo_eq_withRes0 {s : State} {new : Nat → Nat → Byte} (hmissing : s.dec.missing s.cfg = 0)
    (hsame : s.dec.commitData s.cfg new = s.dec) : s.decodeTo new = s.withRes0 0 := by
  rw [State.decodeTo, hsame, hmissing]
  rfl

/-- Settles O31: what fits a column of received data slots is the data itself, so the second decode commits what it finds. -/
theorem repeatedDecodeChangesNothing : Obligations.RepeatedDecodeChangesNothing := by
  intro idx idx' s t hcap hc hcons h
  obtain ⟨new, hexec, hnew⟩ := execDecDecode_of_consistent hc hcons idx
  cases hexec.symm.trans h
  have hconsAgain : (s.dec.commitData s.cfg new).Consistent s.cfg := by
    intro p hp
    obtain ⟨msg, hm, hbytes⟩ := hnew p hp
    exact ⟨msg, fitsMessage_commitData hp (hp.trans_le hcap) hm hbytes⟩
  obtain ⟨new', hexec', hnew'⟩ := execDecDecode_of_consistent (s := (s.decodeTo new).complete .ok)
    (canDecode_commitData s.cfg s.dec new) hconsAgain idx'
  have hsame : (s.dec.commitData s.cfg new).commitData s.cfg new' = s.dec.commitData s.cfg new := by
    refine commitData_again fun i hi p _ hpm => ?_
    obtain ⟨-, hrx, -⟩ := commitData_slot s.cfg s.dec new hi
    obtain ⟨msg, hm, hbytes⟩ := hnew' p hpm
    calc new' i p
        = msg.getD i 0 := hbytes i hi
      _ = (codewordOf s.cfg msg).getD i 0 := (codewordOf_getD_data s.cfg (hm.1.symm ▸ hi)).symm
      _ = (s.dec.commitData s.cfg new).dataByte i p := fits_received_byte hi hrx hm
  exact hexec'.trans (congrArg succeed (decodeTo_eq_withRes0 (missing_commitData s.cfg s.dec new) hsame))

end Sys2Proof.Machine
end

section
/-! PROOFS of 43_frame.md. FRAME_PARSE is one equation per outcome, over the candidate's bytes. ENC_GET_PARITY's frame passes
every check, by its wire layout. A flipped byte lies either under the checksum, which then differs, or in the checksum field,
which then differs; so the two agree no longer. -/

namespace Sys2Proof.Machine

/-! ### The outcomes of FRAME_PARSE -/

theorem exec_frameParse_bounds {s : State} (hrange : s.cfg.frameMax < s.a1 + s.a0) (idx : Nat) :
    exec (.frameParse idx) s = fail .errBounds s := if_pos hrange

theorem exec_frameParse_frameLen {s : State} (hrange : s.a1 + s.a0 ≤ s.cfg.frameMax) (hlen : s.a0 < overhead) (idx : Nat) :
    exec (.frameParse idx) s = fail .errFrameLen s := (if_neg (Nat.not_lt.mpr hrange)).trans (if_pos hlen)

section
variable {s : State} {f : List Byte} (hrange : s.a1 + s.a0 ≤ s.cfg.frameMax) (hlen : overhead ≤ s.a0)
  (hf : s.inBytes s.a1 s.a0 = f)
include hrange hlen hf

/-- A candidate that is in range and long enough is judged by its checksum, then by its magic (R224, R225). -/
theorem exec_frameParse_candidate (idx : Nat) : exec (.frameParse idx) s =
    if checksumOk s.cfg f = false then fail .errCrc s
    else if rdBe16 f 0 ≠ s.cfg.parityMagic.toNat then fail .errMagic s
    else succeed (s.withRes (BitVec.ofNat 32 (rdBe32 f 2)) (BitVec.ofNat 32 (rdBe16 f 8 * 65536 + rdBe16 f 6))
      (BitVec.ofNat 32 (rdBe16 f 10)) (BitVec.ofNat 32 (s.a0 - overhead))) := by
  subst hf
  exact (if_neg (Nat.not_lt.mpr hrange)).trans (if_neg (Nat.not_lt.mpr hlen))

theorem exec_frameParse_crc (hcrc : checksumOk s.cfg f = false) (idx : Nat) :
    exec (.frameParse idx) s = fail .errCrc s :=
  (exec_frameParse_candidate hrange hlen hf idx).trans (if_pos hcrc)

theorem exec_frameParse_magic (hcrc : checksumOk s.cfg f = true) (hmagic : rdBe16 f 0 ≠ s.cfg.parityMagic.toNat)
    (idx : Nat) : exec (.frameParse idx) s = fail .errMagic s := by
  rw [exec_frameParse_candidate hrange hlen hf, if_neg (by simp [hcrc]), if_pos hmagic]

theorem exec_frameParse_ok (hcrc : checksumOk s.cfg f = true) (hmagic : rdBe16 f 0 = s.cfg.parityMagic.toNat)
    (idx : Nat) : exec (.frameParse idx) s =
      .next { s with res0 := BitVec.ofNat 32 (rdBe32 f 2),
                     res1 := (BitVec.ofNat 32 (rdBe16 f 8) <<< 16) ||| BitVec.ofNat 32 (rdBe16 f 6),
                     res2 := BitVec.ofNat 32 (rdBe16 f 10), res3 := BitVec.ofNat 32 (s.a0 - overhead),
                     result := .ok, done := true, pending := none } := by
  rw [exec_frameParse_candidate hrange hlen hf, if_neg (by simp [hcrc]), if_neg (not_not.mpr hmagic),
    res1_eq (rdBe16_lt f 8) (rdBe16_lt f 6), succeed_withRes]

end

theorem checksumOk_iff {c : Config} {f : List Byte} {n : Nat} (hl : f.length = n) :
    checksumOk c f = true ↔ rdBe16 f (n - 2) = (crc16 c.crcInit (f.take (n - 2))).toNat := by
  rw [← hl]
  exact decide_eq_true_iff

/-- Settles O34: each clause is one outcome's equation, over the candidate's bytes in IN_BUF. -/
theorem frameParseChecksInOrder : Obligations.FrameParseChecksInOrder := by
  refine ⟨fun n hn => decodeWord_fields hn (by decide) rfl, fun idx s f hl hbytes => ?_⟩
  have hf : s.inBytes s.a1 s.a0 = f := inBytes_eq hl hbytes
  intro n good
  have hgood : checksumOk s.cfg f = true ↔ good := checksumOk_iff hl
  refine ⟨fun hrange => ?_, fun hrange hlen => ?_, fun hrange hlen hbad => ?_, fun hrange hlen hok hmagic => ?_,
    fun hrange hlen hok hmagic => ?_⟩
  · exact exec_frameParse_bounds hrange idx
  · exact exec_frameParse_frameLen hrange hlen idx
  · exact exec_frameParse_crc hrange hlen hf (Bool.eq_false_of_not_eq_true (mt hgood.mp hbad)) idx
  · exact exec_frameParse_magic hrange hlen hf (hgood.mpr hok) hmagic idx
  · exact exec_frameParse_ok hrange hlen hf (hgood.mpr hok) hmagic idx

/-! ### A built frame parses -/

/-- The length that ENC_GET_PARITY reports fits RES0. -/
theorem toNat_frameLength {c : Config} {n : Nat} (hw : c.wf = true) (hn : n ≤ c.cap) :
    (BitVec.ofNat 32 (14 + n) : Word).toNat = 14 + n := by
  obtain ⟨hf, -⟩ := wf_frameMax hw
  have hcap : c.frameMax = c.cap + 14 := rfl
  exact Nat.mod_eq_of_lt (by omega)

/-- ENC_GET_PARITY's frame has its own checksum, and the header fields are the encoder's (R220, R221). -/
theorem parityFrame_fields {s : State} {idx : Nat} (hw : s.cfg.wf = true) (hi : idx < s.cfg.m) :
    checksumOk s.cfg (s.parityFrame idx) = true ∧ rdBe16 (s.parityFrame idx) 0 = s.cfg.parityMagic.toNat ∧
      rdBe32 (s.parityFrame idx) 2 = s.enc.totalLen.toNat ∧ rdBe16 (s.parityFrame idx) 6 = idx ∧
      rdBe16 (s.parityFrame idx) 8 = s.cfg.m ∧ rdBe16 (s.parityFrame idx) 10 = s.cfg.k := by
  have hlen := length_parityFrame s idx
  rw [State.parityFrame] at hlen ⊢
  obtain ⟨-, hmagic, htotal, hidx, hm, hk, -, hcrc⟩ :=
    builtFrameHasTheWireLayout s.cfg s.enc.totalLen idx (s.enc.parityPayload idx) hw hi
  rw [length_parityPayload] at hcrc
  refine ⟨(checksumOk_iff hlen).mpr ?_, hmagic, htotal, hidx, hm, hk⟩
  rw [show 14 + s.enc.mpl - 2 = 12 + s.enc.mpl by omega]
  exact hcrc

/-- Settles O35: the candidate is the frame that was written, so it passes every check and has the encoder's fields. -/
theorem parseOfBuiltFrameGivesItsFields : Obligations.ParseOfBuiltFrameGivesItsFields := by
  intro idx idx' s t u hs h hok hcfg harg hrange hcopy
  obtain ⟨hready, hidx⟩ := checked_of_encGetParity_ok h hok
  have ht := Host.Outcome.next.inj (h.symm.trans (exec_encGetParity_ok hready hidx))
  have hlen := length_parityFrame s idx
  have hres : t.res0.toNat = 14 + s.enc.mpl := by
    rw [ht]
    exact toNat_frameLength hs.cfgOk hs.encOk.mplLeCap
  have hout : ∀ o < 14 + s.enc.mpl, t.mem.read (outBase + o) = (s.parityFrame idx).getD o 0 := by
    rw [ht]
    exact fun o ho => Memory.read_writeBytes_inside hs.memWf outBase (hlen.symm ▸ ho)
  have ha0 : u.a0 = 14 + s.enc.mpl := (congrArg BitVec.toNat harg).trans hres
  rw [hres] at hrange hcopy
  have hf : u.inBytes u.a1 u.a0 = s.parityFrame idx :=
    ha0.symm ▸ inBytes_eq hlen fun o ho => ((hcopy o ho).trans (hout o ho)).symm
  obtain ⟨hcrc, hmagic, htotal, hpidx, hm, hk⟩ := parityFrame_fields hs.cfgOk hidx
  have hres1 : BitVec.ofNat 32 s.cfg.m <<< 16 ||| BitVec.ofNat 32 idx = BitVec.ofNat 32 (s.cfg.m * 65536 + idx) :=
    (res1_eq (hm ▸ rdBe16_lt _ _) (hpidx ▸ rdBe16_lt _ _)).symm
  have hres3 : u.a0 - overhead = s.enc.mpl := by
    rw [ha0]
    exact Nat.add_sub_cancel_left ..
  rw [← hcfg] at hcrc hmagic
  have hlong : overhead ≤ u.a0 := ha0.symm ▸ Nat.le_add_right _ _
  rw [exec_frameParse_ok (by rwa [ha0, hcfg]) hlong hf hcrc hmagic, htotal, BitVec.ofNat_toNat, BitVec.setWidth_eq, hm, hpidx,
    hres1, hk, hres3]

/-! ### A flipped bit is detected -/

/-- A 16-bit field determines both its bytes (R15). -/
theorem bytes_of_rdBe16_eq {f g : List Byte} {o : Nat} (h : rdBe16 f o = rdBe16 g o) :
    f.getD o 0 = g.getD o 0 ∧ f.getD (o + 1) 0 = g.getD (o + 1) 0 := by
  unfold rdBe16 at h
  have hf := (f.getD (o + 1) 0).isLt
  have hg := (g.getD (o + 1) 0).isLt
  exact ⟨BitVec.eq_of_toNat_eq (by omega), BitVec.eq_of_toNat_eq (by omega)⟩

theorem getD_take_byte (f : List Byte) (n o : Nat) : (f.take n).getD o 0 = if o < n then f.getD o 0 else 0 := by
  rw [List.getD_eq_getElem?_getD, List.getElem?_take]
  split
  · exact (List.getD_eq_getElem?_getD ..).symm
  · rfl

/-- Of two candidates that differ in one byte, at most one carries its own checksum (R226, R252). -/
theorem checksumOk_of_flip {c : Config} {f g : List Byte} {n q : Nat} (hf : f.length = n) (hg : g.length = n)
    (hn : 2 ≤ n) (hq : q < n) (hne : g.getD q 0 ≠ f.getD q 0) (hsame : ∀ o < n, o ≠ q → g.getD o 0 = f.getD o 0)
    (hok : checksumOk c f = true) : checksumOk c g = false := by
  refine Bool.eq_false_of_not_eq_true fun hok' => ?_
  rw [checksumOk_iff hf] at hok
  rw [checksumOk_iff hg] at hok'
  have hbody : ∀ o, o ≠ q → (g.take (n - 2)).getD o 0 = (f.take (n - 2)).getD o 0 := by
    intro o ho
    rw [getD_take_byte, getD_take_byte]
    split
    · exact hsame o (by omega) ho
    · rfl
  by_cases hqn : q < n - 2
  · have hfield : rdBe16 g (n - 2) = rdBe16 f (n - 2) := by
      rw [rdBe16, rdBe16, hsame (n - 2) (by omega) (by omega), hsame (n - 2 + 1) (by omega) (by omega)]
    refine crc16_flip c.crcInit (g.take (n - 2)) (f.take (n - 2)) q (by simp [hf, hg]) (by simp [hg]; omega) ?_ hbody
      (BitVec.eq_of_toNat_eq (hok'.symm.trans (hfield.trans hok)))
    rwa [getD_take_byte, getD_take_byte, if_pos hqn, if_pos hqn]
  · have htake : g.take (n - 2) = f.take (n - 2) := by
      refine ext_getD 0 (by simp [hf, hg]) fun o ho => hbody o ?_
      rw [List.length_take] at ho
      omega
    obtain ⟨hhigh, hlow⟩ := bytes_of_rdBe16_eq (hok'.trans (htake ▸ hok.symm))
    rcases (show q = n - 2 ∨ q = n - 2 + 1 by omega) with rfl | rfl
    · exact hne hhigh
    · exact hne hlow

/-- FRAME_PARSE completes with OK only where the candidate is in range, long enough and carries its checksum (R224). -/
theorem accepted_of_frameParse_ok {idx : Nat} {s t : State} (h : exec (.frameParse idx) s = .next t)
    (hok : t.result = .ok) : s.a1 + s.a0 ≤ s.cfg.frameMax ∧ overhead ≤ s.a0 ∧
      checksumOk s.cfg (s.inBytes s.a1 s.a0) = true := by
  have hne : ∀ c, c ≠ .ok → exec (.frameParse idx) s ≠ fail c s := by
    rintro c hc hfail
    cases h.symm.trans hfail
    exact hc hok
  have hrange : s.a1 + s.a0 ≤ s.cfg.frameMax :=
    Nat.le_of_not_lt fun hout => hne .errBounds nofun (exec_frameParse_bounds hout idx)
  have hlen : overhead ≤ s.a0 :=
    Nat.le_of_not_lt fun hshort => hne .errFrameLen nofun (exec_frameParse_frameLen hrange hshort idx)
  exact ⟨hrange, hlen, Bool.eq_true_of_not_eq_false fun hbad =>
    hne .errCrc nofun (exec_frameParse_crc hrange hlen rfl hbad idx)⟩

/-- To flip one bit changes the byte. -/
theorem xor_bit_ne (x : Byte) {b : Nat} (hb : b < 8) : x ^^^ BitVec.ofNat 8 (2 ^ b) ≠ x := by
  intro h
  have hbit := congrArg (·.getLsbD b) h
  simp only [BitVec.getLsbD_xor, BitVec.getLsbD_ofNat, hb, Nat.testBit_two_pow_self, decide_true, Bool.and_self,
    Bool.xor_true] at hbit
  exact Bool.not_ne_self _ hbit

theorem length_inBytes (s : State) (off n : Nat) : (s.inBytes off n).length = n := length_tabulate _ _

/-- Byte `o` of a candidate, where IN_BUF has it (R16, R80). -/
theorem getD_inBytes (s : State) (off : Nat) {n o : Nat} (ho : o < n) :
    (s.inBytes off n).getD o 0 = s.mem.read (inBase + (off + o)) := getD_tabulate_of_lt _ _ ho

/-- Settles O36: range and length are as before, and with one byte changed the checksum cannot hold a second time. -/
theorem everySingleBitFlipIsDetected : Obligations.EverySingleBitFlipIsDetected := by
  intro idx q b s t s' h hok hcfg harg0 harg1 hq hb hflip hsame
  obtain ⟨hrange, hlen, hcrc⟩ := accepted_of_frameParse_ok h hok
  change q < s.a0 at hq
  have ha0 : s'.a0 = s.a0 := congrArg BitVec.toNat harg0
  have ha1 : s'.a1 = s.a1 := congrArg BitVec.toNat harg1
  have hne : (s'.inBytes s.a1 s.a0).getD q 0 ≠ (s.inBytes s.a1 s.a0).getD q 0 := by
    rw [getD_inBytes s' _ hq, getD_inBytes s _ hq]
    exact hflip.trans_ne (xor_bit_ne _ hb)
  have heq : ∀ o < s.a0, o ≠ q → (s'.inBytes s.a1 s.a0).getD o 0 = (s.inBytes s.a1 s.a0).getD o 0 := by
    intro o ho hoq
    rw [getD_inBytes s' _ ho, getD_inBytes s _ ho]
    exact hsame o ho hoq
  have hbad : checksumOk s.cfg (s'.inBytes s.a1 s.a0) = false :=
    checksumOk_of_flip (length_inBytes _ _ _) (length_inBytes _ _ _) (le_trans (by decide) hlen) hq hne heq hcrc
  exact exec_frameParse_crc (by rwa [ha0, ha1, hcfg]) (by rwa [ha0]) (by rw [ha0, ha1]) (by rwa [hcfg]) idx

end Sys2Proof.Machine
end

section
/-! PROOFS of 44_codec.md. The encoder's laws, the decoder's outcomes and the roots of a reference codeword are lemmas of
Laws/, put together. That erased symbols never matter is a congruence of the elimination in the bits it reads. That x^8 + p
irreducible gives a field: a polynomial of degree 1 to 4 leaves a non-zero remainder of lower degree, so by descent it is
invertible; and every other symbol has a non-zero multiple of degree at most 4. -/

namespace Sys2Proof.Machine

/-! ### RS_ENC -/

/-- A codeword starts with its message (R244). -/
theorem take_codewordOf (c : Config) {msg : List Byte} (h : msg.length = c.k) : (codewordOf c msg).take c.k = msg :=
  List.take_left' h

/-- RS_ENC fails on a column of another length (log 17). -/
theorem rsEnc_of_length_ne (c : Config) {msg : List Byte} (h : msg.length ≠ c.k) : rsEnc c msg = none := if_neg h

/-- Settles O37: on K-byte columns RS_ENC is `codewordOf`, which commutes with XOR and with every multiplication. -/
theorem encoderIsSystematicAndLinear : Obligations.EncoderIsSystematicAndLinear := by
  refine ⟨fun c a b ha hb => ?_, fun c _ => rsEnc_of_length_ne c⟩
  refine ⟨codewordOf c a, codewordOf c b, rsEnc_of_length c ha, rsEnc_of_length c hb, length_codewordOf c ha,
    take_codewordOf c ha, ?_, fun z => ?_, ?_⟩
  · rw [rsEnc_of_length c (length_xorBytes_of_eq ha hb), codewordOf_xor c (ha.trans hb.symm)]
  · rw [rsEnc_of_length c ((List.length_map _).trans ha), codewordOf_scale]
  · rw [rsEnc_of_length c List.length_replicate, codewordOf_zero]

/-! ### RS_DEC -/

/-- RS_DEC fails for more than M erasures (R246). -/
theorem rsDec_of_too_many {c : Config} {E : List Nat} (h : c.m < E.length) (r : List Byte) : rsDec c r E = .failure :=
  if_pos h

/-- A step of the elimination reads one bit of the received word. -/
theorem narrow_congr {r r' : List Byte} {q : Nat} (h : bitOf r' q = bitOf r q) (sol : Option Solutions) :
    narrow r' sol q = narrow r sol q := by
  cases sol with
  | none => rfl
  | some s => simp only [narrow, h]

/-- The elimination reads the known symbols only (R246). -/
theorem solve_congr {c : Config} {r r' : List Byte} {E : List Nat}
    (h : ∀ t < c.k + c.m, t ∉ E → r'.getD t 0 = r.getD t 0) : solve c r' E = solve c r E :=
  List.foldl_ext _ _ _ fun sol q hq => narrow_congr ((agree_knownBits _ E r' r).mpr h q hq) sol

/-- The symbols at erased positions never matter (R246). -/
theorem rsDec_congr {c : Config} {r r' : List Byte} {E : List Nat}
    (h : ∀ t < c.k + c.m, t ∉ E → r'.getD t 0 = r.getD t 0) : rsDec c r' E = rsDec c r E := by
  rw [rsDec, rsDec, solve_congr h]

/-- Settles O38: RS_DEC's three cases, and the elimination's congruence in the known symbols. -/
theorem decoderFindsTheAgreeingCodeword : Obligations.DecoderFindsTheAgreeingCodeword := fun _ r _ =>
  ⟨fun hmany => rsDec_of_too_many hmany r, rsDec_of_fits, rsDec_of_not_fits, fun _ => rsDec_congr⟩

/-! ### The roots of a reference codeword -/

/-- The codeword of the reference code is the message and the remainder of its division (R248). -/
theorem codewordOf_reference {c : Config} (hc : c.code = .reference) (msg : List Byte) :
    codewordOf c msg = msg ++ referenceParity c.m msg := by rw [codewordOf, parityOf, hc]

/-- Settles O40: the division leaves the remainder that cancels the message at every root of the generator. -/
theorem referenceCodewordsVanishAtTheRoots : Obligations.ReferenceCodewordsVanishAtTheRoots := by
  intro c msg i hc _ hi
  rw [codewordOf_reference hc]
  exact evalPoly_referenceParity hi msg

/-! ### The reference field -/

theorem gfPow_one (n : Nat) : gfPow 1 n = 1 := by
  induction n with
  | zero => rfl
  | succ n ih => rw [gfPow, ih, gfMul_one]

/-- The order of every non-zero symbol divides 255 (R241). -/
theorem gfPow_255 {a : Byte} (ha : a ≠ 0) : gfPow a 255 = 1 := by
  obtain ⟨e, -, rfl⟩ := exists_gfPow_alpha ha
  rw [← gfPow_mul, Nat.mul_comm, gfPow_mul, gfPow_alpha 255, gfShift_order.1, gfPow_one]

/-- The inverse of a non-zero symbol is its 254th power (R241). -/
theorem gfMul_gfInv {a : Byte} (ha : a ≠ 0) : gfMul a (gfInv a) = 1 :=
  (gfMul_comm a (gfInv a)).trans (gfPow_255 ha)

/-- A non-zero symbol has exactly one exponent below 255 (R241). -/
theorem existsUnique_gfPow_alpha {a : Byte} (ha : a ≠ 0) : ∃! e, e ≤ 254 ∧ gfPow gfAlpha e = a := by
  obtain ⟨e, he, hea⟩ := exists_gfPow_alpha ha
  exact ⟨e, ⟨Nat.le_of_lt_succ he, hea⟩, fun d ⟨hd, hda⟩ =>
    gfPow_alpha_injective (Nat.lt_succ_of_le hd) he (hda.trans hea.symm)⟩

/-! ### Division of x^8 + p -/

/-- Multiplication distributes over XOR, whatever the field polynomial (R241). -/
theorem gfMulMod_xor_right (p a b b' : Byte) : gfMulMod p a (b ^^^ b') = gfMulMod p a b ^^^ gfMulMod p a b' :=
  gfMulMod_additive_right p a b b'

/-- Coefficient `8 - n` of x^8 + p, as `polyRem` reads it. -/
def fieldPolyBit (p : Byte) (n : Nat) : Nat := (256 + p.toNat) / 2 ^ (8 - n) % 2

/-- The division of `polyRem` after `n` of its nine steps. -/
def polyRemUpTo (p : Byte) (k d : Nat) : Nat → Nat
  | 0 => 0
  | n + 1 =>
    let r := 2 * polyRemUpTo p k d n + fieldPolyBit p n
    if r.testBit k then r ^^^ d else r

theorem polyRem_eq (p : Byte) (k d : Nat) : polyRem p k d = polyRemUpTo p k d 9 := rfl

/-- The value in the field of the `n` leading coefficients of x^8 + p, by Horner's rule. -/
def fieldPolyLead (p : Byte) : Nat → Byte
  | 0 => 0
  | n + 1 => gfTimesX p (fieldPolyLead p n) ^^^ BitVec.ofNat 8 (fieldPolyBit p n)

/-- x^8 + p is 0 in its field (R241). -/
theorem fieldPolyLead_nine (p : Byte) : fieldPolyLead p 9 = 0 := by
  revert p; decide +kernel

/-- Below x^8 a Horner step of naturals is one of the field. -/
theorem ofNat_horner (p : Byte) {r b : Nat} (hr : r < 128) (hb : b < 2) :
    BitVec.ofNat 8 (2 * r + b) = gfTimesX p (BitVec.ofNat 8 r) ^^^ BitVec.ofNat 8 b := by
  have h : ∀ r < 128, (BitVec.ofNat 8 r).msb = false ∧
      ∀ b < 2, BitVec.ofNat 8 (2 * r + b) = (BitVec.ofNat 8 r <<< 1) ^^^ BitVec.ofNat 8 b := by decide +kernel
  obtain ⟨hlow, hstep⟩ := h r hr
  rw [gfTimesX_low p hlow, hstep b hb]

/-- Without its bit `k` a number below 2^(k+1) is below 2^k. -/
theorem lt_two_pow_of_testBit_eq_false {k n : Nat} (hn : n < 2 ^ (k + 1)) (h : n.testBit k = false) : n < 2 ^ k := by
  refine Nat.lt_pow_two_of_testBit n fun i hi => ?_
  rcases Nat.eq_or_lt_of_le hi with rfl | hlt
  · exact h
  · exact Nat.testBit_lt_two_pow (hn.trans_le (Nat.pow_le_pow_right (by decide) hlt))

section
variable (p : Byte) {k d : Nat} (hk : k ≤ 7) (hd : d < 2 ^ (k + 1)) (hbit : d.testBit k = true)
include hk hd hbit

/-- After every step the remainder has a degree below that of `d`, and differs from the coefficients read so far by a
multiple of `d`. -/
theorem polyRemUpTo_spec (n : Nat) : polyRemUpTo p k d n < 2 ^ k ∧
    ∃ q, fieldPolyLead p n = gfMulMod p (BitVec.ofNat 8 d) q ^^^ BitVec.ofNat 8 (polyRemUpTo p k d n) := by
  induction n with
  | zero => exact ⟨Nat.two_pow_pos k, 0, by rw [gfMulMod_zero_right, byte_zero_xor]; rfl⟩
  | succ n ih =>
    obtain ⟨hlt, q, hq⟩ := ih
    have hb : fieldPolyBit p n < 2 := Nat.mod_lt _ (by decide)
    have h128 : 2 ^ k ≤ 2 ^ 7 := Nat.pow_le_pow_right (by decide) hk
    have hr : 2 * polyRemUpTo p k d n + fieldPolyBit p n < 2 ^ (k + 1) := by omega
    have hnext : fieldPolyLead p (n + 1) = gfMulMod p (BitVec.ofNat 8 d) (gfTimesX p q) ^^^
        BitVec.ofNat 8 (2 * polyRemUpTo p k d n + fieldPolyBit p n) := by
      rw [fieldPolyLead, hq, gfTimesX_additive, gfMulMod_timesX, ofNat_horner p (hlt.trans_le h128) hb,
        BitVec.xor_assoc]
    rw [hnext, polyRemUpTo]
    split
    case isTrue htop =>
      refine ⟨lt_two_pow_of_testBit_eq_false (Nat.xor_lt_two_pow hr hd) (by rw [Nat.testBit_xor, htop, hbit]; rfl),
        gfTimesX p q ^^^ 1, ?_⟩
      rw [gfMulMod_xor_right, gfMulMod_one, BitVec.ofNat_xor, xor_swap, BitVec.xor_self, BitVec.xor_zero]
    case isFalse htop => exact ⟨lt_two_pow_of_testBit_eq_false hr (Bool.eq_false_of_not_eq_true htop), gfTimesX p q, rfl⟩

/-- In the field the remainder of x^8 + p modulo `d` is a multiple of `d`. -/
theorem exists_gfMulMod_eq_polyRem : polyRem p k d < 2 ^ k ∧
    ∃ q, gfMulMod p (BitVec.ofNat 8 d) q = BitVec.ofNat 8 (polyRem p k d) := by
  rw [polyRem_eq]
  obtain ⟨hlt, q, hq⟩ := polyRemUpTo_spec p hk hd hbit 9
  exact ⟨hlt, q, xor_eq_zero.mp (hq.symm.trans (fieldPolyLead_nine p))⟩

end

/-! ### Inverses over an irreducible polynomial -/

/-- A symbol with an inverse in the field of x^8 + p. -/
def HasInverse (p a : Byte) : Prop := ∃ b, gfMulMod p a b = 1

/-- A factor of an invertible symbol is invertible. -/
theorem HasInverse.of_mul {p a b : Byte} (h : HasInverse p (gfMulMod p a b)) : HasInverse p a := by
  obtain ⟨c, hc⟩ := h
  exact ⟨gfMulMod p b c, (gfMulMod_assoc p a b c).symm.trans hc⟩

/-- An invertible symbol has no product 0 but with 0. -/
theorem HasInverse.eq_zero_of_mul {p a b : Byte} (h : HasInverse p b) (hz : gfMulMod p a b = 0) : a = 0 := by
  obtain ⟨c, hc⟩ := h
  rw [← gfMulMod_one p a, ← hc, ← gfMulMod_assoc, hz, gfMulMod_zero_left]

/-- What `irreducible` says of one divisor. -/
theorem polyRem_ne_zero {p : Byte} (h : irreducible p = true) {d : Nat} (h2 : 2 ≤ d) (h32 : d < 32) :
    polyRem p d.log2 d ≠ 0 := by
  have hd := List.all_eq_true.mp h (d - 2) (List.mem_range.mpr (by omega))
  rwa [Nat.sub_add_cancel h2, bne_iff_ne] at hd

/-- Polynomials of degree at most 4 are invertible: x^8 + p leaves a remainder of lower degree, which is a multiple of the
divisor and is not 0. -/
theorem hasInverse_of_lt_32 {p : Byte} (h : irreducible p = true) (d : Nat) (h0 : d ≠ 0) (h32 : d < 32) :
    HasInverse p (BitVec.ofNat 8 d) := by
  induction d using Nat.strongRecOn with
  | ind d ih =>
    by_cases h1 : d = 1
    · exact h1 ▸ ⟨1, gfMulMod_one p 1⟩
    · have hk : d.log2 < 5 := (Nat.log2_lt h0).mpr h32
      obtain ⟨hlt, q, hq⟩ := exists_gfMulMod_eq_polyRem p (by omega) Nat.lt_log2_self (Nat.testBit_log2 h0)
      have hle := Nat.log2_self_le h0
      exact .of_mul (hq ▸ ih _ (by omega) (polyRem_ne_zero h (by omega) h32) (by omega))

/-- Every symbol has a non-zero multiple by a polynomial of degree at most 3 that has degree at most 4: two of the sixteen
multiples agree in the three highest bits, and their sum is one (Thue's argument). -/
theorem exists_small_multiple (p a : Byte) : ∃ b : Byte, b ≠ 0 ∧ b.toNat < 16 ∧ (gfMulMod p a b).toNat < 32 := by
  have hmaps : ∀ n ∈ Finset.range 16, (gfMulMod p a (BitVec.ofNat 8 n)).toNat >>> 5 ∈ Finset.range 8 := fun n _ =>
    Finset.mem_range.mpr (by rw [Nat.shiftRight_eq_div_pow]; omega)
  obtain ⟨m, hm, n, hn, hne, heq⟩ := Finset.exists_ne_map_eq_of_card_lt_of_maps_to (by decide) hmaps
  rw [Finset.mem_range] at hm hn
  refine ⟨BitVec.ofNat 8 m ^^^ BitVec.ofNat 8 n, fun h => hne ?_, ?_, ?_⟩
  · have hmn := congrArg BitVec.toNat (xor_eq_zero.mp h)
    rw [BitVec.toNat_ofNat, BitVec.toNat_ofNat] at hmn
    omega
  · rw [BitVec.toNat_xor]
    exact Nat.xor_lt_two_pow (n := 4) (by rw [BitVec.toNat_ofNat]; omega) (by rw [BitVec.toNat_ofNat]; omega)
  · have hz : (gfMulMod p a (BitVec.ofNat 8 m ^^^ BitVec.ofNat 8 n)).toNat >>> 5 = 0 := by
      rw [gfMulMod_xor_right, BitVec.toNat_xor, Nat.shiftRight_xor_distrib, heq, Nat.xor_self]
    rw [Nat.shiftRight_eq_div_pow] at hz
    omega

/-- With an irreducible polynomial every non-zero symbol is invertible (R240). -/
theorem hasInverse_of_irreducible {p a : Byte} (h : irreducible p = true) (ha : a ≠ 0) : HasInverse p a := by
  have hsmall : ∀ b : Byte, b ≠ 0 → b.toNat < 32 → HasInverse p b := fun b hb hlt => by
    have hinv := hasInverse_of_lt_32 h b.toNat (fun h0 => hb (BitVec.eq_of_toNat_eq h0)) hlt
    rwa [BitVec.ofNat_toNat, BitVec.setWidth_eq] at hinv
  obtain ⟨b, hb, hlt, hmul⟩ := exists_small_multiple p a
  have hne : gfMulMod p a b ≠ 0 := fun hz => ha ((hsmall b hb (by omega)).eq_zero_of_mul hz)
  exact (hsmall _ hne hmul).of_mul

/-- Settles O41: the reference field by the powers of α, any other by the invertible symbols. -/
theorem fieldIsGeneratedByAlpha : Obligations.FieldIsGeneratedByAlpha :=
  ⟨fun _ ha => ⟨gfMul_gfInv ha, existsUnique_gfPow_alpha ha⟩, gfPow_255 (by decide),
    fun a b c => ⟨gfMul_one a, gfMul_comm a b, gfMul_assoc a b c, gfMul_xor_right a b c⟩,
    fun p a hp ha => ⟨gfMulMod_one p a, hasInverse_of_irreducible hp ha⟩⟩

end Sys2Proof.Machine
end

section
/-! PROOFS of 60_exceptions.md. A command ends in a failure with a code of its row or in OK, which every row lists; and irq
follows DONE, so it is read off what a completion, an acknowledgement and an acceptance leave in DONE. -/

namespace Sys2Proof.Machine

/-! ### Result codes -/

/-- Every command can complete with OK (R271). -/
theorem ok_mem_resultsOf (i : Instr) : .ok ∈ resultsOf i := by
  cases i <;> simp [resultsOf]

/-- Settles O11: a failure completes with a code of its command's row, and a success with OK. -/
theorem commandsGiveOnlyTheirResults : Obligations.CommandsGiveOnlyTheirResults := by
  intro i s t h
  rcases exec_cases i s with ⟨c, hc, -, he | he⟩ | ⟨s', -, he⟩ <;> cases he.symm.trans h
  · exact hc
  · exact hc
  · exact ok_mem_resultsOf i

/-! ### The interrupt line -/

/-- Outside a reset clear irq is DONE and IRQ_EN (R280). -/
theorem irq_of_not_resetting {s : State} (hr : s.resetting = false) : s.irq = (s.done && s.irqEn) := by
  simp [State.irq, hr]

theorem irq_of_resetting {s : State} (hr : s.resetting = true) : s.irq = false := by
  simp [State.irq, hr]

theorem irq_of_not_done {s : State} (hd : s.done = false) : s.irq = false := by
  simp [State.irq, hd]

/-- A completed command leaves DONE set, and IRQ_EN and the reset clear as they were (R154). -/
theorem flags_of_exec {i : Instr} {s t : State} (h : exec i s = .next t) :
    t.done = true ∧ t.irqEn = s.irqEn ∧ t.resetting = s.resetting := by
  obtain ⟨ht, -⟩ := commandsKeepTheHostsSide i s t h
  exact ⟨by rw [ht], by rw [ht], by rw [ht]⟩

/-- The acknowledgement and the acceptance of a command both clear DONE (R150, R282). -/
theorem done_of_ack_or_accept {s t : State} {w : Word} {rest : List Move} (hr : s.resetting = false)
    (ha : s.agenda = hostAck s.cfg :: rest ∨ s.pending = none ∧ s.agenda = hostWrite s.cfg .cmd w :: rest)
    (h : step s = .next t) : t.done = false := by
  obtain ⟨hw, -⟩ := step_cases h
  rcases ha with hack | ⟨hp, hcmd⟩
  · obtain ⟨-, -, hstatus⟩ := operandAndStatusWrites s rest 2 hw hr
    cases (hstatus hack).symm.trans h
    exact Bool.and_false _
  · obtain ⟨haccept, -⟩ := commandWriteIsAcceptedOrRecorded s w rest hw hr hcmd
    cases (haccept hp).symm.trans h
    rfl

/-- Settles O53: irq by its definition, over what each event leaves in DONE. -/
theorem interruptFollowsCompletion : Obligations.InterruptFollowsCompletion := by
  refine ⟨fun _ => irq_of_not_resetting, fun i s t h hr => ?_, fun s t w rest hr ha h => ?_, fun _ => irq_of_resetting⟩
  · obtain ⟨hdone, hen, hreset⟩ := flags_of_exec h
    rw [irq_of_not_resetting (hreset.trans hr), hdone, hen, Bool.true_and]
  · exact irq_of_not_done (done_of_ack_or_accept hr ha h)

end Sys2Proof.Machine
end

section
/-! PROOFS of 70_reset_and_hazards.md. A write to CTRL is `writeCtrl`, a reset clear ends by the engine's turn in the reset
state, and READY, which every successful ENC_ADD_DATA clears and ENC_COMPUTE_PARITY sets, guards the parity. -/

namespace Sys2Proof.Machine

/-! ### Reset -/

/-- Settles O56: the engine's turn in a reset clear is `finishReset`, with its turn off the agenda. -/
theorem resetClearEndsInTheResetState : Obligations.ResetClearEndsInTheResetState := fun s rest hw hr ha =>
  (step_engine hw (.inr ha)).trans (engineStep_resetting (s := s.withAgenda rest) hr)

/-- A write to CTRL outside a reset clear, whether or not a command runs (R92, R301). -/
theorem step_ctrlWrite {s : State} {rest : List Move} {w : Word} (hw : s.cfg.wf = true) (hr : s.resetting = false)
    (ha : s.agenda = hostWrite s.cfg .ctrl w :: rest) :
    step s = .next (((s.withAgenda rest).writeCtrl w).respond ⟨false, 0⟩) := by
  rw [step_hostWrite hw ha, if_neg (ne_true_of_eq_false hr)]
  rfl

theorem writeCtrl_reset {w : Word} (h : w.getLsbD 1 = true) (s : State) : s.writeCtrl w = s.startReset := if_pos h

theorem writeCtrl_irqEn {w : Word} (h : w.getLsbD 1 = false) (s : State) :
    s.writeCtrl w = { s with irqEn := w.getLsbD 0 } := if_neg (ne_true_of_eq_false h)

/-- Settles O54: bit 1 selects `writeCtrl`'s case, and the reset it starts ends in the reset state, with IRQ_EN 0. -/
theorem controlWriteStartsAReset : Obligations.ControlWriteStartsAReset := by
  intro s rest w hw hr ha
  refine ⟨fun hbit => ?_, fun hbit => ?_⟩
  · refine ⟨_, (step_ctrlWrite hw hr ha).trans ?_, rfl, _, resetClearEndsInTheResetState _ rest hw rfl rfl, rfl, rfl⟩
    rw [writeCtrl_reset hbit]
    rfl
  · rw [step_ctrlWrite hw hr ha, writeCtrl_irqEn hbit]
    rfl

/-! ### Stale parity -/

/-- A successful ENC_ADD_DATA leaves a completed state whose READY is 0 (R172). -/
theorem notReady_of_encAddData_ok {idx : Nat} {s t : State} (h : exec (.encAddData idx) s = .next t)
    (hok : t.result = .ok) : t.enc.ready = false ∧ t.done = true ∧ t.pending = none := by
  obtain ⟨s', he, rfl⟩ := effect_of_exec_ok h hok
  cases he with
  | encAddData => exact ⟨rfl, rfl, rfl⟩
  | count _ _ _ hc => simp at hc

/-- ENC_COMPUTE_PARITY sets READY (R174). -/
theorem exec_encComputeParity_ready (idx : Nat) (s : State) :
    ∃ t, exec (.encComputeParity idx) s = .next t ∧ t.enc.ready = true :=
  ⟨_, execEncComputeParity_eq idx s, rfl⟩

/-- With READY set ENC_GET_PARITY completes with OK or, for an index past the last slot, with ERR_BOUNDS (R176). -/
theorem exec_encGetParity_ready {s : State} (hr : s.enc.ready = true) (idx : Nat) :
    ∃ t, exec (.encGetParity idx) s = .next t ∧ t.result ≠ .errNotReady := by
  rcases Nat.lt_or_ge idx s.cfg.m with hi | hi
  · exact ⟨_, exec_encGetParity_ok hr hi, by simp⟩
  · exact ⟨_, exec_encGetParity_bounds hr hi, by simp [State.complete]⟩

/-- Failing from a completed state changes RESULT only. -/
theorem fail_of_completed {s : State} (hd : s.done = true) (hp : s.pending = none) (c : ResultCode) :
    fail c s = .next { s with result := c } := by
  rw [fail_eq, ← hd, ← hp]

/-- Settles O21: READY is 0 after the add, and 1 after the next ENC_COMPUTE_PARITY. -/
theorem staleParityCannotBeRead : Obligations.StaleParityCannotBeRead := by
  intro idx j s t h hok
  obtain ⟨hready, hdone, hpending⟩ := notReady_of_encAddData_ok h hok
  obtain ⟨u, hu, hu'⟩ := exec_encComputeParity_ready j t
  obtain ⟨v, hv, hv'⟩ := exec_encGetParity_ready hu' j
  refine ⟨?_, u, v, hu, hu', hv, hv'⟩
  rw [exec_encGetParity_notReady hready, fail_of_completed hdone hpending]

end Sys2Proof.Machine
end
